-- ==== Sys2Proof/Word.lean ====
section
/-! DEFINITION. The word types of CRISP-32 (R6, R61): 32-bit registers and addresses, 8-bit bytes, interrupt numbers. -/

namespace Sys2Proof

/-- A register, address or immediate value: 32 bits (R6). -/
abbrev Word := BitVec 32

/-- A byte of memory or an 8-bit field of an instruction (R6, R121). -/
abbrev Byte := BitVec 8

/-- An interrupt number, 0 to 255 (R300; a `uint8_t`, R305). -/
abbrev IntNum := BitVec 8

/-- The byte a memory address reads as while nothing is listed there. The spec gives memory no reset contents (R44,
R360, N24): DESIGN CHOICE, unsafe for a claim about State.reset's memory only (log 3). -/
def unlistedByte : Byte := 0

end Sys2Proof
end

