-- ==== Sys2Proof/Syntax.lean ====
section
/-! DEFINITION. The instructions of CRISP-32: one constructor per row of spec/opcode_table.json (R135), operands in the
assembler's order (R124), and the five raw fields every instruction has (R121). -/

namespace Sys2Proof

/-- A register index, 0 to 31 (R22). A raw register field above 31 names no register (R126): the decoder refuses it, so
no term of `Instr` holds one. -/
abbrev Reg := Fin 32

/-- The five fields of an instruction as they are fetched (R121, R136). -/
structure Fields where
  opcode : Byte
  rs : Byte
  rt : Byte
  rd : Byte
  imm : Word
  deriving DecidableEq, Repr

/-- The operand forms of R124: which fields an instruction uses. -/
inductive Form where
  | r3 | i | lui | shi | shv | m | b2 | b1 | j | jr | jalr | n | raise | rd | ptbr
  deriving DecidableEq, Repr

/-- The 62 instructions of R135. Every immediate is the whole 32-bit field (R127). -/
inductive Instr where
  | nop
  | add (rd rs rt : Reg)
  | addu (rd rs rt : Reg)
  | sub (rd rs rt : Reg)
  | subu (rd rs rt : Reg)
  | addi (rt rs : Reg) (imm : Word)
  | addiu (rt rs : Reg) (imm : Word)
  | and (rd rs rt : Reg)
  | or (rd rs rt : Reg)
  | xor (rd rs rt : Reg)
  | nor (rd rs rt : Reg)
  | andi (rt rs : Reg) (imm : Word)
  | ori (rt rs : Reg) (imm : Word)
  | xori (rt rs : Reg) (imm : Word)
  | lui (rt : Reg) (imm : Word)
  | sll (rd rt : Reg) (imm : Word)
  | srl (rd rt : Reg) (imm : Word)
  | sra (rd rt : Reg) (imm : Word)
  | sllv (rd rt rs : Reg)
  | srlv (rd rt rs : Reg)
  | srav (rd rt rs : Reg)
  | slt (rd rs rt : Reg)
  | sltu (rd rs rt : Reg)
  | slti (rt rs : Reg) (imm : Word)
  | sltiu (rt rs : Reg) (imm : Word)
  | mul (rd rs rt : Reg)
  | mulh (rd rs rt : Reg)
  | mulhu (rd rs rt : Reg)
  | div (rd rs rt : Reg)
  | divu (rd rs rt : Reg)
  | rem (rd rs rt : Reg)
  | remu (rd rs rt : Reg)
  | lw (rt rs : Reg) (imm : Word)
  | lh (rt rs : Reg) (imm : Word)
  | lhu (rt rs : Reg) (imm : Word)
  | lb (rt rs : Reg) (imm : Word)
  | lbu (rt rs : Reg) (imm : Word)
  | sw (rt rs : Reg) (imm : Word)
  | sh (rt rs : Reg) (imm : Word)
  | sb (rt rs : Reg) (imm : Word)
  | beq (rs rt : Reg) (imm : Word)
  | bne (rs rt : Reg) (imm : Word)
  | blez (rs : Reg) (imm : Word)
  | bgtz (rs : Reg) (imm : Word)
  | bltz (rs : Reg) (imm : Word)
  | bgez (rs : Reg) (imm : Word)
  | j (imm : Word)
  | jal (imm : Word)
  | jr (rs : Reg)
  | jalr (rd rs : Reg)
  | syscall
  | brk
  | ei
  | di
  | iret
  | raise (imm : Word)
  | getpc (rd : Reg)
  | enablePaging
  | disablePaging
  | setPtbr (rd rt : Reg)
  | enterUser
  | getmode (rd : Reg)
  deriving DecidableEq, Repr

end Sys2Proof
end

