-- ==== Sys2Proof/WellFormed.lean ====
section
/-! DEFINITION. When five fetched fields are a well-formed instruction: the opcode is assigned (R135, R137) and every
register field the instruction USES names a register (R126). An unused field never matters (R125). -/

namespace Sys2Proof

/-! The opcode map of R130 and R135, family by family: each assigned opcode with its operand form. -/

/-- Opcodes 0x00-0x0F. -/
def arithmeticForms : List (Nat × Form) :=
  [(0x00, .n), (0x01, .r3), (0x02, .r3), (0x03, .r3), (0x04, .r3), (0x05, .i), (0x06, .i)]

/-- Opcodes 0x10-0x1F. -/
def logicalForms : List (Nat × Form) :=
  [(0x10, .r3), (0x11, .r3), (0x12, .r3), (0x13, .r3), (0x14, .i), (0x15, .i), (0x16, .i), (0x17, .lui)]

/-- Opcodes 0x20-0x2F. -/
def shiftForms : List (Nat × Form) :=
  [(0x20, .shi), (0x21, .shi), (0x22, .shi), (0x23, .shv), (0x24, .shv), (0x25, .shv)]

/-- Opcodes 0x30-0x3F. -/
def compareForms : List (Nat × Form) :=
  [(0x30, .r3), (0x31, .r3), (0x32, .i), (0x33, .i)]

/-- Opcodes 0x40-0x4F. -/
def multiplyForms : List (Nat × Form) :=
  [(0x40, .r3), (0x41, .r3), (0x42, .r3), (0x43, .r3), (0x44, .r3), (0x45, .r3), (0x46, .r3)]

/-- Opcodes 0x50-0x5F. -/
def loadStoreForms : List (Nat × Form) :=
  [(0x50, .m), (0x51, .m), (0x52, .m), (0x53, .m), (0x54, .m), (0x58, .m), (0x59, .m), (0x5A, .m)]

/-- Opcodes 0x60-0x6F. -/
def branchForms : List (Nat × Form) :=
  [(0x60, .b2), (0x61, .b2), (0x62, .b1), (0x63, .b1), (0x64, .b1), (0x65, .b1)]

/-- Opcodes 0x70-0x7F. -/
def jumpForms : List (Nat × Form) :=
  [(0x70, .j), (0x71, .j), (0x72, .jr), (0x73, .jalr)]

/-- Opcodes 0xF0-0xFF. -/
def systemForms : List (Nat × Form) :=
  [(0xF0, .n), (0xF1, .n), (0xF2, .n), (0xF3, .n), (0xF4, .n), (0xF5, .raise), (0xF6, .rd), (0xF7, .n),
   (0xF8, .n), (0xF9, .ptbr), (0xFB, .n), (0xFC, .rd)]

/-- The opcode map: each assigned opcode with its operand form. -/
def opcodeForms : List (Nat × Form) :=
  arithmeticForms ++ logicalForms ++ shiftForms ++ compareForms ++ multiplyForms ++ loadStoreForms ++ branchForms ++
    jumpForms ++ systemForms

/-- The form an opcode byte selects, none for an unassigned one (R136, R137). -/
def formOf (opcode : Byte) : Option Form := opcodeForms.lookup opcode.toNat

/-- The forms that use the rs field as a register (R124). -/
def Form.usesRs : Form → Bool
  | .r3 | .i | .shv | .m | .b2 | .b1 | .jr | .jalr => true
  | .lui | .shi | .j | .n | .raise | .rd | .ptbr => false

/-- The forms that use the rt field as a register (R124). -/
def Form.usesRt : Form → Bool
  | .r3 | .i | .lui | .shi | .shv | .m | .b2 | .ptbr => true
  | .b1 | .j | .jr | .jalr | .n | .raise | .rd => false

/-- The forms that use the rd field as a register (R124). -/
def Form.usesRd : Form → Bool
  | .r3 | .shi | .shv | .jalr | .rd | .ptbr => true
  | .i | .lui | .m | .b2 | .b1 | .j | .jr | .n | .raise => false

/-- A register field names a register (R126). -/
def namesRegister (b : Byte) : Bool := decide (b.toNat < 32)

/-- Well-formed fields: an assigned opcode, and each register field its form uses is at most 31. -/
def Fields.wellFormed (f : Fields) : Bool :=
  match formOf f.opcode with
  | none => false
  | some form =>
    (!form.usesRs || namesRegister f.rs) && (!form.usesRt || namesRegister f.rt) &&
      (!form.usesRd || namesRegister f.rd)

end Sys2Proof
end

