-- ==== Sys2Proof/Decode.lean ====
section
/-! DEFINITION. Decoding and encoding (R120-R128, R135-R139). The decoder is total on any bytes and refuses by name; the
encoder stands after it. -/

namespace Sys2Proof

/-- Why the decoder gives no instruction. -/
inductive DecodeReject where
  /-- The opcode byte is unassigned: the step raises ILLEGAL_OP (R137). -/
  | illegalOpcode
  /-- A register field the instruction uses is above 31: the step refuses (R126, D8). -/
  | registerField
  /-- Fewer than eight bytes: no instruction (R120); the fetch always gives eight. -/
  | truncated
  deriving DecidableEq, Repr

/-- The register a raw field names, if it names one (R126). -/
def regField (b : Byte) : Option Reg := if h : b.toNat < 32 then some ⟨b.toNat, h⟩ else none

/-- Form R3, `OP rd, rs, rt` (R124). -/
def decodeR3 (op : Reg → Reg → Reg → Instr) (f : Fields) : Except DecodeReject Instr :=
  match regField f.rd, regField f.rs, regField f.rt with
  | some rd, some rs, some rt => .ok (op rd rs rt)
  | _, _, _ => .error .registerField

/-- Form I, `OP rt, rs, imm` (R124). -/
def decodeI (op : Reg → Reg → Word → Instr) (f : Fields) : Except DecodeReject Instr :=
  match regField f.rt, regField f.rs with
  | some rt, some rs => .ok (op rt rs f.imm)
  | _, _ => .error .registerField

/-- Form M, `OP rt, offset(rs)` (R124). -/
def decodeM (op : Reg → Reg → Word → Instr) (f : Fields) : Except DecodeReject Instr :=
  match regField f.rt, regField f.rs with
  | some rt, some rs => .ok (op rt rs f.imm)
  | _, _ => .error .registerField

/-- Form LUI, `LUI rt, imm` (R124). -/
def decodeLui (op : Reg → Word → Instr) (f : Fields) : Except DecodeReject Instr :=
  match regField f.rt with
  | some rt => .ok (op rt f.imm)
  | none => .error .registerField

/-- Form SHI, `OP rd, rt, shamt` (R124): the source is the rt field. -/
def decodeShi (op : Reg → Reg → Word → Instr) (f : Fields) : Except DecodeReject Instr :=
  match regField f.rd, regField f.rt with
  | some rd, some rt => .ok (op rd rt f.imm)
  | _, _ => .error .registerField

/-- Form SHV, `OP rd, rt, rs` (R124): the third operand is the rs field. -/
def decodeShv (op : Reg → Reg → Reg → Instr) (f : Fields) : Except DecodeReject Instr :=
  match regField f.rd, regField f.rt, regField f.rs with
  | some rd, some rt, some rs => .ok (op rd rt rs)
  | _, _, _ => .error .registerField

/-- Form B2, `OP rs, rt, offset` (R124). -/
def decodeB2 (op : Reg → Reg → Word → Instr) (f : Fields) : Except DecodeReject Instr :=
  match regField f.rs, regField f.rt with
  | some rs, some rt => .ok (op rs rt f.imm)
  | _, _ => .error .registerField

/-- Form B1, `OP rs, offset` (R124). -/
def decodeB1 (op : Reg → Word → Instr) (f : Fields) : Except DecodeReject Instr :=
  match regField f.rs with
  | some rs => .ok (op rs f.imm)
  | none => .error .registerField

/-- Form JR, `JR rs` (R124). -/
def decodeJr (op : Reg → Instr) (f : Fields) : Except DecodeReject Instr :=
  match regField f.rs with
  | some rs => .ok (op rs)
  | none => .error .registerField

/-- Form JALR, `JALR rd, rs` (R124). -/
def decodeJalr (op : Reg → Reg → Instr) (f : Fields) : Except DecodeReject Instr :=
  match regField f.rd, regField f.rs with
  | some rd, some rs => .ok (op rd rs)
  | _, _ => .error .registerField

/-- Form RD, `OP rd` (R124). -/
def decodeRd (op : Reg → Instr) (f : Fields) : Except DecodeReject Instr :=
  match regField f.rd with
  | some rd => .ok (op rd)
  | none => .error .registerField

/-- Form PTBR, `SET_PTBR rd, rt` (R124): both fields are sources. -/
def decodePtbr (op : Reg → Reg → Instr) (f : Fields) : Except DecodeReject Instr :=
  match regField f.rd, regField f.rt with
  | some rd, some rt => .ok (op rd rt)
  | _, _ => .error .registerField

/-- NOP and additions, opcodes 0x00-0x0F (R130): `low` is the low digit of the opcode. -/
def decodeArithmetic (low : Nat) (f : Fields) : Except DecodeReject Instr :=
  match low with
  | 0x0 => .ok .nop
  | 0x1 => decodeR3 .add f
  | 0x2 => decodeR3 .addu f
  | 0x3 => decodeR3 .sub f
  | 0x4 => decodeR3 .subu f
  | 0x5 => decodeI .addi f
  | 0x6 => decodeI .addiu f
  | _ => .error .illegalOpcode

/-- Logic, opcodes 0x10-0x1F (R130): `low` is the low digit of the opcode. -/
def decodeLogical (low : Nat) (f : Fields) : Except DecodeReject Instr :=
  match low with
  | 0x0 => decodeR3 .and f
  | 0x1 => decodeR3 .or f
  | 0x2 => decodeR3 .xor f
  | 0x3 => decodeR3 .nor f
  | 0x4 => decodeI .andi f
  | 0x5 => decodeI .ori f
  | 0x6 => decodeI .xori f
  | 0x7 => decodeLui .lui f
  | _ => .error .illegalOpcode

/-- Shifts, opcodes 0x20-0x2F (R130): `low` is the low digit of the opcode. -/
def decodeShift (low : Nat) (f : Fields) : Except DecodeReject Instr :=
  match low with
  | 0x0 => decodeShi .sll f
  | 0x1 => decodeShi .srl f
  | 0x2 => decodeShi .sra f
  | 0x3 => decodeShv .sllv f
  | 0x4 => decodeShv .srlv f
  | 0x5 => decodeShv .srav f
  | _ => .error .illegalOpcode

/-- Comparisons, opcodes 0x30-0x3F (R130): `low` is the low digit of the opcode. -/
def decodeCompare (low : Nat) (f : Fields) : Except DecodeReject Instr :=
  match low with
  | 0x0 => decodeR3 .slt f
  | 0x1 => decodeR3 .sltu f
  | 0x2 => decodeI .slti f
  | 0x3 => decodeI .sltiu f
  | _ => .error .illegalOpcode

/-- Multiplication and division, opcodes 0x40-0x4F (R130): `low` is the low digit of the opcode. -/
def decodeMultiply (low : Nat) (f : Fields) : Except DecodeReject Instr :=
  match low with
  | 0x0 => decodeR3 .mul f
  | 0x1 => decodeR3 .mulh f
  | 0x2 => decodeR3 .mulhu f
  | 0x3 => decodeR3 .div f
  | 0x4 => decodeR3 .divu f
  | 0x5 => decodeR3 .rem f
  | 0x6 => decodeR3 .remu f
  | _ => .error .illegalOpcode

/-- Loads and stores, opcodes 0x50-0x5F (R130): `low` is the low digit of the opcode. -/
def decodeLoadStore (low : Nat) (f : Fields) : Except DecodeReject Instr :=
  match low with
  | 0x0 => decodeM .lw f
  | 0x1 => decodeM .lh f
  | 0x2 => decodeM .lhu f
  | 0x3 => decodeM .lb f
  | 0x4 => decodeM .lbu f
  | 0x8 => decodeM .sw f
  | 0x9 => decodeM .sh f
  | 0xA => decodeM .sb f
  | _ => .error .illegalOpcode

/-- Branches, opcodes 0x60-0x6F (R130): `low` is the low digit of the opcode. -/
def decodeBranch (low : Nat) (f : Fields) : Except DecodeReject Instr :=
  match low with
  | 0x0 => decodeB2 .beq f
  | 0x1 => decodeB2 .bne f
  | 0x2 => decodeB1 .blez f
  | 0x3 => decodeB1 .bgtz f
  | 0x4 => decodeB1 .bltz f
  | 0x5 => decodeB1 .bgez f
  | _ => .error .illegalOpcode

/-- Jumps, opcodes 0x70-0x7F (R130): `low` is the low digit of the opcode. -/
def decodeJump (low : Nat) (f : Fields) : Except DecodeReject Instr :=
  match low with
  | 0x0 => .ok (.j f.imm)
  | 0x1 => .ok (.jal f.imm)
  | 0x2 => decodeJr .jr f
  | 0x3 => decodeJalr .jalr f
  | _ => .error .illegalOpcode

/-- System, opcodes 0xF0-0xFF (R130): `low` is the low digit of the opcode. -/
def decodeSystem (low : Nat) (f : Fields) : Except DecodeReject Instr :=
  match low with
  | 0x0 => .ok .syscall
  | 0x1 => .ok .brk
  | 0x2 => .ok .ei
  | 0x3 => .ok .di
  | 0x4 => .ok .iret
  | 0x5 => .ok (.raise f.imm)
  | 0x6 => decodeRd .getpc f
  | 0x7 => .ok .enablePaging
  | 0x8 => .ok .disablePaging
  | 0x9 => decodePtbr .setPtbr f
  | 0xB => .ok .enterUser
  | 0xC => decodeRd .getmode f
  | _ => .error .illegalOpcode

/-- Decode the five fields: the opcode byte alone selects the row of R135 (R136), its high digit the family (R130) and its
low digit the row; the row's form says which of the other fields are operands (R124), and an opcode without a row is illegal
(R137, R138). -/
def decodeFields (f : Fields) : Except DecodeReject Instr :=
  match f.opcode.toNat / 16 with
  | 0x0 => decodeArithmetic (f.opcode.toNat % 16) f
  | 0x1 => decodeLogical (f.opcode.toNat % 16) f
  | 0x2 => decodeShift (f.opcode.toNat % 16) f
  | 0x3 => decodeCompare (f.opcode.toNat % 16) f
  | 0x4 => decodeMultiply (f.opcode.toNat % 16) f
  | 0x5 => decodeLoadStore (f.opcode.toNat % 16) f
  | 0x6 => decodeBranch (f.opcode.toNat % 16) f
  | 0x7 => decodeJump (f.opcode.toNat % 16) f
  | 0xF => decodeSystem (f.opcode.toNat % 16) f
  | _ => .error .illegalOpcode

/-- The fields of eight bytes in address order (R122): only the immediate is little-endian. -/
def Fields.ofBytes : List Byte → Option Fields
  | b0 :: b1 :: b2 :: b3 :: b4 :: b5 :: b6 :: b7 :: _ => some ⟨b0, b1, b2, b3, b7 ++ b6 ++ b5 ++ b4⟩
  | _ => none

/-- Decode the bytes at the fetch address, lowest address first (R122, R136). -/
def decode (bytes : List Byte) : Except DecodeReject Instr :=
  match Fields.ofBytes bytes with
  | some f => decodeFields f
  | none => .error .truncated

/-! The encoder (R121, R122, R124). Unused fields are encoded as 0, as the manual's examples do (R125). -/

/-- A register's field byte. -/
def regByte (r : Reg) : Byte := BitVec.ofNat 8 r.val

/-- The five fields of an instruction: opcode, rs, rt, rd, imm. -/
def Instr.fields : Instr → Fields
  | .nop => ⟨0x00, 0, 0, 0, 0⟩
  | .add rd rs rt => ⟨0x01, regByte rs, regByte rt, regByte rd, 0⟩
  | .addu rd rs rt => ⟨0x02, regByte rs, regByte rt, regByte rd, 0⟩
  | .sub rd rs rt => ⟨0x03, regByte rs, regByte rt, regByte rd, 0⟩
  | .subu rd rs rt => ⟨0x04, regByte rs, regByte rt, regByte rd, 0⟩
  | .addi rt rs imm => ⟨0x05, regByte rs, regByte rt, 0, imm⟩
  | .addiu rt rs imm => ⟨0x06, regByte rs, regByte rt, 0, imm⟩
  | .and rd rs rt => ⟨0x10, regByte rs, regByte rt, regByte rd, 0⟩
  | .or rd rs rt => ⟨0x11, regByte rs, regByte rt, regByte rd, 0⟩
  | .xor rd rs rt => ⟨0x12, regByte rs, regByte rt, regByte rd, 0⟩
  | .nor rd rs rt => ⟨0x13, regByte rs, regByte rt, regByte rd, 0⟩
  | .andi rt rs imm => ⟨0x14, regByte rs, regByte rt, 0, imm⟩
  | .ori rt rs imm => ⟨0x15, regByte rs, regByte rt, 0, imm⟩
  | .xori rt rs imm => ⟨0x16, regByte rs, regByte rt, 0, imm⟩
  | .lui rt imm => ⟨0x17, 0, regByte rt, 0, imm⟩
  | .sll rd rt imm => ⟨0x20, 0, regByte rt, regByte rd, imm⟩
  | .srl rd rt imm => ⟨0x21, 0, regByte rt, regByte rd, imm⟩
  | .sra rd rt imm => ⟨0x22, 0, regByte rt, regByte rd, imm⟩
  | .sllv rd rt rs => ⟨0x23, regByte rs, regByte rt, regByte rd, 0⟩
  | .srlv rd rt rs => ⟨0x24, regByte rs, regByte rt, regByte rd, 0⟩
  | .srav rd rt rs => ⟨0x25, regByte rs, regByte rt, regByte rd, 0⟩
  | .slt rd rs rt => ⟨0x30, regByte rs, regByte rt, regByte rd, 0⟩
  | .sltu rd rs rt => ⟨0x31, regByte rs, regByte rt, regByte rd, 0⟩
  | .slti rt rs imm => ⟨0x32, regByte rs, regByte rt, 0, imm⟩
  | .sltiu rt rs imm => ⟨0x33, regByte rs, regByte rt, 0, imm⟩
  | .mul rd rs rt => ⟨0x40, regByte rs, regByte rt, regByte rd, 0⟩
  | .mulh rd rs rt => ⟨0x41, regByte rs, regByte rt, regByte rd, 0⟩
  | .mulhu rd rs rt => ⟨0x42, regByte rs, regByte rt, regByte rd, 0⟩
  | .div rd rs rt => ⟨0x43, regByte rs, regByte rt, regByte rd, 0⟩
  | .divu rd rs rt => ⟨0x44, regByte rs, regByte rt, regByte rd, 0⟩
  | .rem rd rs rt => ⟨0x45, regByte rs, regByte rt, regByte rd, 0⟩
  | .remu rd rs rt => ⟨0x46, regByte rs, regByte rt, regByte rd, 0⟩
  | .lw rt rs imm => ⟨0x50, regByte rs, regByte rt, 0, imm⟩
  | .lh rt rs imm => ⟨0x51, regByte rs, regByte rt, 0, imm⟩
  | .lhu rt rs imm => ⟨0x52, regByte rs, regByte rt, 0, imm⟩
  | .lb rt rs imm => ⟨0x53, regByte rs, regByte rt, 0, imm⟩
  | .lbu rt rs imm => ⟨0x54, regByte rs, regByte rt, 0, imm⟩
  | .sw rt rs imm => ⟨0x58, regByte rs, regByte rt, 0, imm⟩
  | .sh rt rs imm => ⟨0x59, regByte rs, regByte rt, 0, imm⟩
  | .sb rt rs imm => ⟨0x5A, regByte rs, regByte rt, 0, imm⟩
  | .beq rs rt imm => ⟨0x60, regByte rs, regByte rt, 0, imm⟩
  | .bne rs rt imm => ⟨0x61, regByte rs, regByte rt, 0, imm⟩
  | .blez rs imm => ⟨0x62, regByte rs, 0, 0, imm⟩
  | .bgtz rs imm => ⟨0x63, regByte rs, 0, 0, imm⟩
  | .bltz rs imm => ⟨0x64, regByte rs, 0, 0, imm⟩
  | .bgez rs imm => ⟨0x65, regByte rs, 0, 0, imm⟩
  | .j imm => ⟨0x70, 0, 0, 0, imm⟩
  | .jal imm => ⟨0x71, 0, 0, 0, imm⟩
  | .jr rs => ⟨0x72, regByte rs, 0, 0, 0⟩
  | .jalr rd rs => ⟨0x73, regByte rs, 0, regByte rd, 0⟩
  | .syscall => ⟨0xF0, 0, 0, 0, 0⟩
  | .brk => ⟨0xF1, 0, 0, 0, 0⟩
  | .ei => ⟨0xF2, 0, 0, 0, 0⟩
  | .di => ⟨0xF3, 0, 0, 0, 0⟩
  | .iret => ⟨0xF4, 0, 0, 0, 0⟩
  | .raise imm => ⟨0xF5, 0, 0, 0, imm⟩
  | .getpc rd => ⟨0xF6, 0, 0, regByte rd, 0⟩
  | .enablePaging => ⟨0xF7, 0, 0, 0, 0⟩
  | .disablePaging => ⟨0xF8, 0, 0, 0, 0⟩
  | .setPtbr rd rt => ⟨0xF9, 0, regByte rt, regByte rd, 0⟩
  | .enterUser => ⟨0xFB, 0, 0, 0, 0⟩
  | .getmode rd => ⟨0xFC, 0, 0, regByte rd, 0⟩

/-- The eight bytes of five fields in address order (R122). -/
def Fields.bytes (f : Fields) : List Byte :=
  [f.opcode, f.rs, f.rt, f.rd, f.imm.extractLsb' 0 8, f.imm.extractLsb' 8 8, f.imm.extractLsb' 16 8,
    f.imm.extractLsb' 24 8]

/-- The eight bytes of an instruction, lowest address first. -/
def encode (i : Instr) : List Byte := i.fields.bytes

/-! The instruction as the 64-bit value W of R121, bit 63 the most significant; spec/opcode_table.json numbers its
`match`, `mask` and `encoding` so. -/

/-- The 64-bit value W of five fields (R121). -/
def Fields.word (f : Fields) : BitVec 64 := f.opcode ++ f.rs ++ f.rt ++ f.rd ++ f.imm

/-- The five fields of a 64-bit value W (R121). -/
def Fields.ofWord (w : BitVec 64) : Fields where
  opcode := w.extractLsb' 56 8
  rs := w.extractLsb' 48 8
  rt := w.extractLsb' 40 8
  rd := w.extractLsb' 32 8
  imm := w.extractLsb' 0 32

/-- The bytes in memory of the table's instruction word `w` of `nbits` bits. The table's rows have 64 bits, and then this
is W itself; a shorter word is the leading `nbits` bits of W, the rest 0 (DESIGN CHOICE, log 37). -/
def tableBytes (nbits w : Nat) : List Byte :=
  (Fields.ofWord (BitVec.ofNat 64 (w * 2 ^ (64 - nbits)))).bytes

/-- The instruction the decoder reads from a word of spec/opcode_table.json. -/
def decodeTableWord (nbits w : Nat) : Option Instr := (decode (tableBytes nbits w)).toOption

end Sys2Proof
end

