-- ==== Sys2Proof/Machine/Flags.lean ====
section
/-! DEFINITION. CRISP-32 has no flags, condition codes or predicates (R28). What other machines keep in flags are here the
results of comparisons (R200) and the conditions of branches (R231-R236), computed from register values. -/

namespace Sys2Proof.Machine

/-- A comparison's result as a register value: 1 or 0 (R200). -/
def boolWord (b : Bool) : Word := if b then 1 else 0

/-- `s(a) < s(b)`: two's-complement comparison (R201, R203). -/
def signedLess (a b : Word) : Bool := decide (a.toInt < b.toInt)

/-- `u(a) < u(b)`: unsigned comparison (R202, R204). -/
def unsignedLess (a b : Word) : Bool := decide (a.toNat < b.toNat)

/-- The condition of BLEZ: `s(a) <= 0` (R233). -/
def signedLeZero (a : Word) : Bool := decide (a.toInt ≤ 0)

/-- The condition of BGTZ: `s(a) > 0` (R234). -/
def signedGtZero (a : Word) : Bool := decide (0 < a.toInt)

/-- The condition of BLTZ: `s(a) < 0` (R235). -/
def signedLtZero (a : Word) : Bool := decide (a.toInt < 0)

/-- The condition of BGEZ: `s(a) >= 0` (R236). -/
def signedGeZero (a : Word) : Bool := decide (0 ≤ a.toInt)

end Sys2Proof.Machine
end

