-- ==== Sys2Proof/Config.lean ====
section
/-! DEFINITION. The parameters of the machine (R7, R8). R8's seven are data of `Config`, a field of the state that no
step changes (log 1); R7's MEMORY_SIZE and INITIAL_MEMORY are fields of the state, and only their values at
`State.reset` are chosen (log 2, log 3). -/

namespace Sys2Proof

/-- `MISALIGNED_DATA` (R8, R67, D1): a misaligned halfword or word access is done bytewise, or the model refuses it. -/
inductive MisalignedData where
  | bytewise
  | refuse
  deriving DecidableEq, Repr

/-- `IRET_MODE` (R8, R263, R332, D4): IRET leaves the mode unchanged, or restores the mode the dispatch saved. -/
inductive IretMode where
  | unchanged
  | restoreSaved
  deriving DecidableEq, Repr

/-- `FRAME_SP_IMAGE` (R8, R320, D5): frame word 29 is R29 before the decrement, or after it. -/
inductive FrameSpImage where
  | pre
  | post
  deriving DecidableEq, Repr

/-- `INT255_DISPATCH` (R8, R315, D6): whether interrupt 255 is ever dispatched. -/
inductive Int255Dispatch where
  | yes
  | no
  deriving DecidableEq, Repr

/-- `EXEC_FAULT_STATUS` (R8, R310, D9): a step with an execute-phase exception ends with status 0, or with status -1. -/
inductive ExecFaultStatus where
  | continue_
  | stop
  deriving DecidableEq, Repr

/-- `EXEC_FAULT_SAVED_PC` (R8, R310, D10): an execute-phase exception leaves the pc after the instruction, or on it. -/
inductive ExecFaultSavedPc where
  | next
  | faulting
  deriving DecidableEq, Repr

/-- `JALR_SAME_REG` (R8, R244, D16): JALR with rd = rs writes the link first, or the model refuses it. -/
inductive JalrSameReg where
  | linkFirst
  | refuse
  deriving DecidableEq, Repr

/-- The seven parameters of R8. -/
structure Config where
  misalignedData : MisalignedData
  iretMode : IretMode
  frameSpImage : FrameSpImage
  int255Dispatch : Int255Dispatch
  execFaultStatus : ExecFaultStatus
  execFaultSavedPc : ExecFaultSavedPc
  jalrSameReg : JalrSameReg
  deriving DecidableEq, Repr

/-- The defaults of R8. -/
def Config.default : Config where
  misalignedData := .bytewise
  iretMode := .unchanged
  frameSpImage := .pre
  int255Dispatch := .yes
  execFaultStatus := .continue_
  execFaultSavedPc := .next
  jalrSameReg := .linkFirst

/-- MEMORY_SIZE at `State.reset`. The host chooses it (R7, R44, U10); the 16 MB of the manual's example system (R81):
DESIGN CHOICE, unsafe for a claim about State.reset only (log 2). -/
def Config.resetMemorySize : Word := 0x01000000

end Sys2Proof
end

