-- ==== Sys2Proof/Machine/State.lean ====
section
/-! DEFINITION. The state of the machine, its stops, and reset (R20, R42, R44). -/

namespace Sys2Proof.Machine

/-- Guest physical memory (R62) as a sparse list of cells: addresses strictly rising, no cell holding what an unlisted
address reads as (`unlistedByte`). `Memory.wf` says the form holds; the operations over memory are in Ops.lean. -/
abbrev Memory := List Host.Cell

/-- The canonical form of a memory: strictly rising addresses, and no cell equal to what an unlisted address reads as. -/
abbrev Memory.wf (m : Memory) : Prop :=
  m.Pairwise (fun c d => c.1 < d.1) ∧ ∀ c ∈ m, c.2 ≠ unlistedByte

/-- Why the run loop leaves after a step: the stop reasons of R42, complete. -/
inductive StopReason where
  /-- SYSCALL cleared `running`; the step ended with status 0 (R252). -/
  | haltSyscall
  /-- BREAK cleared `running`; the step ended with status 0 (R253). -/
  | haltBreak
  /-- The fetch was beyond the end of memory: `running` cleared, no interrupt, status -1 (R40 step 4). -/
  | fetchOutOfBounds
  /-- The pc was no multiple of 8: MEM_FAULT pending, status -1 (R40 step 2). -/
  | misalignedPc
  /-- The pc could not be translated: PAGE_FAULT pending, status -1 (R40 step 3). -/
  | fetchPageFault
  /-- The dispatch failed: nothing changed, status -1 (R322). -/
  | dispatchFailed
  /-- An execute-phase exception under EXEC_FAULT_STATUS = stop: status -1 (R310). -/
  | execFault
  deriving DecidableEq, Repr

/-- Faults of the MODEL. There are none: every event the spec calls a fault, exception, halt or stop is a next state
(R40, R310, R320, R322), with the pending bit, `running` and the stop reason the spec gives it. -/
inductive Fault where
  deriving DecidableEq, Repr

/-- Refusals of the MODEL: what the spec puts outside its domain. -/
inductive Refusal where
  /-- Raised by `exec` for an instruction that has no meaning yet. Safe: nothing is claimed of it. -/
  | notModelled (mnemonic : String)
  /-- Raised by the step: a register field the instruction uses holds 32-255 (R126, D8). Safe: no next state. -/
  | registerField
  /-- Raised by executing fewer than eight bytes (R120); the fetch always gives eight, so no step raises it. Safe. -/
  | truncatedFetch
  /-- Raised by a load or store of a misaligned halfword or word under MISALIGNED_DATA = refuse (R67, D1). Safe. -/
  | misalignedData
  /-- Raised by JALR with rd = rs under JALR_SAME_REG = refuse (R244, D16). Safe. -/
  | jalrSameRegister
  deriving DecidableEq, Repr

/-- The machine's state: the VM structure of R20, field by field, with the hidden bit of R39, the outcome of the last
step and the parameters of R8. -/
structure State where
  /-- `regs[32]`: R0 to R31 (R20, R22). R0's slot is 0 (R21); `State.readReg` reads R0 as 0 whatever it holds. -/
  regs : Vector Word 32
  /-- `pc` (R25, R26). -/
  pc : Word
  /-- `memory` (R62). -/
  mem : Memory
  /-- `memory_size`, the number of bytes of memory that exist (R7, R20). -/
  memorySize : Word
  /-- `running` (R37). -/
  running : Bool
  /-- `kernel_mode`: true = kernel, false = user (R29). -/
  kernelMode : Bool
  /-- `paging_enabled` (R30). -/
  pagingEnabled : Bool
  /-- `page_table_base`, ptbr (R31). -/
  pageTableBase : Word
  /-- `num_pages` (R32). -/
  numPages : Word
  /-- `interrupts.enabled`, ie (R33). -/
  intEnabled : Bool
  /-- `interrupts.pending`: interrupt n is bit n (R34). -/
  pending : BitVec 256
  /-- `interrupts.saved_pc` (R35). -/
  savedPc : Word
  /-- `interrupts.saved_regs_addr` (R36). -/
  savedRegsAddr : Word
  /-- `saved_mode`, the hidden bit of R39 and R332, used only under IRET_MODE = restore_saved. -/
  savedMode : Bool
  /-- The model's own field (log 4): why the run loop leaves after the last step, none if it goes on (R41, R42). -/
  stopReason : Option StopReason
  /-- The model's own field (log 1): the parameters of R8; no step changes it. -/
  cfg : Config
  deriving DecidableEq, Repr

/-- What `c32_vm_init` leaves on a host buffer `mem` of `size` bytes (R44), with the saved mode of R332. -/
def State.init (cfg : Config) (mem : Memory) (size : Word) : State where
  regs := Vector.replicate 32 0
  pc := 0
  mem := mem
  memorySize := size
  running := false
  kernelMode := true
  pagingEnabled := false
  pageTableBase := 0
  numPages := 0
  intEnabled := false
  pending := 0
  savedPc := 0
  savedRegsAddr := 0
  savedMode := true
  stopReason := none
  cfg := cfg

/-- The machine right after reset (R44, R360): the default parameters (R8), nothing listed in memory (log 3), and a
memory of `Config.resetMemorySize` bytes (log 2). -/
def State.reset : State := State.init Config.default [] Config.resetMemorySize

end Sys2Proof.Machine
end

