-- ==== Sys2Proof/Machine/Ops.lean ====
section
/-! DEFINITION. The named operations over registers, memory and translation, and taking and returning from an
exception: R21, R60-R73, R90-R94, R263, R310-R324. -/

namespace Sys2Proof.Machine

/-! ### General registers -/

/-- Read a general register; R0 always reads 0 (R10, R21). -/
def State.readReg (s : State) (r : Reg) : Word := if r = 0 then 0 else s.regs[r]

/-- Write a general register; a write of R0 is ignored (R10, R21). -/
def State.setReg (s : State) (r : Reg) (v : Word) : State :=
  { s with regs := if r = 0 then s.regs else s.regs.set r v }

/-- Step 8 of R40: `x[0] <- 0`. -/
def State.zeroR0 (s : State) : State := { s with regs := s.regs.set 0 0 }

/-- Write the pc; nothing is checked (R25). -/
def State.setPc (s : State) (v : Word) : State := { s with pc := v }

/-! ### Bytes of memory -/

/-- The byte at an address. -/
def Memory.read : Memory → Nat → Byte
  | [], _ => unlistedByte
  | (b, v) :: m, a => if a = b then v else Memory.read m a

/-- List a cell, in address order. -/
def Memory.insert : Memory → Nat → Byte → Memory
  | [], a, v => [(a, v)]
  | (b, w) :: m, a, v =>
    if a < b then (a, v) :: (b, w) :: m
    else if a = b then (a, v) :: m
    else (b, w) :: Memory.insert m a v

/-- Write the byte at an address, keeping the canonical form: writing what an unlisted address reads as removes the
cell. -/
def Memory.write (m : Memory) (a : Nat) (v : Byte) : Memory :=
  if v = unlistedByte then m.filter (fun c => c.1 ≠ a) else Memory.insert m a v

/-- The little-endian value of the `n` bytes (`n` at most 4) from `a` on, zero-extended (R60, R68). -/
def Memory.readLE (m : Memory) (a : Nat) : Nat → Word
  | 0 => 0
  | n + 1 => (Memory.readLE m (a + 1) n <<< 8) ||| (m.read a).setWidth 32

/-- Store the low `n` bytes of a value little-endian from `a` on (R60, R68). -/
def Memory.writeLE (m : Memory) (a : Nat) : Nat → Word → Memory
  | 0, _ => m
  | n + 1, v => Memory.writeLE (m.write a (v.setWidth 8)) (a + 1) n (v >>> 8)

/-- Store consecutive little-endian words (the context save of R320). -/
def Memory.writeWords (m : Memory) (a : Nat) : List Word → Memory
  | [] => m
  | w :: ws => Memory.writeWords (m.writeLE a 4 w) (a + 4) ws

/-- Store consecutive bytes. -/
def Memory.writeBytes (m : Memory) (a : Nat) : List Byte → Memory
  | [] => m
  | b :: bs => Memory.writeBytes (m.write a b) (a + 1) bs

/-! ### Physical accesses -/

/-- The bounds check, on unbounded integers (R65, D13). -/
def State.inBounds (s : State) (pa n : Nat) : Bool := decide (pa + n ≤ s.memorySize.toNat)

/-- `PhysRead(pa, n)`, none when it fails (R68). -/
def State.physRead (s : State) (pa n : Nat) : Option Word :=
  if s.inBounds pa n then some (s.mem.readLE pa n) else none

/-- `PhysWrite(pa, n, v)`, none when it fails (R68). -/
def State.physWrite (s : State) (pa n : Nat) (v : Word) : Option State :=
  if s.inBounds pa n then some { s with mem := s.mem.writeLE pa n v } else none

/-! ### Translation (R90) -/

/-- The kinds of access a translation distinguishes (R90). -/
inductive AccessKind where
  | read
  | write
  | exec
  deriving DecidableEq, Repr

/-- PTE bit 0, V: page present (R91). -/
def pteValid (pte : Word) : Bool := pte.getLsbD 0

/-- PTE bit 1, W: can write (R91). -/
def pteWritable (pte : Word) : Bool := pte.getLsbD 1

/-- PTE bit 2, X: can execute (R91). -/
def pteExecutable (pte : Word) : Bool := pte.getLsbD 2

/-- PTE bit 3, U: accessible in user mode (R91). -/
def pteUser (pte : Word) : Bool := pte.getLsbD 3

/-- Steps 7 to 10 of R90: the PTE permits the access. Bits 11:4 are ignored (R91, D20). -/
def ptePermits (pte : Word) (kind : AccessKind) : Bool :=
  pteValid pte && pteUser pte && (kind != .write || pteWritable pte) && (kind != .exec || pteExecutable pte)

/-- The virtual page number, `va[31:12]` (R90 step 3). -/
def vpnOf (va : Word) : Word := va >>> 12

/-- The physical address of the PTE, modulo 2^32 (R92, D14). -/
def State.pteAddr (s : State) (va : Word) : Word := s.pageTableBase + (vpnOf va <<< 2)

/-- Step 11 of R90: the PPN bits of the PTE with the offset of the address. -/
def physOf (pte va : Word) : Word := (pte &&& 0xFFFFF000) ||| (va &&& 0x00000FFF)

/-- `Translate(va, kind)` (R90): the physical address, none for a page fault. Only user mode with paging on is translated;
a VPN out of range, a PTE outside memory (R94, D19) and a PTE that does not permit the access fail. -/
def State.translate (s : State) (va : Word) (kind : AccessKind) : Option Word :=
  if s.kernelMode then some va
  else if !s.pagingEnabled then some va
  else if s.numPages.toNat ≤ (vpnOf va).toNat then none
  else
    match s.physRead (s.pteAddr va).toNat 4 with
    | none => none
    | some pte => if ptePermits pte kind then some (physOf pte va) else none

/-! ### Interrupt numbers (R300) and raising (R10, R310) -/

/-- ILLEGAL_OP. -/
def intIllegalOp : IntNum := 1
/-- MEM_FAULT. -/
def intMemFault : IntNum := 2
/-- SYSCALL. -/
def intSyscall : IntNum := 4
/-- BREAK. -/
def intBreak : IntNum := 5
/-- PRIVILEGE_VIOLATION. -/
def intPrivilegeViolation : IntNum := 7
/-- PAGE_FAULT. -/
def intPageFault : IntNum := 8

/-- `pending[n] <- 1`, the whole of raising (R10, R34, R305). -/
def State.raisePending (s : State) (n : IntNum) : State :=
  { s with pending := s.pending ||| (1#256 <<< n.toNat) }

/-- `pending[n] <- 0`, done by the dispatch of n alone (R34, R320 step 1, D3). -/
def State.clearPending (s : State) (n : IntNum) : State :=
  { s with pending := s.pending &&& ~~~(1#256 <<< n.toNat) }

/-- An execute-phase exception (R310): the pending bit and nothing else, the pc left after the instruction or put back on
it (EXEC_FAULT_SAVED_PC), and the step's status 0 or -1 (EXEC_FAULT_STATUS). `s.pc` is `ia + 8` here (R26). -/
def State.raiseFault (s : State) (n : IntNum) : State :=
  { s.raisePending n with
    pc := match s.cfg.execFaultSavedPc with
      | .next => s.pc
      | .faulting => s.pc - 8#32
    stopReason := match s.cfg.execFaultStatus with
      | .continue_ => s.stopReason
      | .stop => some .execFault }

/-! ### Data accesses (R66, R67, R70, R71) -/

/-- The widths of a data access (R69). -/
inductive Size where
  | byte
  | half
  | word
  deriving DecidableEq, Repr

/-- The number of bytes of a width (R61). -/
def Size.bytes : Size → Nat
  | .byte => 1
  | .half => 2
  | .word => 4

/-- What a data access gives: a value, an exception to raise, or (under MISALIGNED_DATA = refuse) a refusal. -/
inductive Access (α : Type) where
  | ok (a : α)
  | raised (n : IntNum)
  | misaligned

/-- The model refuses this access: its address is misaligned and MISALIGNED_DATA = refuse (R67, D1). -/
def State.refusesMisaligned (s : State) (ea : Word) (sz : Size) : Bool :=
  match s.cfg.misalignedData with
  | .bytewise => false
  | .refuse => decide (ea.toNat % sz.bytes ≠ 0)

/-- `MemRead(ea, n)` (R70): translate, then bounds, then read; one translation, of the first byte (R72, D2). -/
def State.memRead (s : State) (ea : Word) (sz : Size) : Access Word :=
  if s.refusesMisaligned ea sz then .misaligned
  else
    match s.translate ea .read with
    | none => .raised intPageFault
    | some pa =>
      match s.physRead pa.toNat sz.bytes with
      | none => .raised intMemFault
      | some v => .ok v

/-- `MemWrite(ea, n, v)` (R71): translate, then bounds, then write. -/
def State.memWrite (s : State) (ea : Word) (sz : Size) (v : Word) : Access State :=
  if s.refusesMisaligned ea sz then .misaligned
  else
    match s.translate ea .write with
    | none => .raised intPageFault
    | some pa =>
      match s.physWrite pa.toNat sz.bytes v with
      | none => .raised intMemFault
      | some s' => .ok s'

/-! ### Taking an interrupt: selection and dispatch (R315, R320, R322) -/

/-- The lowest-numbered pending interrupt that may be dispatched; 255 only under INT255_DISPATCH = yes (R315, D6). -/
def firstPending (cfg : Config) (pending : BitVec 256) : Option IntNum :=
  ((List.range (match cfg.int255Dispatch with | .yes => 256 | .no => 255)).find?
    (fun n => pending.getLsbD n)).map (BitVec.ofNat 8)

/-- The interrupt check of R40 step 1: the interrupt to dispatch now, if ie = 1 and one is pending. -/
def State.selectInterrupt (s : State) : Option IntNum :=
  if s.intEnabled then firstPending s.cfg s.pending else none

/-- The address of the frame a dispatch writes: R29 - 128 modulo 2^32 (R320 step 4, R322 (a)). -/
def State.frameAddr (s : State) : Word := s.readReg 29 - 128#32

/-- The 32 words of the frame (R320 step 5): word i is register i, R0 as 0, R4 before the dispatch writes it, and R29 as
FRAME_SP_IMAGE says. -/
def State.frameWords (s : State) : List Word :=
  List.ofFn fun r : Reg =>
    if r = 29 then
      match s.cfg.frameSpImage with
      | .pre => s.readReg 29
      | .post => s.frameAddr
    else s.readReg r

/-- Memory after the context save of a dispatch (R320 step 5); physical addresses (D12). -/
def State.frameMem (s : State) : Memory := s.mem.writeWords s.frameAddr.toNat s.frameWords

/-- The handler word of interrupt n, read after the frame is written (R80, R320 step 8, R322 (c)). -/
def State.handlerWord (s : State) (n : IntNum) : Word := s.frameMem.readLE (8 * n.toNat) 4

/-- The dispatch goes through: frame and vector word inside memory, and a handler installed (R322, D11, D12). -/
def State.canDispatch (s : State) (n : IntNum) : Bool :=
  s.inBounds s.frameAddr.toNat 128 && s.inBounds (8 * n.toNat) 4 && s.handlerWord n != 0

/-- The dispatch of interrupt n, none when it fails (R320, R322): all or nothing. -/
def State.dispatch (s : State) (n : IntNum) : Option State :=
  if s.canDispatch n then
    some { ((s.clearPending n).setReg 29 s.frameAddr).setReg 4 (n.setWidth 32) with
      savedPc := s.pc
      savedMode := match s.cfg.iretMode with
        | .unchanged => s.savedMode
        | .restoreSaved => s.kernelMode
      kernelMode := true
      mem := s.frameMem
      savedRegsAddr := s.frameAddr
      intEnabled := false
      pc := s.handlerWord n }
  else none

/-- Step 1 of R40: dispatch the selected interrupt, if there is one; none when the dispatch fails. -/
def State.interruptCheck (s : State) : Option State :=
  match s.selectInterrupt with
  | none => some s
  | some n => s.dispatch n

/-! ### Returning from an interrupt (R263, R324) -/

/-- Register i's word of the frame at `saved_regs_addr` (R263, R320). -/
def State.frameWord (s : State) (r : Reg) : Word := s.mem.readLE (s.savedRegsAddr.toNat + 4 * r.val) 4

/-- The frame IRET reads is inside memory (R263, D12). -/
def State.frameInBounds (s : State) : Bool := s.inBounds s.savedRegsAddr.toNat 128

/-- The register file IRET restores: every register from its word of the frame; R0 stays as it is (R21, R263). -/
def State.restoredRegs (s : State) : Vector Word 32 :=
  Vector.ofFn fun r : Reg => if r = 0 then s.regs[r] else s.frameWord r

/-- The return of R263, once the mode and the frame have been checked: the 32 registers from the frame, the pc from saved_pc, ie set, and the mode as IRET_MODE says. -/
def State.returnFromInterrupt (s : State) : State :=
  { s with
    regs := s.restoredRegs
    pc := s.savedPc
    intEnabled := true
    kernelMode := match s.cfg.iretMode with
      | .unchanged => s.kernelMode
      | .restoreSaved => s.savedMode }

/-! ### Starting and ending a step (R40) -/

/-- Where the next instruction is fetched, or why the fetch stops the step (R40 steps 2 to 4). -/
def State.fetchAddr (s : State) : Except StopReason Nat :=
  if s.pc.toNat % 8 ≠ 0 then .error .misalignedPc
  else
    match s.translate s.pc .exec with
    | none => .error .fetchPageFault
    | some ppc => if s.inBounds ppc.toNat 8 then .ok ppc.toNat else .error .fetchOutOfBounds

/-- The eight bytes of the instruction at a physical address, lowest address first (R40 step 5, R122). -/
def State.fetchBytes (s : State) (ppc : Nat) : List Byte :=
  (List.range 8).map fun k => s.mem.read (ppc + k)

/-- A step that the fetch stops (R40 steps 2 to 4): MEM_FAULT or PAGE_FAULT pending, or `running` cleared. -/
def State.stopFetch (s : State) (r : StopReason) : State :=
  match r with
  | .misalignedPc => { s.raisePending intMemFault with stopReason := some r }
  | .fetchPageFault => { s.raisePending intPageFault with stopReason := some r }
  | .fetchOutOfBounds => { s with running := false, stopReason := some r }
  | .haltSyscall | .haltBreak | .dispatchFailed | .execFault => { s with stopReason := some r }

/-- The status a step ended with, the return value of `c32_vm_step`: true for 0, false for -1 (R40, R42). -/
def State.statusOk (s : State) : Bool :=
  match s.stopReason with
  | none | some .haltSyscall | some .haltBreak => true
  | some .fetchOutOfBounds | some .misalignedPc | some .fetchPageFault | some .dispatchFailed
  | some .execFault => false

/-- The end of a step that executed an instruction: step 8 of R40 when its status is 0 (R43). -/
def State.endStep (s : State) : State := if s.statusOk then s.zeroR0 else s

end Sys2Proof.Machine
end

