-- ==== Sys2Proof/Machine/Operands.lean ====
section
/-! DEFINITION. The operand forms of R124 as shared shapes of meaning. In every meaning the pc has already been advanced:
`s.pc` is `ia + 8` (R26). -/

namespace Sys2Proof.Machine

/-- What a meaning answers. -/
abbrev Result := Host.Outcome State Fault Refusal

/-- Form R3: `x[rd] <- f(x[rs], x[rt])`. -/
def binaryOp (f : Word → Word → Word) (rd rs rt : Reg) (s : State) : Result :=
  .next (s.setReg rd (f (s.readReg rs) (s.readReg rt)))

/-- Form I: `x[rt] <- f(x[rs], imm)`. -/
def immediateOp (f : Word → Word → Word) (rt rs : Reg) (imm : Word) (s : State) : Result :=
  .next (s.setReg rt (f (s.readReg rs) imm))

/-- The 5-bit shift amount of an immediate or a register value: `v & 0x1F` (R190). -/
def shiftAmount (v : Word) : Nat := (v &&& 0x1F#32).toNat

/-- Form SHI: `x[rd] <- f(x[rt], imm & 0x1F)`. -/
def shiftImmediate (f : Word → Nat → Word) (rd rt : Reg) (imm : Word) (s : State) : Result :=
  .next (s.setReg rd (f (s.readReg rt) (shiftAmount imm)))

/-- Form SHV: `x[rd] <- f(x[rt], x[rs] & 0x1F)`. -/
def shiftVariable (f : Word → Nat → Word) (rd rt rs : Reg) (s : State) : Result :=
  .next (s.setReg rd (f (s.readReg rt) (shiftAmount (s.readReg rs))))

/-- The effective address of form M: `x[rs] + imm` modulo 2^32 (R64). -/
def State.effectiveAddr (s : State) (rs : Reg) (imm : Word) : Word := s.readReg rs + imm

/-- A load (R210, R219): read `sz` bytes at the effective address and write the extended value to rt; an exception writes
nothing. -/
def load (sz : Size) (extend : Word → Word) (rt rs : Reg) (imm : Word) (s : State) : Result :=
  match s.memRead (s.effectiveAddr rs imm) sz with
  | .ok v => .next (s.setReg rt (extend v))
  | .raised n => .next (s.raiseFault n)
  | .misaligned => .refused .misalignedData

/-- A store (R210, R219): write the low `sz` bytes of rt at the effective address; an exception writes nothing. -/
def store (sz : Size) (rt rs : Reg) (imm : Word) (s : State) : Result :=
  match s.memWrite (s.effectiveAddr rs imm) sz (s.readReg rt) with
  | .ok s' => .next s'
  | .raised n => .next (s.raiseFault n)
  | .misaligned => .refused .misalignedData

/-- A branch (R230): `pc <- (ia + 8) + imm` modulo 2^32 when taken, `ia + 8` when not. -/
def branch (taken : Bool) (imm : Word) (s : State) : Result :=
  .next (if taken then s.setPc (s.pc + imm) else s)

/-- The privilege check (R260): the effect in kernel mode, PRIVILEGE_VIOLATION in user mode. -/
def privileged (effect : State → Result) (s : State) : Result :=
  if s.kernelMode then effect s else .next (s.raiseFault intPrivilegeViolation)

end Sys2Proof.Machine
end

