-- ==== Sys2Proof/Machine/Arithmetic.lean ====
section
/-! DEFINITION. Arithmetic instructions: R160-R174. No flags, no exceptions, all results modulo 2^32 (R160). -/

namespace Sys2Proof.Machine

/-- Bits 31:0 of the product (R167). -/
def mulLow (a b : Word) : Word := BitVec.ofNat 32 (a.toNat * b.toNat)

/-- Bits 63:32 of the signed product (R168). -/
def mulHighSigned (a b : Word) : Word := (BitVec.ofInt 64 (a.toInt * b.toInt)).extractLsb' 32 32

/-- Bits 63:32 of the unsigned product (R169). -/
def mulHighUnsigned (a b : Word) : Word := (BitVec.ofNat 64 (a.toNat * b.toNat)).extractLsb' 32 32

/-- Signed division, truncating toward zero (D32); 0 for a zero divisor, and the overflow pair gives -2^31 (R170). -/
def divSigned (a b : Word) : Word :=
  if b = 0 then 0
  else if a = 0x80000000 ∧ b = 0xFFFFFFFF then 0x80000000
  else BitVec.ofInt 32 (a.toInt.tdiv b.toInt)

/-- Unsigned division; 0 for a zero divisor (R171). -/
def divUnsigned (a b : Word) : Word := if b = 0 then 0 else BitVec.ofNat 32 (a.toNat / b.toNat)

/-- Signed remainder, with the dividend's sign; 0 for a zero divisor and for the overflow pair (R172, D15). -/
def remSigned (a b : Word) : Word :=
  if b = 0 then 0
  else if a = 0x80000000 ∧ b = 0xFFFFFFFF then 0
  else BitVec.ofInt 32 (a.toInt - a.toInt.tdiv b.toInt * b.toInt)

/-- Unsigned remainder; 0 for a zero divisor (R173). -/
def remUnsigned (a b : Word) : Word := if b = 0 then 0 else BitVec.ofNat 32 (a.toNat % b.toNat)

/-- ADD (R161). -/
def execAdd (rd rs rt : Reg) (s : State) : Result := binaryOp (· + ·) rd rs rt s

/-- ADDU (R162). -/
def execAddu (rd rs rt : Reg) (s : State) : Result := binaryOp (· + ·) rd rs rt s

/-- ADDI (R163). -/
def execAddi (rt rs : Reg) (imm : Word) (s : State) : Result := immediateOp (· + ·) rt rs imm s

/-- ADDIU (R164). -/
def execAddiu (rt rs : Reg) (imm : Word) (s : State) : Result := immediateOp (· + ·) rt rs imm s

/-- SUB (R165). -/
def execSub (rd rs rt : Reg) (s : State) : Result := binaryOp (· - ·) rd rs rt s

/-- SUBU (R166). -/
def execSubu (rd rs rt : Reg) (s : State) : Result := binaryOp (· - ·) rd rs rt s

/-- MUL (R167). -/
def execMul (rd rs rt : Reg) (s : State) : Result := binaryOp mulLow rd rs rt s

/-- MULH (R168). -/
def execMulh (rd rs rt : Reg) (s : State) : Result := binaryOp mulHighSigned rd rs rt s

/-- MULHU (R169). -/
def execMulhu (rd rs rt : Reg) (s : State) : Result := binaryOp mulHighUnsigned rd rs rt s

/-- DIV (R170). -/
def execDiv (rd rs rt : Reg) (s : State) : Result := binaryOp divSigned rd rs rt s

/-- DIVU (R171). -/
def execDivu (rd rs rt : Reg) (s : State) : Result := binaryOp divUnsigned rd rs rt s

/-- REM (R172). -/
def execRem (rd rs rt : Reg) (s : State) : Result := binaryOp remSigned rd rs rt s

/-- REMU (R173). -/
def execRemu (rd rs rt : Reg) (s : State) : Result := binaryOp remUnsigned rd rs rt s

end Sys2Proof.Machine
end

