-- ==== Sys2Proof/Machine/Branch.lean ====
section
/-! DEFINITION. Branches: R230-R236. No branch writes a register or checks its target. -/

namespace Sys2Proof.Machine

/-- BEQ (R231). -/
def execBeq (rs rt : Reg) (imm : Word) (s : State) : Result := branch (s.readReg rs == s.readReg rt) imm s

/-- BNE (R232). -/
def execBne (rs rt : Reg) (imm : Word) (s : State) : Result := branch (s.readReg rs != s.readReg rt) imm s

/-- BLEZ (R233). -/
def execBlez (rs : Reg) (imm : Word) (s : State) : Result := branch (signedLeZero (s.readReg rs)) imm s

/-- BGTZ (R234). -/
def execBgtz (rs : Reg) (imm : Word) (s : State) : Result := branch (signedGtZero (s.readReg rs)) imm s

/-- BLTZ (R235). -/
def execBltz (rs : Reg) (imm : Word) (s : State) : Result := branch (signedLtZero (s.readReg rs)) imm s

/-- BGEZ (R236); it does not link (C13). -/
def execBgez (rs : Reg) (imm : Word) (s : State) : Result := branch (signedGeZero (s.readReg rs)) imm s

end Sys2Proof.Machine
end

