-- ==== Sys2Proof/Machine/Compare.lean ====
section
/-! DEFINITION. Comparison instructions: R200-R204. The result is 1 or 0 in a register. -/

namespace Sys2Proof.Machine

/-- SLT (R201). -/
def execSlt (rd rs rt : Reg) (s : State) : Result := binaryOp (fun a b => boolWord (signedLess a b)) rd rs rt s

/-- SLTU (R202). -/
def execSltu (rd rs rt : Reg) (s : State) : Result := binaryOp (fun a b => boolWord (unsignedLess a b)) rd rs rt s

/-- SLTI (R203): the immediate is compared as signed. -/
def execSlti (rt rs : Reg) (imm : Word) (s : State) : Result :=
  immediateOp (fun a b => boolWord (signedLess a b)) rt rs imm s

/-- SLTIU (R204): the immediate is compared as unsigned. -/
def execSltiu (rt rs : Reg) (imm : Word) (s : State) : Result :=
  immediateOp (fun a b => boolWord (unsignedLess a b)) rt rs imm s

end Sys2Proof.Machine
end

