-- ==== Sys2Proof/Machine/InterruptControl.lean ====
section
/-! DEFINITION. EI, DI, IRET, RAISE, GETPC: R260-R265. -/

namespace Sys2Proof.Machine

/-- EI (R261). -/
def execEi (s : State) : Result := privileged (fun s => .next { s with intEnabled := true }) s

/-- DI (R262). -/
def execDi (s : State) : Result := privileged (fun s => .next { s with intEnabled := false }) s

/-- IRET (R263): MEM_FAULT with nothing restored when the frame is not inside memory (D12). -/
def execIret (s : State) : Result :=
  privileged (fun s =>
    if s.frameInBounds then .next s.returnFromInterrupt else .next (s.raiseFault intMemFault)) s

/-- RAISE (R264): the low 8 bits of the immediate (D7), any number, either mode (D31). -/
def execRaise (imm : Word) (s : State) : Result := .next (s.raisePending (imm.setWidth 8))

/-- GETPC (R265): the saved pc, not the current one. -/
def execGetpc (rd : Reg) (s : State) : Result := .next (s.setReg rd s.savedPc)

end Sys2Proof.Machine
end

