-- ==== Sys2Proof/Machine/Jump.lean ====
section
/-! DEFINITION. Jumps: R240-R245. The link value is `s.pc`, that is `ia + 8` (R240). -/

namespace Sys2Proof.Machine

/-- J (R241). -/
def execJ (imm : Word) (s : State) : Result := .next (s.setPc imm)

/-- JAL (R242): the link is always R31. -/
def execJal (imm : Word) (s : State) : Result := .next ((s.setReg 31 s.pc).setPc imm)

/-- JR (R243). -/
def execJr (rs : Reg) (s : State) : Result := .next (s.setPc (s.readReg rs))

/-- JALR (R244): the link is written first, so with rd = rs the target is the link value, for R0 too (R21, D16); under
JALR_SAME_REG = refuse that form is refused. -/
def execJalr (rd rs : Reg) (s : State) : Result :=
  if rd = rs then
    match s.cfg.jalrSameReg with
    | .linkFirst => .next ((s.setReg rd s.pc).setPc s.pc)
    | .refuse => .refused .jalrSameRegister
  else .next ((s.setReg rd s.pc).setPc (s.readReg rs))

end Sys2Proof.Machine
end

