-- ==== Sys2Proof/Machine/LoadStore.lean ====
section
/-! DEFINITION. Loads and stores: R210-R220. -/

namespace Sys2Proof.Machine

/-- Copy bit 15 to bits 31:16 (R212). -/
def signExtendHalf (v : Word) : Word := (v.setWidth 16).signExtend 32

/-- Copy bit 7 to bits 31:8 (R214). -/
def signExtendByte (v : Word) : Word := (v.setWidth 8).signExtend 32

/-- LW (R211). -/
def execLw (rt rs : Reg) (imm : Word) (s : State) : Result := load .word id rt rs imm s

/-- LH (R212). -/
def execLh (rt rs : Reg) (imm : Word) (s : State) : Result := load .half signExtendHalf rt rs imm s

/-- LHU (R213): the access gives a zero-extended value. -/
def execLhu (rt rs : Reg) (imm : Word) (s : State) : Result := load .half id rt rs imm s

/-- LB (R214). -/
def execLb (rt rs : Reg) (imm : Word) (s : State) : Result := load .byte signExtendByte rt rs imm s

/-- LBU (R215): the access gives a zero-extended value. -/
def execLbu (rt rs : Reg) (imm : Word) (s : State) : Result := load .byte id rt rs imm s

/-- SW (R216). -/
def execSw (rt rs : Reg) (imm : Word) (s : State) : Result := store .word rt rs imm s

/-- SH (R217): the upper 16 bits of rt are ignored. -/
def execSh (rt rs : Reg) (imm : Word) (s : State) : Result := store .half rt rs imm s

/-- SB (R218): the upper 24 bits of rt are ignored. -/
def execSb (rt rs : Reg) (imm : Word) (s : State) : Result := store .byte rt rs imm s

end Sys2Proof.Machine
end

