-- ==== Sys2Proof/Machine/Logical.lean ====
section
/-! DEFINITION. Logical instructions: R180-R188. No flags, no exceptions; an immediate takes part with all 32 bits. -/

namespace Sys2Proof.Machine

/-- Complement of the disjunction (R184). -/
def norWord (a b : Word) : Word := ~~~(a ||| b)

/-- AND (R181). -/
def execAnd (rd rs rt : Reg) (s : State) : Result := binaryOp (· &&& ·) rd rs rt s

/-- OR (R182). -/
def execOr (rd rs rt : Reg) (s : State) : Result := binaryOp (· ||| ·) rd rs rt s

/-- XOR (R183). -/
def execXor (rd rs rt : Reg) (s : State) : Result := binaryOp (· ^^^ ·) rd rs rt s

/-- NOR (R184). -/
def execNor (rd rs rt : Reg) (s : State) : Result := binaryOp norWord rd rs rt s

/-- ANDI (R185). -/
def execAndi (rt rs : Reg) (imm : Word) (s : State) : Result := immediateOp (· &&& ·) rt rs imm s

/-- ORI (R186). -/
def execOri (rt rs : Reg) (imm : Word) (s : State) : Result := immediateOp (· ||| ·) rt rs imm s

/-- XORI (R187). -/
def execXori (rt rs : Reg) (imm : Word) (s : State) : Result := immediateOp (· ^^^ ·) rt rs imm s

/-- LUI (R188): `imm << 16` modulo 2^32; no register is read. -/
def execLui (rt : Reg) (imm : Word) (s : State) : Result := .next (s.setReg rt (imm <<< 16))

end Sys2Proof.Machine
end

