-- ==== Sys2Proof/Machine/Privilege.lean ====
section
/-! DEFINITION. ENABLE_PAGING, DISABLE_PAGING, SET_PTBR, ENTER_USER, GETMODE: R270-R275. -/

namespace Sys2Proof.Machine

/-- ENABLE_PAGING (R271). -/
def execEnablePaging (s : State) : Result := privileged (fun s => .next { s with pagingEnabled := true }) s

/-- DISABLE_PAGING (R272). -/
def execDisablePaging (s : State) : Result := privileged (fun s => .next { s with pagingEnabled := false }) s

/-- SET_PTBR (R273): rd is a source here; nothing is checked. -/
def execSetPtbr (rd rt : Reg) (s : State) : Result :=
  privileged (fun s => .next { s with pageTableBase := s.readReg rd, numPages := s.readReg rt }) s

/-- ENTER_USER (R274): only the mode bit. -/
def execEnterUser (s : State) : Result := privileged (fun s => .next { s with kernelMode := false }) s

/-- GETMODE (R275): 1 in kernel mode, 0 in user mode. -/
def execGetmode (rd : Reg) (s : State) : Result := .next (s.setReg rd (boolWord s.kernelMode))

end Sys2Proof.Machine
end

