-- ==== Sys2Proof/Machine/Shift.lean ====
section
/-! DEFINITION. Shift instructions: R190-R196. The value is always rt, the amount 5 bits (R190). -/

namespace Sys2Proof.Machine

/-- Left shift, zeros entering at the right (R191). -/
def shiftLeft (v : Word) (n : Nat) : Word := v <<< n

/-- Logical right shift, zeros entering at the left (R192). -/
def shiftRightLogical (v : Word) (n : Nat) : Word := v >>> n

/-- Arithmetic right shift, copies of bit 31 entering at the left (R193). -/
def shiftRightArith (v : Word) (n : Nat) : Word := v.sshiftRight n

/-- SLL (R191). -/
def execSll (rd rt : Reg) (imm : Word) (s : State) : Result := shiftImmediate shiftLeft rd rt imm s

/-- SRL (R192). -/
def execSrl (rd rt : Reg) (imm : Word) (s : State) : Result := shiftImmediate shiftRightLogical rd rt imm s

/-- SRA (R193). -/
def execSra (rd rt : Reg) (imm : Word) (s : State) : Result := shiftImmediate shiftRightArith rd rt imm s

/-- SLLV (R194). -/
def execSllv (rd rt rs : Reg) (s : State) : Result := shiftVariable shiftLeft rd rt rs s

/-- SRLV (R195). -/
def execSrlv (rd rt rs : Reg) (s : State) : Result := shiftVariable shiftRightLogical rd rt rs s

/-- SRAV (R196). -/
def execSrav (rd rt rs : Reg) (s : State) : Result := shiftVariable shiftRightArith rd rt rs s

end Sys2Proof.Machine
end

