-- ==== Sys2Proof/Machine/System.lean ====
section
/-! DEFINITION. NOP, SYSCALL and BREAK: R250-R253. None is privileged. -/

namespace Sys2Proof.Machine

/-- Set an interrupt's bit and clear `running` (R252, R253); the step's status is 0 (R250, D29). -/
def halt (n : IntNum) (r : StopReason) (s : State) : Result :=
  .next { s.raisePending n with running := false, stopReason := some r }

/-- NOP (R251): the pc's advance is all. -/
def execNop (s : State) : Result := .next s

/-- SYSCALL (R252). -/
def execSyscall (s : State) : Result := halt intSyscall .haltSyscall s

/-- BREAK (R253). -/
def execBrk (s : State) : Result := halt intBreak .haltBreak s

end Sys2Proof.Machine
end

