-- ==== Sys2Proof/Machine/Cycle.lean ====
section
/-! DEFINITION. The execution cycle of R40, one call of `c32_vm_step`. -/

namespace Sys2Proof.Machine

/-- The outcome of executing an instruction, with step 8 of R40 done where the step reaches it (R43). -/
def endStepOf (r : Result) : Result :=
  match r with
  | .next s => .next s.endStep
  | .fault f => .fault f
  | .refused f => .refused f

/-- Steps 5 to 8 of R40 for the instruction bytes fetched: decode, advance the pc, execute (R26, R136); an unassigned
opcode raises ILLEGAL_OP (R137), a used register field above 31 is refused (R126). -/
def execBytes (bytes : List Byte) (s : State) : Result :=
  match decode bytes with
  | .ok i => endStepOf (exec i (s.setPc (s.pc + 8#32)))
  | .error .illegalOpcode => .next ((s.setPc (s.pc + 8#32)).raiseFault intIllegalOp).endStep
  | .error .registerField => .refused .registerField
  | .error .truncated => .refused .truncatedFetch

/-- Steps 2 to 8 of R40. -/
def fetchAndExecute (s : State) : Result :=
  match s.fetchAddr with
  | .error r => .next (s.stopFetch r)
  | .ok ppc => execBytes (s.fetchBytes ppc) s

/-- One step, `c32_vm_step` (R40): the interrupt check, then the fetch and the instruction at the pc the dispatch left. It
does not look at `running` (log 5) and never sets it; the host's resume by `c32_vm_step`, which sets `running` first (R341), is
`resumeStep`. That a call on a machine no run has stopped leaves `running` as it is, is a DESIGN CHOICE (log 44). -/
def vmStep (s : State) : Result :=
  match ({ s with stopReason := none } : State).interruptCheck with
  | none => .next { s with stopReason := some .dispatchFailed }
  | some s1 => fetchAndExecute s1

/-- Where the next step fetches its instruction, if it does (R40 steps 1 to 4). -/
def State.nextFetch (s : State) : Option Nat :=
  match s.interruptCheck with
  | none => none
  | some s1 => s1.fetchAddr.toOption

/-- The state with instruction bytes stored where the next step fetches; unchanged where it would fetch none. -/
def State.placeInstr (s : State) (bytes : List Byte) : State :=
  match s.nextFetch with
  | none => s
  | some a => { s with mem := s.mem.writeBytes a bytes }

end Sys2Proof.Machine
end

