-- ==== Sys2Proof/Machine/Step.lean ====
section
/-! DEFINITION. The machine's step, and placing an instruction for it. -/

namespace Sys2Proof.Machine

/-- One step of the machine: `c32_vm_step` (R40). -/
def step (s : State) : Host.Outcome State Fault Refusal := vmStep s

/-- The state with the instruction `w` of spec/opcode_table.json stored where `step` fetches next. It stands for the
host's load of a program into memory (R45, R365; log 6). -/
def State.withFetchWord (s : State) (nbits w : Nat) : State := s.placeInstr (tableBytes nbits w)

end Sys2Proof.Machine
end

