-- ==== Sys2Proof/Machine/HostCalls.lean ====
section
/-! DEFINITION. The host's calls (R340, R341, R41, R45, R107): what the environment may do between two steps (R101, R305).
The machine's own step makes none of them. -/

namespace Sys2Proof.Machine

/-- `c32_raise_interrupt(vm, n)`: exactly `pending[n] <- 1` (R305, R340). -/
def hostRaiseInterrupt (n : IntNum) (s : State) : State := s.raisePending n

/-- `c32_read_word` at an address of the memory array: no translation (R107). None outside the array, where the host would
read memory that is not the guest's (log 40). -/
def hostReadWord (pa : Nat) (s : State) : Option Word := s.physRead pa 4

/-- `c32_write_word` at an address of the memory array: no translation (R107); none outside the array (log 40). -/
def hostWriteWord (pa : Nat) (v : Word) (s : State) : Option State := s.physWrite pa 4 v

/-- The host loads bytes into the memory array (R45, R340); none outside the array (log 40). -/
def hostLoadBytes (pa : Nat) (bytes : List Byte) (s : State) : Option State :=
  if s.inBounds pa bytes.length then some { s with mem := s.mem.writeBytes pa bytes } else none

/-- `c32_set_interrupt_handler(vm, n, addr)`: the little-endian word at 8n (R80, R340). -/
def hostSetHandler (n : IntNum) (addr : Word) (s : State) : Option State := hostWriteWord (8 * n.toNat) addr s

/-- `c32_vm_init` on the buffer the machine already has: memory and its length stay (R44, R360). -/
def hostReset (s : State) : State := State.init s.cfg s.mem s.memorySize

/-- The host's calls and direct writes that act on guest-visible state between steps (R45, R340, R336): the host may write any
field (R45); a write of R0 is discarded (R21). That R336's "all state" covers the hidden bit `savedMode`, which the source's
VM structure does not have (R332), is a DESIGN CHOICE (log 45). -/
inductive HostCall where
  | reset
  | setPc (v : Word)
  | setReg (r : Reg) (v : Word)
  | setKernelMode (b : Bool)
  | setPagingEnabled (b : Bool)
  | setPageTableBase (v : Word)
  | setNumPages (v : Word)
  | setIntEnabled (b : Bool)
  | setPending (v : BitVec 256)
  | setSavedPc (v : Word)
  | setSavedRegsAddr (v : Word)
  | setSavedMode (b : Bool)
  | setRunning (b : Bool)
  | raiseInterrupt (n : IntNum)
  | setHandler (n : IntNum) (addr : Word)
  | writeWord (pa : Nat) (v : Word)
  | loadBytes (pa : Nat) (bytes : List Byte)
  deriving DecidableEq, Repr

/-- The effect of a host call; none for a write outside the memory array (log 40). -/
def hostCall (c : HostCall) (s : State) : Option State :=
  match c with
  | .reset => some (hostReset s)
  | .setPc v => some (s.setPc v)
  | .setReg r v => some (s.setReg r v)
  | .setKernelMode b => some { s with kernelMode := b }
  | .setPagingEnabled b => some { s with pagingEnabled := b }
  | .setPageTableBase v => some { s with pageTableBase := v }
  | .setNumPages v => some { s with numPages := v }
  | .setIntEnabled b => some { s with intEnabled := b }
  | .setPending v => some { s with pending := v }
  | .setSavedPc v => some { s with savedPc := v }
  | .setSavedRegsAddr v => some { s with savedRegsAddr := v }
  | .setSavedMode b => some { s with savedMode := b }
  | .setRunning b => some { s with running := b }
  | .raiseInterrupt n => some (hostRaiseInterrupt n s)
  | .setHandler n addr => hostSetHandler n addr s
  | .writeWord pa v => hostWriteWord pa v s
  | .loadBytes pa bytes => hostLoadBytes pa bytes s

/-- The environment sets any set of pending bits between two steps (R305, D24). -/
def hostRaiseSet (bits : BitVec 256) (s : State) : State := { s with pending := s.pending ||| bits }

/-- The host calls `c32_vm_step` to resume a stopped machine: `running` becomes 1 and stepping continues (R341). -/
def resumeStep (s : State) : Result := step { s with running := true }

/-- How a run, cut off after some steps, came out. -/
inductive RunResult where
  /-- The run loop left; the state holds the stop reason (R41, R42). -/
  | stopped (s : State)
  /-- The loop had not left after the steps given. -/
  | unfinished (s : State)
  /-- A step was outside the model's domain. -/
  | refused (r : Refusal)
  deriving DecidableEq, Repr

/-- The run loop of R41, `while running = 1: if step() != 0 then leave`, cut off after as many steps as `arrivals` is long
(log 41). Entry k of `arrivals` is the set of pending bits the environment sets before step k (R305, D24); that the
environment does nothing else inside a run is a DESIGN CHOICE (log 46). -/
def runLoop : List (BitVec 256) → State → RunResult
  | [], s => .unfinished s
  | bits :: arrivals, s =>
    match step (hostRaiseSet bits s) with
    | .next t => if t.running && t.statusOk then runLoop arrivals t else .stopped t
    | .fault f => nomatch f
    | .refused r => .refused r

/-- `c32_vm_run` (R41) with the interrupts that arrive during it: `running <- 1`, then the loop. Called again on a stopped
machine it is the resume of R341. -/
def vmRun (arrivals : List (BitVec 256)) (s : State) : RunResult := runLoop arrivals { s with running := true }

/-- `c32_vm_run` of a closed model, at most `fuel` steps: the premise "no external interrupts" of R305 and D24 is that the
environment sets no bit. -/
def vmRunClosed (fuel : Nat) (s : State) : RunResult := vmRun (List.replicate fuel 0) s

end Sys2Proof.Machine
end

