-- ==== Sys2Proof/Safety.lean ====
section
/-! DEFINITION. The terms in which statements speak of a state and of a step: the invariant, what stays the same, and the
modes. -/

namespace Sys2Proof.Machine

/-- The invariant of the machine: memory in canonical form, no byte listed at an address that does not exist (R62), and
R0's slot 0 (R21). -/
def State.WF (s : State) : Prop :=
  s.mem.wf ∧ (∀ c ∈ s.mem, c.1 < s.memorySize.toNat) ∧ s.regs[0] = 0

/-- Every general register but those listed reads as before. -/
def sameRegsExcept (s t : State) (rs : List Reg) : Prop := ∀ r : Reg, r ∉ rs → t.readReg r = s.readReg r

/-- Every byte of memory reads as before. -/
def sameMem (s t : State) : Prop := ∀ a : Nat, t.mem.read a = s.mem.read a

/-- Every byte of memory outside the `n` bytes from `pa` on reads as before. -/
def sameMemExcept (s t : State) (pa n : Nat) : Prop :=
  ∀ a : Nat, a < pa ∨ pa + n ≤ a → t.mem.read a = s.mem.read a

/-- What no instruction and no step ever changes: the size of memory and the parameters. -/
def sameMachine (s t : State) : Prop := t.memorySize = s.memorySize ∧ t.cfg = s.cfg

/-- The paging control fields are as before (R30-R32). -/
def samePaging (s t : State) : Prop :=
  t.pagingEnabled = s.pagingEnabled ∧ t.pageTableBase = s.pageTableBase ∧ t.numPages = s.numPages

/-- The registers an interrupt saves into are as before (R35, R36, R332). -/
def sameSaved (s t : State) : Prop :=
  t.savedPc = s.savedPc ∧ t.savedRegsAddr = s.savedRegsAddr ∧ t.savedMode = s.savedMode

/-- Everything but the general registers, the pc and memory is as before: mode, paging, interrupt state, saved
registers, `running`, the step outcome, the machine. -/
def sameControl (s t : State) : Prop :=
  t.running = s.running ∧ t.kernelMode = s.kernelMode ∧ samePaging s t ∧ t.intEnabled = s.intEnabled ∧
    t.pending = s.pending ∧ sameSaved s t ∧ t.stopReason = s.stopReason ∧ sameMachine s t

/-- What writing `v` to `r` leaves `r` reading as: R0 discards it (R21). -/
def written (r : Reg) (v : Word) : Word := if r = 0 then 0 else v

/-- An access of width `sz` at `ea` is one the parameters admit: bytewise, or aligned (R67). -/
def alignmentAdmits (s : State) (ea : Word) (sz : Size) : Prop :=
  s.cfg.misalignedData = .bytewise ∨ ea.toNat % sz.bytes = 0

/-- In `s`, `i` is a load or store that accesses data of width `sz` at `ea`, reading or writing as `kind` says (R64,
R211-R218). -/
def accesses (s : State) (i : Instr) (ea : Word) (sz : Size) (kind : AccessKind) : Prop :=
  ∃ rt rs imm, ea = s.readReg rs + imm ∧ (i, sz, kind) ∈
    [(Instr.lw rt rs imm, Size.word, AccessKind.read), (.lh rt rs imm, .half, .read), (.lhu rt rs imm, .half, .read),
      (.lb rt rs imm, .byte, .read), (.lbu rt rs imm, .byte, .read), (.sw rt rs imm, .word, .write),
      (.sh rt rs imm, .half, .write), (.sb rt rs imm, .byte, .write)]

/-- Translated mode: user mode with paging on (R90, R95). -/
def State.translated (s : State) : Prop := s.kernelMode = false ∧ s.pagingEnabled = true

/-- The pending bits after interrupt `n` is raised: its own bit set, every other bit as before (R10, R34). -/
def raisedBit (s t : State) (n : Nat) : Prop :=
  ∀ k : Nat, t.pending.getLsbD k = (s.pending.getLsbD k || decide (k = n))

/-- Executing `i` in `s` answers a next state in which `rd` holds `v` (R0 discards it) and nothing else has changed: no
other register, no byte of memory, no control field, the pc not moved from where the step advanced it. -/
def writesOnly (i : Instr) (s : State) (rd : Reg) (v : Word) : Prop :=
  ∃ t, exec i s = .next t ∧ t.readReg rd = written rd v ∧ sameRegsExcept s t [rd] ∧ t.pc = s.pc ∧ sameMem s t ∧
    sameControl s t

/-- Executing `i` in `s` answers a next state in which the pc is `v` and nothing else has changed. -/
def jumpsOnly (i : Instr) (s : State) (v : Word) : Prop :=
  ∃ t, exec i s = .next t ∧ t.pc = v ∧ sameRegsExcept s t [] ∧ sameMem s t ∧ sameControl s t

/-- `t` is `s` after the execute-phase exception `n` (R310): its pending bit and nothing else, the pc and the step's
status as the parameters say. `s.pc` is `ia + 8` (R26). -/
def onlyRaises (s t : State) (n : Nat) : Prop :=
  raisedBit s t n ∧ sameRegsExcept s t [] ∧ sameMem s t ∧ t.running = s.running ∧ t.kernelMode = s.kernelMode ∧
    samePaging s t ∧ t.intEnabled = s.intEnabled ∧ sameSaved s t ∧ sameMachine s t ∧
    (s.cfg.execFaultSavedPc = .next → t.pc = s.pc) ∧
    (s.cfg.execFaultSavedPc = .faulting → t.pc = s.pc - 8#32) ∧
    (s.cfg.execFaultStatus = .continue_ → t.stopReason = s.stopReason) ∧
    (s.cfg.execFaultStatus = .stop → t.stopReason = some .execFault)

/-- A step that the fetch or the dispatch stopped changed none of these: the registers, the pc, memory, the mode, paging,
the interrupt enable, the saved registers, the machine (R40, R322). -/
def sameWhenStopped (s t : State) : Prop :=
  t.regs = s.regs ∧ t.pc = s.pc ∧ t.mem = s.mem ∧ t.kernelMode = s.kernelMode ∧ samePaging s t ∧
    t.intEnabled = s.intEnabled ∧ sameSaved s t ∧ sameMachine s t

/-- The bytes of memory at `a` on, as a little-endian word written out byte by byte (R60). -/
def wordAt (s : State) (a : Nat) : Word :=
  s.mem.read (a + 3) ++ s.mem.read (a + 2) ++ s.mem.read (a + 1) ++ s.mem.read a

/-- The step at `s` starts with the state `s1` the interrupt check leaves, and fetches the bytes `bytes` (R40 steps 1 to
5): the pc is a multiple of 8, it translates to `ppc`, and the eight bytes are inside memory. -/
def fetches (s s1 : State) (bytes : List Byte) : Prop :=
  ({ s with stopReason := none } : State).interruptCheck = some s1 ∧ s1.pc.toNat % 8 = 0 ∧
    ∃ ppc, s1.translate s1.pc .exec = some ppc ∧ ppc.toNat + 8 ≤ s1.memorySize.toNat ∧
      bytes = (List.range 8).map (fun k => s1.mem.read (ppc.toNat + k))

/-- The step at `s` executes the instruction `i` in the state `u`, the pc already advanced (R40 steps 1 to 6). -/
def executes (s : State) (i : Instr) (u : State) : Prop :=
  ∃ s1 bytes, fetches s s1 bytes ∧ decode bytes = .ok i ∧ u = s1.setPc (s1.pc + 8#32)

/-- The step at `s` dispatches interrupt `n` (R315, R322). -/
def dispatches (s : State) (n : IntNum) : Prop := s.selectInterrupt = some n ∧ s.canDispatch n = true

/-! How an opcode and its form are encoded (R124): the eight bytes decode to the instruction whatever the unused fields
hold (R125). -/

/-- Form R3. -/
def encodedR3 (op : Byte) (i : Reg → Reg → Reg → Instr) : Prop :=
  ∀ (rd rs rt : Reg) (imm : Word), decode (Fields.bytes ⟨op, regByte rs, regByte rt, regByte rd, imm⟩) = .ok (i rd rs rt)

/-- Forms I and M. -/
def encodedI (op : Byte) (i : Reg → Reg → Word → Instr) : Prop :=
  ∀ (rt rs : Reg) (rd : Byte) (imm : Word),
    decode (Fields.bytes ⟨op, regByte rs, regByte rt, rd, imm⟩) = .ok (i rt rs imm)

/-- Form LUI. -/
def encodedLui (op : Byte) (i : Reg → Word → Instr) : Prop :=
  ∀ (rt : Reg) (rs rd : Byte) (imm : Word), decode (Fields.bytes ⟨op, rs, regByte rt, rd, imm⟩) = .ok (i rt imm)

/-- Form SHI. -/
def encodedShi (op : Byte) (i : Reg → Reg → Word → Instr) : Prop :=
  ∀ (rd rt : Reg) (rs : Byte) (imm : Word),
    decode (Fields.bytes ⟨op, rs, regByte rt, regByte rd, imm⟩) = .ok (i rd rt imm)

/-- Form SHV. -/
def encodedShv (op : Byte) (i : Reg → Reg → Reg → Instr) : Prop :=
  ∀ (rd rt rs : Reg) (imm : Word), decode (Fields.bytes ⟨op, regByte rs, regByte rt, regByte rd, imm⟩) = .ok (i rd rt rs)

/-- Form B2. -/
def encodedB2 (op : Byte) (i : Reg → Reg → Word → Instr) : Prop :=
  ∀ (rs rt : Reg) (rd : Byte) (imm : Word),
    decode (Fields.bytes ⟨op, regByte rs, regByte rt, rd, imm⟩) = .ok (i rs rt imm)

/-- Form B1. -/
def encodedB1 (op : Byte) (i : Reg → Word → Instr) : Prop :=
  ∀ (rs : Reg) (rt rd : Byte) (imm : Word), decode (Fields.bytes ⟨op, regByte rs, rt, rd, imm⟩) = .ok (i rs imm)

/-- Forms J and RAISE. -/
def encodedJ (op : Byte) (i : Word → Instr) : Prop :=
  ∀ (rs rt rd : Byte) (imm : Word), decode (Fields.bytes ⟨op, rs, rt, rd, imm⟩) = .ok (i imm)

/-- Form JR. -/
def encodedJr (op : Byte) (i : Reg → Instr) : Prop :=
  ∀ (rs : Reg) (rt rd : Byte) (imm : Word), decode (Fields.bytes ⟨op, regByte rs, rt, rd, imm⟩) = .ok (i rs)

/-- Form JALR. -/
def encodedJalr (op : Byte) (i : Reg → Reg → Instr) : Prop :=
  ∀ (rd rs : Reg) (rt : Byte) (imm : Word),
    decode (Fields.bytes ⟨op, regByte rs, rt, regByte rd, imm⟩) = .ok (i rd rs)

/-- Form N. -/
def encodedN (op : Byte) (i : Instr) : Prop :=
  ∀ (rs rt rd : Byte) (imm : Word), decode (Fields.bytes ⟨op, rs, rt, rd, imm⟩) = .ok i

/-- Form RD. -/
def encodedRd (op : Byte) (i : Reg → Instr) : Prop :=
  ∀ (rd : Reg) (rs rt : Byte) (imm : Word), decode (Fields.bytes ⟨op, rs, rt, regByte rd, imm⟩) = .ok (i rd)

/-- Form PTBR. -/
def encodedPtbr (op : Byte) (i : Reg → Reg → Instr) : Prop :=
  ∀ (rd rt : Reg) (rs : Byte) (imm : Word),
    decode (Fields.bytes ⟨op, rs, regByte rt, regByte rd, imm⟩) = .ok (i rd rt)

/-- The forms whose immediate is an operand (R124). -/
def usesImm : Form → Bool
  | .i | .lui | .shi | .m | .b2 | .b1 | .j | .raise => true
  | .r3 | .shv | .jr | .jalr | .n | .rd | .ptbr => false

/-- `f` and `g` have the same opcode and agree in every part the form uses (R124): of the immediate a SHI shift uses bits
4:0 only. -/
def agreeWhereUsed (f g : Fields) (form : Form) : Prop :=
  f.opcode = g.opcode ∧ (form.usesRs = true → f.rs = g.rs) ∧ (form.usesRt = true → f.rt = g.rt) ∧
    (form.usesRd = true → f.rd = g.rd) ∧
    (usesImm form = true → form ≠ .shi → f.imm = g.imm) ∧
    (form = .shi → f.imm.setWidth 5 = g.imm.setWidth 5)

end Sys2Proof.Machine
end

