-- ==== Sys2Proof/Certificates/Slice0/Obligations.lean ====
section
/-! DEFINITION. The statements for the provers. In a statement about `exec`, `s` is the state an instruction executes in:
`s.pc` is `ia + 8`, the address after the instruction (R26). D<n> are decisions of spec/92_eei_decisions.md; log <n> are
entries of the assumption log. -/

open Sys2Proof Sys2Proof.Machine

/-! ### Encoding -/

/-- Decoding the encoding of an instruction gives it back, every operand at every value (R121, R122, R124, R135). -/
def Obligations.DecodeEncodeRoundTrip : Prop := ∀ i : Instr, decode (encode i) = .ok i

/-- The decoder takes every operand from the field R124 names: the fields of the decoded instruction agree with the fields
it was decoded from wherever its form uses them (R121, R124, R127, R135, R136). -/
def Obligations.DecodeReadsItsFields : Prop :=
  ∀ (f : Fields) (i : Instr), decode f.bytes = .ok i →
    ∃ form, formOf f.opcode = some form ∧ agreeWhereUsed i.fields f form ∧
      (usesImm form = true → i.fields.imm = f.imm)

/-- An unused field never matters: two instructions that agree wherever their form uses a field behave alike in every state,
whatever the unused register fields, the unused immediate and, in an immediate shift, bits 31:5 of it hold (R125). -/
def Obligations.UnusedFieldsIgnored : Prop :=
  ∀ (f g : Fields) (form : Form) (s : State), formOf f.opcode = some form → agreeWhereUsed f g form →
    execBytes f.bytes s = execBytes g.bytes s

/-- Every eight bytes are exactly one instruction, or an unassigned opcode, or use a register field above 31; the first
exactly when the fields are well-formed (R126 by D8, R135, R136, R137). -/
def Obligations.DecodeTotalOnFields : Prop :=
  ∀ f : Fields,
    ((∃ i, decode f.bytes = .ok i) ↔ f.wellFormed = true) ∧
    (decode f.bytes = .error .illegalOpcode ↔ formOf f.opcode = none) ∧
    (decode f.bytes = .error .registerField ↔ (∃ form, formOf f.opcode = some form) ∧ f.wellFormed = false)

/-- The manual's worked encodings decode to the instructions they stand for (R128). -/
def Obligations.DecodesWorkedEncodings : Prop :=
  decode [0x01, 0x0A, 0x0C, 0x05, 0x00, 0x00, 0x00, 0x00] = .ok (.add 5 10 12) ∧
  decode [0x05, 0x11, 0x03, 0x00, 0x2A, 0x00, 0x00, 0x00] = .ok (.addi 3 17 42) ∧
  decode [0x50, 0x02, 0x08, 0x00, 0x64, 0x00, 0x00, 0x00] = .ok (.lw 8 2 100) ∧
  decode [0x60, 0x05, 0x06, 0x00, 0x00, 0x01, 0x00, 0x00] = .ok (.beq 5 6 0x100) ∧
  decode [0x71, 0x00, 0x00, 0x00, 0x00, 0x10, 0x00, 0x00] = .ok (.jal 0x1000) ∧
  decode [0x00, 0x00, 0x00, 0x00, 0x00, 0x00, 0x00, 0x00] = .ok .nop

/-- The instruction written as the 64-bit value W of R121, opcode in bits 63:56, reads back as the instruction (R121, R122;
how W is numbered for the table's words is log 37). -/
def Obligations.TableWordRoundTrip : Prop :=
  ∀ i : Instr, decodeTableWord 64 i.fields.word.toNat = some i

/-! ### Arithmetic -/

/-- ADD, ADDU, ADDI, ADDIU, SUB, SUBU: opcode and form, the sum or difference modulo 2^32 in the destination (a destination
of R0 discards it), and nothing else changed (R161-R166). -/
def Obligations.AddSubResults : Prop :=
  (encodedR3 0x01 .add ∧ encodedR3 0x02 .addu ∧ encodedR3 0x03 .sub ∧ encodedR3 0x04 .subu ∧ encodedI 0x05 .addi ∧
    encodedI 0x06 .addiu) ∧
  ∀ (rd rs rt : Reg) (imm : Word) (s : State),
    let a := s.readReg rs
    let b := s.readReg rt
    writesOnly (.add rd rs rt) s rd (BitVec.ofNat 32 (a.toNat + b.toNat)) ∧
    writesOnly (.addu rd rs rt) s rd (BitVec.ofNat 32 (a.toNat + b.toNat)) ∧
    writesOnly (.addi rt rs imm) s rt (BitVec.ofNat 32 (a.toNat + imm.toNat)) ∧
    writesOnly (.addiu rt rs imm) s rt (BitVec.ofNat 32 (a.toNat + imm.toNat)) ∧
    writesOnly (.sub rd rs rt) s rd (BitVec.ofInt 32 ((a.toNat : Int) - b.toNat)) ∧
    writesOnly (.subu rd rs rt) s rd (BitVec.ofInt 32 ((a.toNat : Int) - b.toNat))

/-- MUL, MULH, MULHU: opcode and form, bits 31:0 of the product, and the high word as floor(p / 2^32) of the signed and of
the unsigned product; nothing else changed (R167-R169). MUL's low word is that of the signed product too (R167). -/
def Obligations.MultiplyResults : Prop :=
  (encodedR3 0x40 .mul ∧ encodedR3 0x41 .mulh ∧ encodedR3 0x42 .mulhu) ∧
  ∀ (rd rs rt : Reg) (s : State),
    let a := s.readReg rs
    let b := s.readReg rt
    writesOnly (.mul rd rs rt) s rd ((BitVec.ofNat 64 (a.toNat * b.toNat)).extractLsb' 0 32) ∧
    writesOnly (.mul rd rs rt) s rd (BitVec.ofInt 32 (a.toInt * b.toInt)) ∧
    writesOnly (.mulh rd rs rt) s rd (BitVec.ofInt 32 (a.toInt * b.toInt / 2 ^ 32)) ∧
    writesOnly (.mulhu rd rs rt) s rd (BitVec.ofNat 32 (a.toNat * b.toNat / 2 ^ 32))

/-- DIV and REM: 0 for a zero divisor; for -2^31 by -1 the quotient -2^31 (R170) and the remainder 0 (R172, D15);
otherwise the quotient truncated toward zero (D32) and the remainder that goes with it, exactly; nothing else changed. -/
def Obligations.SignedDivisionResults : Prop :=
  (encodedR3 0x43 .div ∧ encodedR3 0x45 .rem) ∧
  ∀ (rd rs rt : Reg) (s : State),
    let a := s.readReg rs
    let b := s.readReg rt
    ∃ q r : Word, writesOnly (.div rd rs rt) s rd q ∧ writesOnly (.rem rd rs rt) s rd r ∧
      (b = 0 → q = 0 ∧ r = 0) ∧
      (a = 0x80000000 → b = 0xFFFFFFFF → q = 0x80000000 ∧ r = 0) ∧
      (b ≠ 0 → ¬(a = 0x80000000 ∧ b = 0xFFFFFFFF) →
        q.toInt = a.toInt.tdiv b.toInt ∧ r.toInt = a.toInt - a.toInt.tdiv b.toInt * b.toInt)

/-- For every divisor but zero the signed quotient and remainder give the dividend back modulo 2^32, and the remainder is
smaller than the divisor and has the dividend's sign or is 0 (R172; D32, and D15 for the pair -2^31, -1). -/
def Obligations.DivisionIdentity : Prop :=
  ∀ (rs rt : Reg) (s : State), s.readReg rt ≠ 0 →
    ∃ (t u : State) (q r : Word), exec (.div 1 rs rt) s = .next t ∧ exec (.rem 1 rs rt) s = .next u ∧
      q = t.readReg 1 ∧ r = u.readReg 1 ∧
      s.readReg rs = q * s.readReg rt + r ∧
      r.toInt.natAbs < (s.readReg rt).toInt.natAbs ∧
      (r = 0 ∨ (r.toInt < 0 ↔ (s.readReg rs).toInt < 0))

/-- DIVU and REMU: opcode and form, 0 for a zero divisor, otherwise the unsigned quotient and remainder; nothing else changed
(R171, R173). -/
def Obligations.UnsignedDivisionResults : Prop :=
  (encodedR3 0x44 .divu ∧ encodedR3 0x46 .remu) ∧
  ∀ (rd rs rt : Reg) (s : State),
    let a := s.readReg rs
    let b := s.readReg rt
    ∃ q r : Word, writesOnly (.divu rd rs rt) s rd q ∧ writesOnly (.remu rd rs rt) s rd r ∧
      (b = 0 → q = 0 ∧ r = 0) ∧
      (b ≠ 0 → q.toNat = a.toNat / b.toNat ∧ r.toNat = a.toNat % b.toNat)

/-! ### Logic, shifts, comparisons -/

/-- AND, OR, XOR, NOR and their immediate forms: opcode and form, the operation bit by bit on all 32 bits of both operands,
nothing else changed (R181-R187). -/
def Obligations.LogicalResults : Prop :=
  (encodedR3 0x10 .and ∧ encodedR3 0x11 .or ∧ encodedR3 0x12 .xor ∧ encodedR3 0x13 .nor ∧ encodedI 0x14 .andi ∧
    encodedI 0x15 .ori ∧ encodedI 0x16 .xori) ∧
  ∀ (rd rs rt : Reg) (imm : Word) (s : State), ∃ vand vor vxor vnor vandi vori vxori : Word,
    writesOnly (.and rd rs rt) s rd vand ∧ writesOnly (.or rd rs rt) s rd vor ∧
    writesOnly (.xor rd rs rt) s rd vxor ∧ writesOnly (.nor rd rs rt) s rd vnor ∧
    writesOnly (.andi rt rs imm) s rt vandi ∧ writesOnly (.ori rt rs imm) s rt vori ∧
    writesOnly (.xori rt rs imm) s rt vxori ∧
    ∀ k, k < 32 →
      let a := (s.readReg rs).getLsbD k
      let b := (s.readReg rt).getLsbD k
      vand.getLsbD k = (a && b) ∧ vor.getLsbD k = (a || b) ∧ vxor.getLsbD k = (a != b) ∧
      vnor.getLsbD k = !(a || b) ∧ vandi.getLsbD k = (a && imm.getLsbD k) ∧
      vori.getLsbD k = (a || imm.getLsbD k) ∧ vxori.getLsbD k = (a != imm.getLsbD k)

/-- LUI: opcode and form, the immediate times 2^16 modulo 2^32, no register read, nothing else changed (R188). -/
def Obligations.LuiResult : Prop :=
  encodedLui 0x17 .lui ∧
  ∀ (rt : Reg) (imm : Word) (s : State),
    writesOnly (.lui rt imm) s rt (BitVec.ofNat 32 (imm.toNat * 2 ^ 16)) ∧
    writesOnly (.lui rt imm) s rt (imm.extractLsb' 0 16 ++ 0#16)

/-- The shifts: opcode and form; the value is rt, the amount the low 5 bits of the immediate or of rs; left is times 2^sh
modulo 2^32, logical right is the unsigned quotient by 2^sh, arithmetic right is floor(s(rt) / 2^sh); nothing else changed
(R191-R196). -/
def Obligations.ShiftResults : Prop :=
  (encodedShi 0x20 .sll ∧ encodedShi 0x21 .srl ∧ encodedShi 0x22 .sra ∧ encodedShv 0x23 .sllv ∧
    encodedShv 0x24 .srlv ∧ encodedShv 0x25 .srav) ∧
  ∀ (rd rt rs : Reg) (imm : Word) (s : State),
    let v := s.readReg rt
    let shi := imm.toNat % 32
    let shv := (s.readReg rs).toNat % 32
    writesOnly (.sll rd rt imm) s rd (BitVec.ofNat 32 (v.toNat * 2 ^ shi)) ∧
    writesOnly (.srl rd rt imm) s rd (BitVec.ofNat 32 (v.toNat / 2 ^ shi)) ∧
    writesOnly (.sra rd rt imm) s rd (BitVec.ofInt 32 (v.toInt / 2 ^ shi)) ∧
    writesOnly (.sllv rd rt rs) s rd (BitVec.ofNat 32 (v.toNat * 2 ^ shv)) ∧
    writesOnly (.srlv rd rt rs) s rd (BitVec.ofNat 32 (v.toNat / 2 ^ shv)) ∧
    writesOnly (.srav rd rt rs) s rd (BitVec.ofInt 32 (v.toInt / 2 ^ shv))

/-- The comparisons: opcode and form, 1 if the left operand is less and 0 if not, as signed or as unsigned values; nothing
else changed (R201-R204). -/
def Obligations.ComparisonResults : Prop :=
  (encodedR3 0x30 .slt ∧ encodedR3 0x31 .sltu ∧ encodedI 0x32 .slti ∧ encodedI 0x33 .sltiu) ∧
  ∀ (rd rs rt : Reg) (imm : Word) (s : State),
    let a := s.readReg rs
    let b := s.readReg rt
    writesOnly (.slt rd rs rt) s rd (if a.toInt < b.toInt then 1 else 0) ∧
    writesOnly (.sltu rd rs rt) s rd (if a.toNat < b.toNat then 1 else 0) ∧
    writesOnly (.slti rt rs imm) s rt (if a.toInt < imm.toInt then 1 else 0) ∧
    writesOnly (.sltiu rt rs imm) s rt (if a.toNat < imm.toNat then 1 else 0)

/-! ### Memory -/

/-- PhysRead and PhysWrite of 1, 2 or 4 bytes: they fail exactly beyond the end of memory, `pa + n` taken as an unbounded
integer (R65 by D13, log 20); otherwise the read is the little-endian value of the bytes, and the write stores byte i of the
value at pa + i and changes nothing else (R68). -/
def Obligations.PhysicalAccess : Prop :=
  ∀ (s : State) (pa n : Nat) (v : Word), n = 1 ∨ n = 2 ∨ n = 4 →
    (s.memorySize.toNat < pa + n → s.physRead pa n = none ∧ s.physWrite pa n v = none) ∧
    (pa + n ≤ s.memorySize.toNat →
      (∃ w, s.physRead pa n = some w ∧
        ∀ k, k < 32 → w.getLsbD k = if k < 8 * n then (s.mem.read (pa + k / 8)).getLsbD (k % 8) else false) ∧
      ∃ t, s.physWrite pa n v = some t ∧ (∀ i, i < n → t.mem.read (pa + i) = v.extractLsb' (8 * i) 8) ∧
        sameMemExcept s t pa n ∧ t = { s with mem := t.mem })

/-- The loads, where the parameters admit the alignment, the translation gives `pa` and the access is inside memory: LW the
word, LH and LB the sign-extended, LHU and LBU the zero-extended value of the bytes from `pa` on, in rt (R0 discards it);
nothing else changed (R211-R215; the address wraps by D14, one translation by D2, bytewise by D1, bounds by D13). -/
def Obligations.LoadResults : Prop :=
  (encodedI 0x50 .lw ∧ encodedI 0x51 .lh ∧ encodedI 0x52 .lhu ∧ encodedI 0x53 .lb ∧ encodedI 0x54 .lbu) ∧
  ∀ (rt rs : Reg) (imm pa : Word) (s : State), s.translate (s.readReg rs + imm) .read = some pa →
    let b0 := s.mem.read pa.toNat
    let b1 := s.mem.read (pa.toNat + 1)
    (alignmentAdmits s (s.readReg rs + imm) .word → pa.toNat + 4 ≤ s.memorySize.toNat →
      writesOnly (.lw rt rs imm) s rt (wordAt s pa.toNat)) ∧
    (alignmentAdmits s (s.readReg rs + imm) .half → pa.toNat + 2 ≤ s.memorySize.toNat →
      writesOnly (.lh rt rs imm) s rt (BitVec.ofInt 32 (b1 ++ b0).toInt) ∧
      writesOnly (.lhu rt rs imm) s rt (BitVec.ofNat 32 (b0.toNat + 256 * b1.toNat))) ∧
    (pa.toNat + 1 ≤ s.memorySize.toNat →
      writesOnly (.lb rt rs imm) s rt (BitVec.ofInt 32 b0.toInt) ∧
      writesOnly (.lbu rt rs imm) s rt (BitVec.ofNat 32 b0.toNat))

/-- The stores, where the parameters admit the alignment, the translation for writing gives `pa` and the access is inside
memory: SW writes the four, SH the low two, SB the lowest byte of rt at `pa` on, little-endian, every other byte of memory,
every register and everything else as before (R216-R218; D1, D2, D13, D14). -/
def Obligations.StoreResults : Prop :=
  (encodedI 0x58 .sw ∧ encodedI 0x59 .sh ∧ encodedI 0x5A .sb) ∧
  ∀ (rt rs : Reg) (imm pa : Word) (s : State), s.translate (s.readReg rs + imm) .write = some pa →
    ∀ (i : Instr) (sz : Size),
      (i = .sw rt rs imm ∧ sz = .word) ∨ (i = .sh rt rs imm ∧ sz = .half) ∨ (i = .sb rt rs imm ∧ sz = .byte) →
      alignmentAdmits s (s.readReg rs + imm) sz → pa.toNat + sz.bytes ≤ s.memorySize.toNat →
      ∃ t, exec i s = .next t ∧
        (∀ k, k < sz.bytes → t.mem.read (pa.toNat + k) = (s.readReg rt).extractLsb' (8 * k) 8) ∧
        sameMemExcept s t pa.toNat sz.bytes ∧ sameRegsExcept s t [] ∧ t.pc = s.pc ∧ sameControl s t

/-- A load or store the parameters admit (D1) raises PAGE_FAULT (8) when the translation fails, and otherwise MEM_FAULT (2)
when the physical bytes, consecutive from the one address translated (D2), are not all inside memory, `pa + n` taken as an
unbounded integer (R65 by D13, log 20); then nothing but the pending bit changes, as R310's parameters say: no register and
no byte (R66, R219 by D28, R310 by D9 and D10; the address wraps by D14). -/
def Obligations.LoadStoreFaults : Prop :=
  ∀ (rt rs : Reg) (imm : Word) (s : State) (i : Instr) (sz : Size) (kind : AccessKind),
    ((i, sz, kind) = (.lw rt rs imm, .word, .read) ∨ (i, sz, kind) = (.lh rt rs imm, .half, .read) ∨
      (i, sz, kind) = (.lhu rt rs imm, .half, .read) ∨ (i, sz, kind) = (.lb rt rs imm, .byte, .read) ∨
      (i, sz, kind) = (.lbu rt rs imm, .byte, .read) ∨ (i, sz, kind) = (.sw rt rs imm, .word, .write) ∨
      (i, sz, kind) = (.sh rt rs imm, .half, .write) ∨ (i, sz, kind) = (.sb rt rs imm, .byte, .write)) →
    alignmentAdmits s (s.readReg rs + imm) sz →
    (s.translate (s.readReg rs + imm) kind = none → ∃ t, exec i s = .next t ∧ onlyRaises s t 8) ∧
    (∀ pa, s.translate (s.readReg rs + imm) kind = some pa → s.memorySize.toNat < pa.toNat + sz.bytes →
      ∃ t, exec i s = .next t ∧ onlyRaises s t 2)

/-- Under MISALIGNED_DATA = refuse a misaligned word or halfword access is refused by name; under bytewise none is, and a
byte access is never refused (R67 by D1; that the refusal comes before the translation is log 39). -/
def Obligations.MisalignedAccessRefused : Prop :=
  ∀ (rt rs : Reg) (imm : Word) (s : State),
    ((s.readReg rs + imm).toNat % 4 ≠ 0 → ∀ i, i = .lw rt rs imm ∨ i = .sw rt rs imm →
      (exec i s = .refused .misalignedData ↔ s.cfg.misalignedData = .refuse)) ∧
    ((s.readReg rs + imm).toNat % 2 ≠ 0 → ∀ i, i = .lh rt rs imm ∨ i = .lhu rt rs imm ∨ i = .sh rt rs imm →
      (exec i s = .refused .misalignedData ↔ s.cfg.misalignedData = .refuse)) ∧
    (∀ i, i = .lb rt rs imm ∨ i = .lbu rt rs imm ∨ i = .sb rt rs imm → ∃ t, exec i s = .next t)

/-- What a store wrote, the next load from the same physical bytes reads: a word stored and loaded is the word, a halfword or
byte its low bits, extended. Each form needs only the bytes it touches inside memory (D13), and holds for every alignment the
parameters admit: under bytewise all (D1), under refuse the aligned ones, the others being refused at the store. The two
addresses, which wrap (D14), need only translate to the same first byte, because the bytes after it are physically
consecutive (D2) (R60, R101 by D17). -/
def Obligations.LoadAfterStore : Prop :=
  ∀ (rt rd rs qs : Reg) (imm jmm pa : Word) (s t : State),
    s.translate (s.readReg rs + imm) .write = some pa → t.translate (t.readReg qs + jmm) .read = some pa →
    let v := s.readReg rt
    (pa.toNat + 4 ≤ s.memorySize.toNat → exec (.sw rt rs imm) s = .next t →
      ∃ u, exec (.lw rd qs jmm) t = .next u ∧ u.readReg rd = written rd v) ∧
    (pa.toNat + 2 ≤ s.memorySize.toNat → exec (.sh rt rs imm) s = .next t →
      (∃ u, exec (.lhu rd qs jmm) t = .next u ∧ u.readReg rd = written rd ((v.setWidth 16).setWidth 32)) ∧
      ∃ u, exec (.lh rd qs jmm) t = .next u ∧ u.readReg rd = written rd ((v.setWidth 16).signExtend 32)) ∧
    (pa.toNat + 1 ≤ s.memorySize.toNat → exec (.sb rt rs imm) s = .next t →
      (∃ u, exec (.lbu rd qs jmm) t = .next u ∧ u.readReg rd = written rd ((v.setWidth 8).setWidth 32)) ∧
      ∃ u, exec (.lb rd qs jmm) t = .next u ∧ u.readReg rd = written rd ((v.setWidth 8).signExtend 32))

/-! ### Translation -/

/-- The translation, in numbers: the address itself in kernel mode and with paging off; in user mode with paging on it gives
`pa` exactly when the page number is below num_pages, the entry at ptbr + 4 * vpn modulo 2^32 (D14) is inside memory (D19),
V and U are set, W for a write, X for a fetch, and `pa` is the page of the entry with the offset of the address (R90, R92,
R94). -/
def Obligations.TranslationAlgorithm : Prop :=
  ∀ (s : State) (va : Word) (kind : AccessKind),
    (s.kernelMode = true → s.translate va kind = some va) ∧
    (s.pagingEnabled = false → s.translate va kind = some va) ∧
    (s.kernelMode = false → s.pagingEnabled = true → ∀ pa : Word,
      (s.translate va kind = some pa ↔
        ∃ (vpn ptea : Nat) (pte : Word), vpn = va.toNat / 4096 ∧ ptea = (s.pageTableBase.toNat + 4 * vpn) % 2 ^ 32 ∧
          vpn < s.numPages.toNat ∧ ptea + 4 ≤ s.memorySize.toNat ∧ pte = wordAt s ptea ∧
          pte.getLsbD 0 = true ∧ pte.getLsbD 3 = true ∧
          (kind = .write → pte.getLsbD 1 = true) ∧ (kind = .exec → pte.getLsbD 2 = true) ∧
          pa.toNat = pte.toNat / 4096 * 4096 + va.toNat % 4096))

/-- The manual's worked translation: virtual 0x00003ABC through the entry 0x0000A00F at 0x900C gives 0x0000AABC, for a read,
a write and a fetch (R97). -/
def Obligations.WorkedTranslation : Prop :=
  ∀ (s : State) (kind : AccessKind), s.kernelMode = false → s.pagingEnabled = true → s.pageTableBase = 0x9000 →
    s.numPages = 1024 → 0x9010 ≤ s.memorySize.toNat → wordAt s 0x900C = 0x0000A00F →
    s.translate 0x00003ABC kind = some 0x0000AABC

/-- Bits 11:4 of a page table entry do not matter: two states that differ in memory only, and whose entries for an address
agree outside those bits, translate it alike (R91 by D20). -/
def Obligations.ReservedPteBitsIgnored : Prop :=
  ∀ (s : State) (m : Memory) (va : Word) (kind : AccessKind),
    (∀ k, k < 32 → ¬(4 ≤ k ∧ k ≤ 11) →
      (wordAt { s with mem := m } (s.pteAddr va).toNat).getLsbD k = (wordAt s (s.pteAddr va).toNat).getLsbD k) →
    ({ s with mem := m } : State).translate va kind = s.translate va kind

/-! ### Control flow and system -/

/-- The branches: opcode and form; taken, the pc becomes `(ia + 8) + imm` modulo 2^32 (D14), not taken it stays `ia + 8`;
nothing else changes, no register is written and no target is checked (R230-R236). -/
def Obligations.BranchTargets : Prop :=
  (encodedB2 0x60 .beq ∧ encodedB2 0x61 .bne ∧ encodedB1 0x62 .blez ∧ encodedB1 0x63 .bgtz ∧ encodedB1 0x64 .bltz ∧
    encodedB1 0x65 .bgez) ∧
  ∀ (rs rt : Reg) (imm : Word) (s : State),
    let a := s.readReg rs
    let b := s.readReg rt
    let target := BitVec.ofNat 32 (s.pc.toNat + imm.toNat)
    jumpsOnly (.beq rs rt imm) s (if a = b then target else s.pc) ∧
    jumpsOnly (.bne rs rt imm) s (if a = b then s.pc else target) ∧
    jumpsOnly (.blez rs imm) s (if a.toInt ≤ 0 then target else s.pc) ∧
    jumpsOnly (.bgtz rs imm) s (if 0 < a.toInt then target else s.pc) ∧
    jumpsOnly (.bltz rs imm) s (if a.getLsbD 31 then target else s.pc) ∧
    jumpsOnly (.bgez rs imm) s (if a.getLsbD 31 then s.pc else target)

/-- J, JAL, JR: opcode and form; the pc becomes the immediate or the register, unscaled and unchecked; JAL leaves the address
after it in R31; nothing else changes (R241-R243). -/
def Obligations.JumpTargets : Prop :=
  (encodedJ 0x70 .j ∧ encodedJ 0x71 .jal ∧ encodedJr 0x72 .jr) ∧
  ∀ (rs : Reg) (imm : Word) (s : State),
    jumpsOnly (.j imm) s imm ∧ jumpsOnly (.jr rs) s (s.readReg rs) ∧
    ∃ t, exec (.jal imm) s = .next t ∧ t.pc = imm ∧ t.readReg 31 = s.pc ∧ sameRegsExcept s t [31] ∧ sameMem s t ∧
      sameControl s t

/-- JALR: opcode and form; with rd different from rs the link goes to rd (R0 discards it) and the pc becomes rs; with rd = rs
the link is written first, so the jump goes to the address after it, or the form is refused, as JALR_SAME_REG says; nothing
else changes (R244 by D16). -/
def Obligations.JalrTargets : Prop :=
  encodedJalr 0x73 .jalr ∧
  ∀ (rd rs : Reg) (s : State),
    (rd ≠ rs ∨ s.cfg.jalrSameReg = .linkFirst →
      ∃ t, exec (.jalr rd rs) s = .next t ∧ t.readReg rd = written rd s.pc ∧
        t.pc = (if rd = rs then s.pc else s.readReg rs) ∧ sameRegsExcept s t [rd] ∧ sameMem s t ∧ sameControl s t) ∧
    (rd = rs → s.cfg.jalrSameReg = .refuse → exec (.jalr rd rs) s = .refused .jalrSameRegister)

/-- NOP: any eight bytes whose first is 0x00 are it, and it changes nothing: the pc stays where the step advanced it
(R251). -/
def Obligations.NopResult : Prop := encodedN 0x00 .nop ∧ ∀ s : State, jumpsOnly .nop s s.pc

/-- SYSCALL and BREAK, in either mode: the bit of interrupt 4 or 5 becomes pending, `running` is cleared, the step's status
is 0 (D29), and nothing else changes: no register, no byte, not the mode, not the interrupt enable, not the pc (R250, R252,
R253). -/
def Obligations.SyscallAndBreakHalt : Prop :=
  (encodedN 0xF0 .syscall ∧ encodedN 0xF1 .brk) ∧
  ∀ (s : State) (i : Instr) (n : Nat) (r : StopReason),
    (i = .syscall ∧ n = 4 ∧ r = .haltSyscall) ∨ (i = .brk ∧ n = 5 ∧ r = .haltBreak) →
    ∃ t, exec i s = .next t ∧ raisedBit s t n ∧ t.running = false ∧ t.stopReason = some r ∧ t.statusOk = true ∧
      sameRegsExcept s t [] ∧ sameMem s t ∧ t.pc = s.pc ∧ t.kernelMode = s.kernelMode ∧ samePaging s t ∧
      t.intEnabled = s.intEnabled ∧ sameSaved s t ∧ sameMachine s t

/-- RAISE, in either mode: the pending bit of the number in the low 8 bits of the immediate (D7, any number D31) and nothing
else (R264). -/
def Obligations.RaiseSetsItsBit : Prop :=
  encodedJ 0xF5 .raise ∧
  ∀ (imm : Word) (s : State), ∃ t, exec (.raise imm) s = .next t ∧ raisedBit s t (imm.toNat % 256) ∧
    t = { s with pending := t.pending }

/-- GETPC writes the saved pc and GETMODE 1 in kernel and 0 in user mode, in either mode, and nothing else (R265, R275). -/
def Obligations.GetpcGetmodeResults : Prop :=
  (encodedRd 0xF6 .getpc ∧ encodedRd 0xFC .getmode) ∧
  ∀ (rd : Reg) (s : State),
    writesOnly (.getpc rd) s rd s.savedPc ∧
    writesOnly (.getmode rd) s rd (if s.kernelMode = true then 1 else 0)

/-- The privileged instructions but IRET in kernel mode: each writes its own control field, SET_PTBR both of its own, and
nothing else changes (R261, R262, R271-R274). -/
def Obligations.PrivilegedEffects : Prop :=
  (encodedN 0xF2 .ei ∧ encodedN 0xF3 .di ∧ encodedN 0xF7 .enablePaging ∧ encodedN 0xF8 .disablePaging ∧
    encodedPtbr 0xF9 .setPtbr ∧ encodedN 0xFB .enterUser) ∧
  ∀ (rd rt : Reg) (s : State), s.kernelMode = true →
    exec .ei s = .next { s with intEnabled := true } ∧
    exec .di s = .next { s with intEnabled := false } ∧
    exec .enablePaging s = .next { s with pagingEnabled := true } ∧
    exec .disablePaging s = .next { s with pagingEnabled := false } ∧
    exec (.setPtbr rd rt) s = .next { s with pageTableBase := s.readReg rd, numPages := s.readReg rt } ∧
    exec .enterUser s = .next { s with kernelMode := false }

/-- In user mode each of the seven privileged instructions raises PRIVILEGE_VIOLATION (7) and does nothing else (R260; the pc
and the status as R310's parameters say, D9, D10). -/
def Obligations.PrivilegeViolations : Prop :=
  ∀ (rd rt : Reg) (i : Instr) (s : State), s.kernelMode = false →
    i ∈ [.ei, .di, .iret, .enablePaging, .disablePaging, .setPtbr rd rt, .enterUser] →
    ∃ t, exec i s = .next t ∧ onlyRaises s t 7

/-! ### Return from an interrupt -/

/-- IRET in kernel mode with its frame inside memory: R1 to R31 from the 32 little-endian words at saved_regs_addr, R0 still
0, the pc from saved_pc, interrupts enabled, the mode unchanged or from saved_mode as IRET_MODE says (D4), and nothing else:
no byte of memory, no pending bit, no paging field, no saved register (R263 by D12, R324). -/
def Obligations.IretRestores : Prop :=
  encodedN 0xF4 .iret ∧
  ∀ s : State, s.kernelMode = true → s.savedRegsAddr.toNat + 128 ≤ s.memorySize.toNat →
    ∃ t, exec .iret s = .next t ∧
      (∀ r : Reg, r ≠ 0 → t.readReg r = wordAt s (s.savedRegsAddr.toNat + 4 * r.val)) ∧ t.readReg 0 = 0 ∧
      t.pc = s.savedPc ∧ t.intEnabled = true ∧
      t.kernelMode = (match s.cfg.iretMode with | .unchanged => true | .restoreSaved => s.savedMode) ∧
      sameMem s t ∧ t.pending = s.pending ∧ samePaging s t ∧ sameSaved s t ∧ t.running = s.running ∧
      t.stopReason = s.stopReason ∧ sameMachine s t

/-- IRET in kernel mode whose 128-byte frame is not inside memory, on unbounded integers, raises MEM_FAULT (2) and restores
nothing (R263 by D12, log 19); the pc and the status are as R310's parameters say (D9, D10: log 16, log 17). -/
def Obligations.IretFrameFault : Prop :=
  ∀ s : State, s.kernelMode = true → s.memorySize.toNat < s.savedRegsAddr.toNat + 128 →
    ∃ t, exec .iret s = .next t ∧ onlyRaises s t 2

/-! ### Selecting and taking an interrupt -/

/-- The interrupt check selects `n` exactly when interrupts are enabled, bit `n` is pending and no lower bit is; 255 only
under INT255_DISPATCH = yes (D6); with interrupts disabled it selects none (R315, R311). -/
def Obligations.LowestPendingSelected : Prop :=
  ∀ (s : State) (n : IntNum),
    s.selectInterrupt = some n ↔
      s.intEnabled = true ∧ s.pending.getLsbD n.toNat = true ∧ (∀ k, k < n.toNat → s.pending.getLsbD k = false) ∧
        (n = 255 → s.cfg.int255Dispatch = .yes)

/-- The dispatch of interrupt `n`, its 128 frame bytes and its vector word inside memory and a handler installed: bit n
cleared (D3), saved_pc the pc, kernel mode, interrupts disabled, R29 and saved_regs_addr the frame address R29 - 128 modulo
2^32 (D14), R4 the number, word i of the frame register i as it was (word 29 as FRAME_SP_IMAGE says, D5), the pc the
handler word as it stands after the frame is written; the saved mode only under IRET_MODE = restore_saved (D4); every other
register, byte and field as before (R320 by D12, D30). -/
def Obligations.DispatchEffect : Prop :=
  ∀ (s : State) (n : IntNum), s.canDispatch n = true →
    ∃ t, s.dispatch n = some t ∧
      let frame := s.readReg 29 - 128#32
      t.pc = wordAt t (8 * n.toNat) ∧ t.savedPc = s.pc ∧ t.savedRegsAddr = frame ∧ t.readReg 29 = frame ∧
      t.readReg 4 = BitVec.ofNat 32 n.toNat ∧ sameRegsExcept s t [4, 29] ∧
      (∀ r : Reg, r ≠ 29 → wordAt t (frame.toNat + 4 * r.val) = s.readReg r) ∧
      wordAt t (frame.toNat + 4 * 29) =
        (match s.cfg.frameSpImage with | .pre => s.readReg 29 | .post => frame) ∧
      sameMemExcept s t frame.toNat 128 ∧
      t.kernelMode = true ∧ t.intEnabled = false ∧
      (∀ k, t.pending.getLsbD k = (s.pending.getLsbD k && decide (k ≠ n.toNat))) ∧
      t.savedMode = (match s.cfg.iretMode with | .unchanged => s.savedMode | .restoreSaved => s.kernelMode) ∧
      samePaging s t ∧ t.running = s.running ∧ t.stopReason = s.stopReason ∧ sameMachine s t

/-- A dispatch fails exactly when the frame is not inside memory, or the vector word is not, or the handler word, read after
the frame would be written, is 0; then the step changes nothing but its status, -1, and the next step fails again in the
same way, and so does a resume of a running machine by `c32_vm_step` (R322 by D11 and D12, R341; the frame address wraps by
D14, log 21). -/
def Obligations.DispatchFailureStops : Prop :=
  ∀ (s : State) (n : IntNum), s.selectInterrupt = some n →
    (s.dispatch n = none ↔
      s.memorySize.toNat < (s.readReg 29 - 128#32).toNat + 128 ∨ s.memorySize.toNat < 8 * n.toNat + 4 ∨
        (s.mem.writeWords (s.readReg 29 - 128#32).toNat s.frameWords).readLE (8 * n.toNat) 4 = 0) ∧
    (s.dispatch n = none →
      step s = .next { s with stopReason := some .dispatchFailed } ∧
      step { s with stopReason := some .dispatchFailed } = .next { s with stopReason := some .dispatchFailed } ∧
      (s.running = true → resumeStep { s with stopReason := some .dispatchFailed } =
        .next { s with stopReason := some .dispatchFailed }))

/-- The handler the host installs is the one that runs: after `c32_set_interrupt_handler` with a handler address that is not
0, the dispatch of that interrupt goes there, if the frame is inside memory and does not overlap the vector word (R80, R320,
R340). That the dispatch goes through rests on R322 with D11 (a handler word that is not 0, log 18) and D12 (frame and vector
physical and inside memory, log 19); the frame address wraps by D14 (log 21), and bytes 4 to 7 of the entry are ignored by D30
(log 32). -/
def Obligations.InstalledHandlerRuns : Prop :=
  ∀ (s : State) (n : IntNum) (addr : Word), addr ≠ 0 → 8 * n.toNat + 4 ≤ s.memorySize.toNat →
    s.frameAddr.toNat + 128 ≤ s.memorySize.toNat →
    (s.frameAddr.toNat + 128 ≤ 8 * n.toNat ∨ 8 * n.toNat + 4 ≤ s.frameAddr.toNat) →
    ∃ t u, hostSetHandler n addr s = some t ∧ t = { s with mem := t.mem } ∧ t.dispatch n = some u ∧ u.pc = addr

/-- A dispatch to a handler that is a lone IRET is one step (D26, log 28): the pc, the interrupt enable and every register
but R29 are as they were, and R29 too under FRAME_SP_IMAGE = pre, while under post it is left at the frame address (D5, log
12); the mode is kernel or, under IRET_MODE = restore_saved, as it was (D4, log 11); only the pending bit of the interrupt is
cleared (D3, log 10); saved_pc holds the pc and saved_regs_addr the frame address, and no byte outside the frame changes (R320
by D12, log 19; R324, R263). -/
def Obligations.DispatchThenIretReturns : Prop :=
  ∀ (s s1 : State) (n : IntNum) (bytes : List Byte), s.selectInterrupt = some n → s.canDispatch n = true →
    fetches s s1 bytes → decode bytes = .ok .iret →
    ∃ t, step s = .next t ∧ sameRegsExcept s t [29] ∧
      t.readReg 29 = (match s.cfg.frameSpImage with | .pre => s.readReg 29 | .post => s.readReg 29 - 128#32) ∧
      t.pc = s.pc ∧ t.intEnabled = s.intEnabled ∧
      t.kernelMode = (match s.cfg.iretMode with | .unchanged => true | .restoreSaved => s.kernelMode) ∧
      (∀ k, t.pending.getLsbD k = (s.pending.getLsbD k && decide (k ≠ n.toNat))) ∧
      t.savedPc = s.pc ∧ t.savedRegsAddr = s.readReg 29 - 128#32 ∧
      sameMemExcept s t (s.readReg 29 - 128#32).toNat 128 ∧ samePaging s t ∧ t.running = s.running ∧ t.stopReason = none

/-! ### The step -/

/-- When the bytes at the pc, as the interrupt check leaves it, decode to an instruction, the step is the execution of that
instruction with the pc advanced by 8, followed by step 8 of R40: R0's slot is zeroed when the status is 0 (R40, R26,
R43). -/
def Obligations.StepRunsDecodedInstruction : Prop :=
  ∀ (s s1 : State) (bytes : List Byte) (i : Instr), fetches s s1 bytes → decode bytes = .ok i →
    step s = match exec i (s1.setPc (s1.pc + 8#32)) with
      | .next t => .next (if t.statusOk = true then t.zeroR0 else t)
      | .fault f => .fault f
      | .refused r => .refused r

/-- With no interrupt to dispatch: a pc that is no multiple of 8 sets bit 2, one that does not translate sets bit 8, one
beyond memory clears `running`; each ends the step with its own stop reason and status -1, the pc not advanced, and nothing
else changed (R40 steps 2 to 4; the bounds on unbounded integers, D13; `running` kept by the first two, D27, log 29). -/
def Obligations.FetchStops : Prop :=
  ∀ s : State, s.selectInterrupt = none →
    (s.pc.toNat % 8 ≠ 0 → ∃ t, step s = .next t ∧ t.stopReason = some .misalignedPc ∧ t.statusOk = false ∧
      raisedBit s t 2 ∧ t.running = s.running ∧ sameWhenStopped s t) ∧
    (s.pc.toNat % 8 = 0 → s.translate s.pc .exec = none →
      ∃ t, step s = .next t ∧ t.stopReason = some .fetchPageFault ∧ t.statusOk = false ∧ raisedBit s t 8 ∧
        t.running = s.running ∧ sameWhenStopped s t) ∧
    (s.pc.toNat % 8 = 0 → ∀ ppc, s.translate s.pc .exec = some ppc → s.memorySize.toNat < ppc.toNat + 8 →
      ∃ t, step s = .next t ∧ t.stopReason = some .fetchOutOfBounds ∧ t.statusOk = false ∧ t.pending = s.pending ∧
        t.running = false ∧ sameWhenStopped s t)

/-- An unassigned opcode raises ILLEGAL_OP (1) and has no other effect, the pc past it or on it and the status as R310's
parameters say (R137, R138 by D21; D9, D10). -/
def Obligations.UnassignedOpcodeRaises : Prop :=
  ∀ (s s1 : State) (f : Fields), fetches s s1 f.bytes → formOf f.opcode = none →
    ∃ t, step s = .next t ∧ onlyRaises (s1.setPc (s1.pc + 8#32)) t 1

/-- What a step may refuse: a used register field above 31 (D8, log 15), always; a misaligned access and JALR with rd = rs
only under the two refuse parameters (D1, log 8; D16, log 23) (R126, R67, R244). That it never answers with a fault is the
model's own design choice, an empty `Fault` (log 42). -/
def Obligations.StepRefusesOnlyByName : Prop :=
  ∀ s : State,
    (∀ (s1 : State) (f : Fields), fetches s s1 f.bytes → decode f.bytes = .error .registerField →
      step s = .refused .registerField) ∧
    (∀ f, step s ≠ .fault f) ∧
    (∀ r, step s = .refused r →
      (r = .registerField ∧ ∃ (s1 : State) (f : Fields), fetches s s1 f.bytes ∧ decode f.bytes = .error .registerField) ∨
      (r = .misalignedData ∧ s.cfg.misalignedData = .refuse) ∨
      (r = .jalrSameRegister ∧ s.cfg.jalrSameReg = .refuse))

/-- Step 8 of R40 runs when the step ends with status 0 and only then: after status 0 the slot of R0 is 0, after status -1 it
is what it was; and a dispatch does not write it (R43). -/
def Obligations.R0ZeroedByStatusZeroSteps : Prop :=
  (∀ s t : State, step s = .next t →
    (t.statusOk = true → t.regs[0] = 0) ∧ (t.statusOk = false → t.regs[0] = s.regs[0])) ∧
  (∀ (s t : State) (n : IntNum), s.dispatch n = some t → t.regs[0] = s.regs[0])

/-! ### Invariants -/

/-- Every step keeps the invariant: memory canonical, no byte at an address that does not exist, R0's slot 0 (R21, R62). -/
def Obligations.StepKeepsInvariant : Prop := ∀ s t : State, s.WF → step s = .next t → t.WF

/-- The invariant holds after reset (R44; memory's reset contents are log 3). -/
def Obligations.ResetHasInvariant : Prop := State.reset.WF

/-- Every host call keeps the invariant, `c32_vm_init` and a write of the hidden saved mode (log 45) among them (R340, R44);
a word write, an installed handler and loaded bytes answer none exactly when a byte is outside the memory array, and no other
call answers none (the model's choice, log 40). -/
def Obligations.HostCallsKeepInvariant : Prop :=
  (∀ (c : HostCall) (s t : State), s.WF → hostCall c s = some t → t.WF) ∧
  (∀ (pa : Nat) (v : Word) (s : State), hostCall (.writeWord pa v) s = none ↔ s.memorySize.toNat < pa + 4) ∧
  (∀ (n : IntNum) (v : Word) (s : State), hostCall (.setHandler n v) s = none ↔ s.memorySize.toNat < 8 * n.toNat + 4) ∧
  (∀ (pa : Nat) (bytes : List Byte) (s : State),
    hostCall (.loadBytes pa bytes) s = none ↔ s.memorySize.toNat < pa + bytes.length) ∧
  (∀ (c : HostCall) (s : State), hostCall c s = none →
    (∃ pa v, c = .writeWord pa v) ∨ (∃ n v, c = .setHandler n v) ∨ ∃ pa bytes, c = .loadBytes pa bytes)

/-- `c32_vm_init` leaves every field at the value R44's table gives, memory and its length as they were, and the hidden saved
mode at 1 (R332, D4); of the model's own fields the parameters stay (log 1) and the stop reason is none (log 4). And
`State.reset` is what it leaves, for the memory and length the model chose (log 2, log 3). -/
def Obligations.ResetValues : Prop :=
  (∀ s : State, ∃ t, hostCall .reset s = some t ∧ (∀ r : Reg, t.readReg r = 0 ∧ t.regs[r] = 0) ∧ t.pc = 0 ∧
    t.mem = s.mem ∧ t.memorySize = s.memorySize ∧ t.running = false ∧ t.kernelMode = true ∧ t.pagingEnabled = false ∧
    t.pageTableBase = 0 ∧ t.numPages = 0 ∧ t.intEnabled = false ∧ t.pending = 0 ∧ t.savedPc = 0 ∧
    t.savedRegsAddr = 0 ∧ t.savedMode = true ∧ t.cfg = s.cfg ∧ t.stopReason = none) ∧
  hostCall .reset State.reset = some State.reset

/-- No step changes the size of memory or a parameter of R8: they are configuration, not state (R15; that the model holds the
parameters in a field of State, which nothing changes, is its own choice, log 1). -/
def Obligations.ConfigurationFixed : Prop :=
  ∀ s t : State, step s = .next t → t.memorySize = s.memorySize ∧ t.cfg = s.cfg

/-! ### Whole-machine rules -/

/-- A step leaves user mode only by dispatching an interrupt, and leaves kernel mode only by executing ENTER_USER, or IRET
under IRET_MODE = restore_saved with user mode saved (R29, R263, R274 (c), R330, R332; D4, log 11; that the first handler
instruction belongs to the step of its dispatch is D26, log 28). -/
def Obligations.ModeChangesOnlyAsListed : Prop :=
  ∀ s t : State, step s = .next t →
    (s.kernelMode = false → t.kernelMode = true → ∃ n, dispatches s n) ∧
    (s.kernelMode = true → t.kernelMode = false → ∃ i u, executes s i u ∧
      (i = .enterUser ∨ (i = .iret ∧ s.cfg.iretMode = .restoreSaved ∧ u.savedMode = false)))

/-- A step in user mode that dispatches nothing leaves alone the mode, the paging fields, the interrupt enable and the saved
registers, and clears no pending bit (R260, R330). -/
def Obligations.UserStepKeepsControl : Prop :=
  ∀ s t : State, s.kernelMode = false → s.selectInterrupt = none → step s = .next t →
    t.kernelMode = false ∧ samePaging s t ∧ t.intEnabled = s.intEnabled ∧ sameSaved s t ∧
      ∀ k, s.pending.getLsbD k = true → t.pending.getLsbD k = true

/-- A step in translated mode that dispatches nothing changes only bytes of pages that an entry of the page table, inside
num_pages, gives to user mode for writing; the entry stands at ptbr + 4 * vpn modulo 2^32 (R92, D14, log 21) and is inside
memory (R94, D19, log 25). Under MISALIGNED_DATA = bytewise (D1, log 8) an access that starts in such a page may run up to
three bytes past its end (D2, log 9), under refuse none does (R90, R72, R330). -/
def Obligations.UserStoresStayInWritablePages : Prop :=
  ∀ (s t : State) (a : Nat), s.translated → s.selectInterrupt = none → step s = .next t →
    t.mem.read a ≠ s.mem.read a →
    ∃ (vpn ptea : Nat) (pte : Word), vpn < 2 ^ 20 ∧ vpn < s.numPages.toNat ∧
      ptea = (s.pageTableBase.toNat + 4 * vpn) % 2 ^ 32 ∧ ptea + 4 ≤ s.memorySize.toNat ∧ pte = wordAt s ptea ∧
      pte.getLsbD 0 = true ∧ pte.getLsbD 1 = true ∧ pte.getLsbD 3 = true ∧ pte.toNat / 4096 * 4096 ≤ a ∧
      a < s.memorySize.toNat ∧
      a < pte.toNat / 4096 * 4096 + (match s.cfg.misalignedData with | .bytewise => 4099 | .refuse => 4096)

/-- The saved pc and the frame address are written by a dispatch and by nothing else: a step that dispatches saves the pc it
started with and the frame address it used, any other step keeps both (R35, R36). -/
def Obligations.SavedRegistersOnlyByDispatch : Prop :=
  ∀ s t : State, step s = .next t →
    (∀ n, dispatches s n → t.savedPc = s.pc ∧ t.savedRegsAddr = s.frameAddr) ∧
    ((∀ n, ¬dispatches s n) → t.savedPc = s.savedPc ∧ t.savedRegsAddr = s.savedRegsAddr)

/-- A pending bit is cleared only by the dispatch of its own interrupt, and by that it is cleared before the handler's first
instruction (R34, R320; D3). -/
def Obligations.PendingClearedOnlyByDispatch : Prop :=
  (∀ (s t : State) (k : Nat), step s = .next t → s.pending.getLsbD k = true → t.pending.getLsbD k = false →
    ∃ n, dispatches s n ∧ n.toNat = k) ∧
  (∀ (s t : State) (n : IntNum), s.dispatch n = some t → t.pending.getLsbD n.toNat = false)

/-- A bit that a step makes pending is one R303 lists, under the condition listed there: 2 for a misaligned pc; 8 for an
aligned pc that does not translate; 1 for an unassigned opcode (D21); 4 for SYSCALL; 5 for BREAK; the low byte of its
immediate for RAISE (D7, D31); 7 for a privileged instruction in user mode; 2 for IRET in kernel mode with its frame outside
memory (D12); for a load or store, 8 when its address (D14) does not translate and 2 when it does and the bytes from there on
(D2) are not all inside memory (D13). No step makes bit 3, ALIGN_FAULT, pending except by RAISE (R303, R301). The pc is the
one a dispatch in the same step leaves (D26). -/
def Obligations.PendingSetOnlyAsListed : Prop :=
  ∀ (s t : State) (k : Nat), step s = .next t → s.pending.getLsbD k = false → t.pending.getLsbD k = true →
    (∃ s1, ({ s with stopReason := none } : State).interruptCheck = some s1 ∧
      ((k = 2 ∧ s1.pc.toNat % 8 ≠ 0) ∨ (k = 8 ∧ s1.pc.toNat % 8 = 0 ∧ s1.translate s1.pc .exec = none))) ∨
    (k = 1 ∧ ∃ (s1 : State) (f : Fields), fetches s s1 f.bytes ∧ formOf f.opcode = none) ∨
    (∃ i u, executes s i u ∧
      ((k = 4 ∧ i = .syscall) ∨ (k = 5 ∧ i = .brk) ∨ (∃ imm, i = .raise imm ∧ k = imm.toNat % 256) ∨
        (k = 7 ∧ u.kernelMode = false ∧ ((∃ rd rt, i = .setPtbr rd rt) ∨
          i ∈ [.ei, .di, .iret, .enablePaging, .disablePaging, .enterUser])) ∨
        (k = 2 ∧ i = .iret ∧ u.kernelMode = true ∧ u.memorySize.toNat < u.savedRegsAddr.toNat + 128) ∨
        (∃ ea sz kind, accesses u i ea sz kind ∧
          ((k = 8 ∧ u.translate ea kind = none) ∨
            (k = 2 ∧ ∃ pa, u.translate ea kind = some pa ∧ u.memorySize.toNat < pa.toNat + sz.bytes)))))

/-- `running` is set by no step of R40 (R37; log 44 for a step of a machine no run has stopped); SYSCALL, BREAK and a fetch
beyond the end of memory clear it, and nothing else a step does (R40, R252, R253; D27, log 29). A resume by `c32_vm_step` sets
it to 1 (R341), so after it `running` is 0 exactly if that step ended in one of these three ways. -/
def Obligations.RunningClearedOnlyAsListed : Prop :=
  (∀ s t : State, step s = .next t →
    (t.running = s.running ∨ t.running = false) ∧
    (t.stopReason = some .haltSyscall ∨ t.stopReason = some .haltBreak ∨ t.stopReason = some .fetchOutOfBounds →
      t.running = false) ∧
    (s.running = true → t.running = false →
      t.stopReason = some .haltSyscall ∨ t.stopReason = some .haltBreak ∨ t.stopReason = some .fetchOutOfBounds)) ∧
  (∀ s t : State, resumeStep s = .next t →
    (t.running = false ↔
      t.stopReason = some .haltSyscall ∨ t.stopReason = some .haltBreak ∨ t.stopReason = some .fetchOutOfBounds))

/-- A run that leaves, whatever interrupts arrive in it (R305, D24), has one of the stop reasons of R42, execFault only under
EXEC_FAULT_STATUS = stop (D9, log 16), and `running` is 0 exactly after SYSCALL, BREAK and a fetch beyond memory (R41 by D27,
log 29; R42); after SYSCALL, BREAK, a misaligned pc and a fetch page fault the pending bit R42 names is set. The run is cut off
after any number of steps (log 41); the environment sets pending bits between its steps and does nothing else (log 46). -/
def Obligations.RunStopsForAListedReason : Prop :=
  ∀ (arrivals : List (BitVec 256)) (s t : State), vmRun arrivals s = .stopped t →
    ∃ r, t.stopReason = some r ∧
      (t.running = false ↔ r = .haltSyscall ∨ r = .haltBreak ∨ r = .fetchOutOfBounds) ∧
      (r = .execFault → s.cfg.execFaultStatus = .stop) ∧
      (r = .haltSyscall → t.pending.getLsbD 4 = true) ∧ (r = .haltBreak → t.pending.getLsbD 5 = true) ∧
      (r = .misalignedPc → t.pending.getLsbD 2 = true) ∧ (r = .fetchPageFault → t.pending.getLsbD 8 = true)

/-- A step that a fetch-phase fault stopped, with interrupts disabled when it ended, stops again at once in the same way with
no state change, and so does a resume of the machine by `c32_vm_step` or, with no external interrupt arriving (the closed
model of D24, log 7), by `c32_vm_run`, if the step was one of a running machine: the machine is stuck until the host acts
(R311, R341). -/
def Obligations.FetchStopIsStuck : Prop :=
  ∀ s t : State, step s = .next t → t.intEnabled = false →
    t.stopReason = some .misalignedPc ∨ t.stopReason = some .fetchPageFault ∨ t.stopReason = some .fetchOutOfBounds →
    step t = .next t ∧
      (s.running = true → resumeStep t = .next t ∧ ∀ fuel, vmRunClosed (fuel + 1) t = .stopped t)

/-- An instruction placed for the next step in kernel mode with no interrupt to dispatch is the instruction the next step
executes, on the state with its bytes in memory (the model's `withFetchWord`, log 6 and log 37; R40, R122). -/
def Obligations.PlacedInstructionRuns : Prop :=
  ∀ (s : State) (i : Instr), s.kernelMode = true → s.selectInterrupt = none → s.pc.toNat % 8 = 0 →
    s.pc.toNat + 8 ≤ s.memorySize.toNat →
    ∃ u, executes (s.withFetchWord 64 i.fields.word.toNat) i u ∧ u.pc = s.pc + 8#32 ∧
      sameMemExcept s u s.pc.toNat 8 ∧ u.regs = s.regs
end

