-- ==== Sys2Proof/Laws/Memory.lean ====
section
/-! SUPPORT. The laws of memory: reading after writing, what a write leaves alone, and the canonical form. -/

namespace Sys2Proof.Machine

/-! ### One byte -/

@[simp] theorem Memory.read_nil (a : Nat) : Memory.read [] a = unlistedByte := rfl

theorem Memory.read_insert (m : Memory) (a : Nat) (v : Byte) (b : Nat) :
    (Memory.insert m a v).read b = if b = a then v else m.read b := by
  induction m with
  | nil => simp [Memory.insert, Memory.read]
  | cons c m ih =>
    obtain ⟨d, w⟩ := c
    unfold Memory.insert
    split
    · simp [Memory.read]
    · split
      · subst d; simp only [Memory.read]; split <;> rfl
      · rename_i hne
        simp only [Memory.read, ih]
        by_cases hb : b = d
        · subst hb; simp [Ne.symm hne]
        · simp [hb]

theorem Memory.read_filter_ne (m : Memory) (a b : Nat) :
    Memory.read (m.filter (fun c => c.1 ≠ a)) b = if b = a then unlistedByte else m.read b := by
  induction m with
  | nil => simp [Memory.read]
  | cons c m ih =>
    obtain ⟨d, w⟩ := c
    by_cases hd : d = a
    · subst hd
      rw [List.filter_cons_of_neg (by simp), ih]
      by_cases hb : b = d <;> simp [Memory.read, hb]
    · rw [List.filter_cons_of_pos (by simpa using hd)]
      simp only [Memory.read, ih]
      by_cases hb : b = d
      · subst hb; simp [hd]
      · simp [hb]

/-- Reading after writing one byte: the byte written there, every other byte as before. -/
theorem Memory.read_write (m : Memory) (a : Nat) (v : Byte) (b : Nat) :
    (m.write a v).read b = if b = a then v else m.read b := by
  unfold Memory.write
  split
  · rename_i h; rw [Memory.read_filter_ne]; simp [h]
  · exact Memory.read_insert m a v b

/-! ### The canonical form -/

theorem Memory.mem_insert {m : Memory} {a : Nat} {v : Byte} {c : Host.Cell} (h : c ∈ Memory.insert m a v) :
    c = (a, v) ∨ c ∈ m := by
  induction m with
  | nil => simpa [Memory.insert] using h
  | cons d m ih =>
    obtain ⟨b, w⟩ := d
    unfold Memory.insert at h
    split at h
    · simpa using h
    · split at h
      · rcases List.mem_cons.1 h with h | h
        · exact .inl h
        · exact .inr (List.mem_cons_of_mem _ h)
      · rcases List.mem_cons.1 h with h | h
        · exact .inr (h ▸ List.mem_cons_self)
        · exact (ih h).imp id (List.mem_cons_of_mem _)

theorem Memory.pairwise_insert {m : Memory} (h : m.Pairwise (fun c d => c.1 < d.1)) (a : Nat) (v : Byte) :
    (Memory.insert m a v).Pairwise (fun c d => c.1 < d.1) := by
  induction m with
  | nil => simp [Memory.insert]
  | cons d m ih =>
    obtain ⟨b, w⟩ := d
    obtain ⟨hb, hm⟩ := List.pairwise_cons.1 h
    unfold Memory.insert
    split
    · rename_i hab
      refine List.pairwise_cons.2 ⟨fun c hc => ?_, h⟩
      rcases List.mem_cons.1 hc with rfl | hc
      · exact hab
      · exact Nat.lt_trans hab (hb c hc)
    · split
      · rename_i hab; subst hab; exact List.pairwise_cons.2 ⟨hb, hm⟩
      · refine List.pairwise_cons.2 ⟨fun c hc => ?_, ih hm⟩
        rcases Memory.mem_insert hc with rfl | hc
        · simp only; omega
        · exact hb c hc

theorem Memory.mem_write {m : Memory} {a : Nat} {v : Byte} {c : Host.Cell} (h : c ∈ m.write a v) :
    c.1 = a ∨ c ∈ m := by
  unfold Memory.write at h
  split at h
  · exact .inr (List.mem_filter.1 h).1
  · exact (Memory.mem_insert h).imp (fun e => by rw [e]) id

/-- A write keeps the canonical form. -/
theorem Memory.wf_write {m : Memory} (h : m.wf) (a : Nat) (v : Byte) : (m.write a v).wf := by
  unfold Memory.write
  split
  · exact ⟨h.1.filter _, fun c hc => h.2 c (List.mem_filter.1 hc).1⟩
  · rename_i hv
    refine ⟨Memory.pairwise_insert h.1 a v, fun c hc => ?_⟩
    rcases Memory.mem_insert hc with rfl | hc
    · exact hv
    · exact h.2 c hc

/-- Every cell lies below a bound: no byte is listed at an address that does not exist. -/
def Memory.below (m : Memory) (n : Nat) : Prop := ∀ c ∈ m, c.1 < n

theorem Memory.below_write {m : Memory} {n : Nat} (h : m.below n) {a : Nat} (ha : a < n) (v : Byte) :
    (m.write a v).below n := fun c hc =>
  (Memory.mem_write hc).elim (fun e => e ▸ ha) (h c)

/-- The memory of the reset state is canonical. -/
theorem Memory.wf_reset : State.reset.mem.wf := ⟨List.Pairwise.nil, nofun⟩

/-! ### Several bytes -/

theorem Memory.wf_writeLE {m : Memory} (h : m.wf) (a n : Nat) (v : Word) : (m.writeLE a n v).wf := by
  induction n generalizing m a v with
  | zero => exact h
  | succ n ih => exact ih (Memory.wf_write h a _) (a + 1) _

theorem Memory.below_writeLE {m : Memory} {k : Nat} (h : m.below k) (a n : Nat) (ha : a + n ≤ k) (v : Word) :
    (m.writeLE a n v).below k := by
  induction n generalizing m a v with
  | zero => exact h
  | succ n ih => exact ih (Memory.below_write h (by omega) _) (a + 1) (by omega) _

theorem Memory.wf_writeWords {m : Memory} (h : m.wf) (a : Nat) (ws : List Word) : (m.writeWords a ws).wf := by
  induction ws generalizing m a with
  | nil => exact h
  | cons w ws ih => exact ih (Memory.wf_writeLE h a 4 w) (a + 4)

theorem Memory.below_writeWords {m : Memory} {k : Nat} (h : m.below k) (a : Nat) (ws : List Word)
    (ha : a + 4 * ws.length ≤ k) : (m.writeWords a ws).below k := by
  induction ws generalizing m a with
  | nil => exact h
  | cons w ws ih =>
    simp only [List.length_cons] at ha
    exact ih (Memory.below_writeLE h a 4 (by omega) w) (a + 4) (by omega)

theorem Memory.wf_writeBytes {m : Memory} (h : m.wf) (a : Nat) (bs : List Byte) : (m.writeBytes a bs).wf := by
  induction bs generalizing m a with
  | nil => exact h
  | cons b bs ih => exact ih (Memory.wf_write h a b) (a + 1)

theorem Memory.below_writeBytes {m : Memory} {k : Nat} (h : m.below k) (a : Nat) (bs : List Byte)
    (ha : a + bs.length ≤ k) : (m.writeBytes a bs).below k := by
  induction bs generalizing m a with
  | nil => exact h
  | cons b bs ih =>
    simp only [List.length_cons] at ha
    exact ih (Memory.below_write h (by omega) b) (a + 1) (by omega)

/-- What a little-endian store leaves in each byte (R60): byte `i` of the value in the `i`-th byte, every byte outside as
before. -/
theorem Memory.read_writeLE (m : Memory) (a n : Nat) (v : Word) (b : Nat) :
    (m.writeLE a n v).read b =
      if a ≤ b ∧ b < a + n then (v >>> (8 * (b - a))).setWidth 8 else m.read b := by
  induction n generalizing m a v with
  | zero => rw [Memory.writeLE, if_neg (by omega)]
  | succ n ih =>
    rw [Memory.writeLE, ih, Memory.read_write]
    by_cases h1 : b = a
    · subst h1; simp
    · by_cases h2 : a + 1 ≤ b ∧ b < a + 1 + n
      · have h3 : a ≤ b ∧ b < a + (n + 1) := by omega
        have h4 : 8 * (b - a) = 8 + 8 * (b - (a + 1)) := by omega
        simp only [h2, h3, and_self, if_true]
        rw [h4, BitVec.shiftRight_add]
      · have h3 : ¬(a ≤ b ∧ b < a + (n + 1)) := by omega
        simp only [h2, h3, h1, if_false]

theorem Memory.read_writeLE_of_outside (m : Memory) (a n : Nat) (v : Word) (b : Nat) (h : b < a ∨ a + n ≤ b) :
    (m.writeLE a n v).read b = m.read b := by
  rw [Memory.read_writeLE, if_neg (by omega)]

/-- Equal bytes give equal little-endian values. -/
theorem Memory.readLE_congr {m m' : Memory} {a a' n : Nat} (h : ∀ i, i < n → m'.read (a' + i) = m.read (a + i)) :
    m'.readLE a' n = m.readLE a n := by
  induction n generalizing a a' with
  | zero => rfl
  | succ n ih =>
    have h0 := h 0 (by omega)
    simp only [Nat.add_zero] at h0
    rw [Memory.readLE, Memory.readLE, h0, ih (fun i hi => by
      have := h (i + 1) (by omega)
      rwa [show a' + (i + 1) = a' + 1 + i by omega, show a + (i + 1) = a + 1 + i by omega] at this)]

theorem Memory.readLE_one (m : Memory) (a : Nat) : m.readLE a 1 = (m.read a).setWidth 32 := by
  simp [Memory.readLE]

/-- Bit `i` of two bytes joined. -/
theorem getLsbD_join2 (b1 b0 : Byte) (i : Nat) :
    BitVec.getLsbD (b1 ++ b0) i = if i < 8 then b0.getLsbD i else b1.getLsbD (i - 8) := by
  rw [BitVec.getLsbD_append]

/-- Bit `i` of four bytes joined. -/
theorem getLsbD_join4 (b3 b2 b1 b0 : Byte) (i : Nat) :
    BitVec.getLsbD (b3 ++ b2 ++ b1 ++ b0) i =
      if i < 8 then b0.getLsbD i else if i < 16 then b1.getLsbD (i - 8)
      else if i < 24 then b2.getLsbD (i - 16) else b3.getLsbD (i - 24) := by
  rw [BitVec.getLsbD_append, BitVec.getLsbD_append, BitVec.getLsbD_append]
  simp only [Nat.sub_sub, Nat.reduceAdd]
  by_cases h1 : i < 8
  · rw [if_pos h1, if_pos h1]
  · rw [if_neg h1, if_neg h1]
    by_cases h2 : i < 16
    · rw [if_pos h2, if_pos (by omega)]
    · rw [if_neg h2, if_neg (by omega)]
      by_cases h3 : i < 24
      · rw [if_pos h3, if_pos (by omega)]
      · rw [if_neg h3, if_neg (by omega)]

/-- Bit `i` of the little-endian value of `n` bytes: bit `i % 8` of byte `i / 8` (R60). -/
theorem Memory.getLsbD_readLE (m : Memory) (a n i : Nat) (hi : i < 32) :
    (m.readLE a n).getLsbD i = if i < 8 * n then (m.read (a + i / 8)).getLsbD (i % 8) else false := by
  induction n generalizing a i with
  | zero => simp [Memory.readLE]
  | succ n ih =>
    simp only [Memory.readLE, BitVec.getLsbD_or, BitVec.getLsbD_shiftLeft, BitVec.getLsbD_setWidth, hi,
      decide_true, Bool.true_and]
    by_cases h1 : i < 8
    · rw [Nat.div_eq_of_lt h1, Nat.mod_eq_of_lt h1, if_pos (by omega)]
      simp [h1]
    · rw [ih (a + 1) (i - 8) (by omega), BitVec.getLsbD_of_ge (m.read a) i (by omega)]
      simp only [h1, decide_false, Bool.not_false, Bool.true_and, Bool.or_false]
      rw [show a + 1 + (i - 8) / 8 = a + i / 8 by omega, show (i - 8) % 8 = i % 8 by omega]
      by_cases h2 : i < 8 * (n + 1)
      · rw [if_pos h2, if_pos (by omega)]
      · rw [if_neg h2, if_neg (by omega)]

/-- A halfword is its two bytes, the lower address the lower bits (R60). -/
theorem Memory.readLE_two (m : Memory) (a : Nat) : m.readLE a 2 = (m.read (a + 1) ++ m.read a).setWidth 32 := by
  apply BitVec.eq_of_getLsbD_eq
  intro i hi
  rw [Memory.getLsbD_readLE _ _ _ _ hi, BitVec.getLsbD_setWidth, getLsbD_join2]
  simp only [hi, decide_true, Bool.true_and]
  by_cases h1 : i < 8
  · rw [Nat.div_eq_of_lt h1, Nat.mod_eq_of_lt h1, if_pos (by omega), if_pos h1, Nat.add_zero]
  · rw [if_neg h1]
    by_cases h2 : i < 16
    · rw [if_pos (by omega), show i / 8 = 1 by omega, show i % 8 = i - 8 by omega]
    · rw [if_neg (by omega), BitVec.getLsbD_of_ge _ _ (by omega)]

/-- A word is its four bytes, the lowest address the lowest bits (R60). -/
theorem Memory.readLE_four (m : Memory) (a : Nat) :
    m.readLE a 4 = m.read (a + 3) ++ m.read (a + 2) ++ m.read (a + 1) ++ m.read a := by
  apply BitVec.eq_of_getLsbD_eq
  intro i hi
  refine (Memory.getLsbD_readLE m a 4 i hi).trans (Eq.symm ((getLsbD_join4 _ _ _ _ i).trans ?_))
  rw [if_pos (show i < 8 * 4 by omega)]
  by_cases h1 : i < 8
  · rw [if_pos h1, show i / 8 = 0 by omega, show i % 8 = i by omega, Nat.add_zero]
  · rw [if_neg h1]
    by_cases h2 : i < 16
    · rw [if_pos h2, show i / 8 = 1 by omega, show i % 8 = i - 8 by omega]
    · rw [if_neg h2]
      by_cases h3 : i < 24
      · rw [if_pos h3, show i / 8 = 2 by omega, show i % 8 = i - 16 by omega]
      · rw [if_neg h3, show i / 8 = 3 by omega, show i % 8 = i - 24 by omega]

/-- The low `n` bytes of a value stored and read back: its low `8 * n` bits, zero-extended. -/
theorem Memory.getLsbD_readLE_writeLE (m : Memory) (a n : Nat) (v : Word) (i : Nat) (hi : i < 32) :
    ((m.writeLE a n v).readLE a n).getLsbD i = if i < 8 * n then v.getLsbD i else false := by
  rw [Memory.getLsbD_readLE _ _ _ _ hi]
  split
  · rw [Memory.read_writeLE, if_pos (by omega), BitVec.getLsbD_setWidth, BitVec.getLsbD_ushiftRight,
      show 8 * (a + i / 8 - a) + i % 8 = i by omega]
    simp [show i % 8 < 8 by omega]
  · rfl

/-- A word stored and read back is the word. -/
@[simp] theorem Memory.readLE_writeLE_four (m : Memory) (a : Nat) (v : Word) : (m.writeLE a 4 v).readLE a 4 = v := by
  apply BitVec.eq_of_getLsbD_eq
  intro i hi
  rw [Memory.getLsbD_readLE_writeLE _ _ _ _ _ hi, if_pos (by omega)]

/-- Storing words leaves every byte outside them as before. -/
theorem Memory.read_writeWords_of_outside (m : Memory) (a : Nat) (ws : List Word) (b : Nat)
    (h : b < a ∨ a + 4 * ws.length ≤ b) : (m.writeWords a ws).read b = m.read b := by
  induction ws generalizing m a with
  | nil => rfl
  | cons w ws ih =>
    simp only [List.length_cons] at h
    rw [Memory.writeWords, ih _ _ (by omega), Memory.read_writeLE_of_outside _ _ _ _ _ (by omega)]

/-- The `i`-th of the words stored reads back. -/
theorem Memory.readLE_writeWords (m : Memory) (a : Nat) (ws : List Word) (i : Nat) (hi : i < ws.length) :
    (m.writeWords a ws).readLE (a + 4 * i) 4 = ws[i] := by
  induction ws generalizing m a i with
  | nil => simp at hi
  | cons w ws ih =>
    rw [Memory.writeWords]
    cases i with
    | zero =>
      have h : ((m.writeLE a 4 w).writeWords (a + 4) ws).readLE (a + 4 * 0) 4 = (m.writeLE a 4 w).readLE a 4 :=
        Memory.readLE_congr fun j hj => Memory.read_writeWords_of_outside _ _ _ _ (by omega)
      rw [h, Memory.readLE_writeLE_four]
      rfl
    | succ i =>
      have := ih (m.writeLE a 4 w) (a + 4) i (by simpa using hi)
      rw [show a + 4 * (i + 1) = a + 4 + 4 * i by omega, this]
      simp

/-- Storing bytes leaves every byte outside them as before. -/
theorem Memory.read_writeBytes_of_outside (m : Memory) (a : Nat) (bs : List Byte) (b : Nat)
    (h : b < a ∨ a + bs.length ≤ b) : (m.writeBytes a bs).read b = m.read b := by
  induction bs generalizing m a with
  | nil => rfl
  | cons c bs ih =>
    simp only [List.length_cons] at h
    rw [Memory.writeBytes, ih _ _ (by omega), Memory.read_write, if_neg (by omega)]

/-- The `i`-th of the bytes stored reads back. -/
theorem Memory.read_writeBytes (m : Memory) (a : Nat) (bs : List Byte) (i : Nat) (hi : i < bs.length) :
    (m.writeBytes a bs).read (a + i) = bs[i] := by
  induction bs generalizing m a i with
  | nil => simp at hi
  | cons c bs ih =>
    rw [Memory.writeBytes]
    cases i with
    | zero => rw [Memory.read_writeBytes_of_outside _ _ _ _ (by omega), Memory.read_write]; simp
    | succ i =>
      have := ih (m.write a c) (a + 1) i (by simpa using hi)
      rw [show a + (i + 1) = a + 1 + i by omega, this]
      simp

end Sys2Proof.Machine
end

