-- ==== Sys2Proof/Laws/State.lean ====
section
/-! SUPPORT. What each named update of the state does to each field: one lemma per field, true by rfl (by unfolding for the
return from an interrupt, where rfl would compare whole register files first). -/

namespace Sys2Proof.Machine

/-! Writing a general register. -/

@[simp] theorem State.pc_setReg (s : State) (r : Reg) (v : Word) : (s.setReg r v).pc = s.pc := rfl
@[simp] theorem State.mem_setReg (s : State) (r : Reg) (v : Word) : (s.setReg r v).mem = s.mem := rfl
@[simp] theorem State.memorySize_setReg (s : State) (r : Reg) (v : Word) : (s.setReg r v).memorySize = s.memorySize := rfl
@[simp] theorem State.running_setReg (s : State) (r : Reg) (v : Word) : (s.setReg r v).running = s.running := rfl
@[simp] theorem State.kernelMode_setReg (s : State) (r : Reg) (v : Word) : (s.setReg r v).kernelMode = s.kernelMode := rfl
@[simp] theorem State.pagingEnabled_setReg (s : State) (r : Reg) (v : Word) : (s.setReg r v).pagingEnabled = s.pagingEnabled := rfl
@[simp] theorem State.pageTableBase_setReg (s : State) (r : Reg) (v : Word) : (s.setReg r v).pageTableBase = s.pageTableBase := rfl
@[simp] theorem State.numPages_setReg (s : State) (r : Reg) (v : Word) : (s.setReg r v).numPages = s.numPages := rfl
@[simp] theorem State.intEnabled_setReg (s : State) (r : Reg) (v : Word) : (s.setReg r v).intEnabled = s.intEnabled := rfl
@[simp] theorem State.pending_setReg (s : State) (r : Reg) (v : Word) : (s.setReg r v).pending = s.pending := rfl
@[simp] theorem State.savedPc_setReg (s : State) (r : Reg) (v : Word) : (s.setReg r v).savedPc = s.savedPc := rfl
@[simp] theorem State.savedRegsAddr_setReg (s : State) (r : Reg) (v : Word) : (s.setReg r v).savedRegsAddr = s.savedRegsAddr := rfl
@[simp] theorem State.savedMode_setReg (s : State) (r : Reg) (v : Word) : (s.setReg r v).savedMode = s.savedMode := rfl
@[simp] theorem State.stopReason_setReg (s : State) (r : Reg) (v : Word) : (s.setReg r v).stopReason = s.stopReason := rfl
@[simp] theorem State.cfg_setReg (s : State) (r : Reg) (v : Word) : (s.setReg r v).cfg = s.cfg := rfl

/-! Step 8 of R40. -/

@[simp] theorem State.pc_zeroR0 (s : State) : (s.zeroR0).pc = s.pc := rfl
@[simp] theorem State.mem_zeroR0 (s : State) : (s.zeroR0).mem = s.mem := rfl
@[simp] theorem State.memorySize_zeroR0 (s : State) : (s.zeroR0).memorySize = s.memorySize := rfl
@[simp] theorem State.running_zeroR0 (s : State) : (s.zeroR0).running = s.running := rfl
@[simp] theorem State.kernelMode_zeroR0 (s : State) : (s.zeroR0).kernelMode = s.kernelMode := rfl
@[simp] theorem State.pagingEnabled_zeroR0 (s : State) : (s.zeroR0).pagingEnabled = s.pagingEnabled := rfl
@[simp] theorem State.pageTableBase_zeroR0 (s : State) : (s.zeroR0).pageTableBase = s.pageTableBase := rfl
@[simp] theorem State.numPages_zeroR0 (s : State) : (s.zeroR0).numPages = s.numPages := rfl
@[simp] theorem State.intEnabled_zeroR0 (s : State) : (s.zeroR0).intEnabled = s.intEnabled := rfl
@[simp] theorem State.pending_zeroR0 (s : State) : (s.zeroR0).pending = s.pending := rfl
@[simp] theorem State.savedPc_zeroR0 (s : State) : (s.zeroR0).savedPc = s.savedPc := rfl
@[simp] theorem State.savedRegsAddr_zeroR0 (s : State) : (s.zeroR0).savedRegsAddr = s.savedRegsAddr := rfl
@[simp] theorem State.savedMode_zeroR0 (s : State) : (s.zeroR0).savedMode = s.savedMode := rfl
@[simp] theorem State.stopReason_zeroR0 (s : State) : (s.zeroR0).stopReason = s.stopReason := rfl
@[simp] theorem State.cfg_zeroR0 (s : State) : (s.zeroR0).cfg = s.cfg := rfl
@[simp] theorem State.regs_zeroR0 (s : State) : (s.zeroR0).regs = s.regs.set 0 0 := rfl

/-! Writing the pc. -/

@[simp] theorem State.mem_setPc (s : State) (v : Word) : (s.setPc v).mem = s.mem := rfl
@[simp] theorem State.memorySize_setPc (s : State) (v : Word) : (s.setPc v).memorySize = s.memorySize := rfl
@[simp] theorem State.running_setPc (s : State) (v : Word) : (s.setPc v).running = s.running := rfl
@[simp] theorem State.kernelMode_setPc (s : State) (v : Word) : (s.setPc v).kernelMode = s.kernelMode := rfl
@[simp] theorem State.pagingEnabled_setPc (s : State) (v : Word) : (s.setPc v).pagingEnabled = s.pagingEnabled := rfl
@[simp] theorem State.pageTableBase_setPc (s : State) (v : Word) : (s.setPc v).pageTableBase = s.pageTableBase := rfl
@[simp] theorem State.numPages_setPc (s : State) (v : Word) : (s.setPc v).numPages = s.numPages := rfl
@[simp] theorem State.intEnabled_setPc (s : State) (v : Word) : (s.setPc v).intEnabled = s.intEnabled := rfl
@[simp] theorem State.pending_setPc (s : State) (v : Word) : (s.setPc v).pending = s.pending := rfl
@[simp] theorem State.savedPc_setPc (s : State) (v : Word) : (s.setPc v).savedPc = s.savedPc := rfl
@[simp] theorem State.savedRegsAddr_setPc (s : State) (v : Word) : (s.setPc v).savedRegsAddr = s.savedRegsAddr := rfl
@[simp] theorem State.savedMode_setPc (s : State) (v : Word) : (s.setPc v).savedMode = s.savedMode := rfl
@[simp] theorem State.stopReason_setPc (s : State) (v : Word) : (s.setPc v).stopReason = s.stopReason := rfl
@[simp] theorem State.cfg_setPc (s : State) (v : Word) : (s.setPc v).cfg = s.cfg := rfl
@[simp] theorem State.regs_setPc (s : State) (v : Word) : (s.setPc v).regs = s.regs := rfl
@[simp] theorem State.pc_setPc (s : State) (v : Word) : (s.setPc v).pc = v := rfl

/-! Raising an interrupt. -/

@[simp] theorem State.pc_raisePending (s : State) (n : IntNum) : (s.raisePending n).pc = s.pc := rfl
@[simp] theorem State.mem_raisePending (s : State) (n : IntNum) : (s.raisePending n).mem = s.mem := rfl
@[simp] theorem State.memorySize_raisePending (s : State) (n : IntNum) : (s.raisePending n).memorySize = s.memorySize := rfl
@[simp] theorem State.running_raisePending (s : State) (n : IntNum) : (s.raisePending n).running = s.running := rfl
@[simp] theorem State.kernelMode_raisePending (s : State) (n : IntNum) : (s.raisePending n).kernelMode = s.kernelMode := rfl
@[simp] theorem State.pagingEnabled_raisePending (s : State) (n : IntNum) : (s.raisePending n).pagingEnabled = s.pagingEnabled := rfl
@[simp] theorem State.pageTableBase_raisePending (s : State) (n : IntNum) : (s.raisePending n).pageTableBase = s.pageTableBase := rfl
@[simp] theorem State.numPages_raisePending (s : State) (n : IntNum) : (s.raisePending n).numPages = s.numPages := rfl
@[simp] theorem State.intEnabled_raisePending (s : State) (n : IntNum) : (s.raisePending n).intEnabled = s.intEnabled := rfl
@[simp] theorem State.savedPc_raisePending (s : State) (n : IntNum) : (s.raisePending n).savedPc = s.savedPc := rfl
@[simp] theorem State.savedRegsAddr_raisePending (s : State) (n : IntNum) : (s.raisePending n).savedRegsAddr = s.savedRegsAddr := rfl
@[simp] theorem State.savedMode_raisePending (s : State) (n : IntNum) : (s.raisePending n).savedMode = s.savedMode := rfl
@[simp] theorem State.stopReason_raisePending (s : State) (n : IntNum) : (s.raisePending n).stopReason = s.stopReason := rfl
@[simp] theorem State.cfg_raisePending (s : State) (n : IntNum) : (s.raisePending n).cfg = s.cfg := rfl
@[simp] theorem State.regs_raisePending (s : State) (n : IntNum) : (s.raisePending n).regs = s.regs := rfl
@[simp] theorem State.pending_raisePending (s : State) (n : IntNum) : (s.raisePending n).pending = s.pending ||| (1#256 <<< n.toNat) := rfl

/-! Clearing a pending bit. -/

@[simp] theorem State.pc_clearPending (s : State) (n : IntNum) : (s.clearPending n).pc = s.pc := rfl
@[simp] theorem State.mem_clearPending (s : State) (n : IntNum) : (s.clearPending n).mem = s.mem := rfl
@[simp] theorem State.memorySize_clearPending (s : State) (n : IntNum) : (s.clearPending n).memorySize = s.memorySize := rfl
@[simp] theorem State.running_clearPending (s : State) (n : IntNum) : (s.clearPending n).running = s.running := rfl
@[simp] theorem State.kernelMode_clearPending (s : State) (n : IntNum) : (s.clearPending n).kernelMode = s.kernelMode := rfl
@[simp] theorem State.pagingEnabled_clearPending (s : State) (n : IntNum) : (s.clearPending n).pagingEnabled = s.pagingEnabled := rfl
@[simp] theorem State.pageTableBase_clearPending (s : State) (n : IntNum) : (s.clearPending n).pageTableBase = s.pageTableBase := rfl
@[simp] theorem State.numPages_clearPending (s : State) (n : IntNum) : (s.clearPending n).numPages = s.numPages := rfl
@[simp] theorem State.intEnabled_clearPending (s : State) (n : IntNum) : (s.clearPending n).intEnabled = s.intEnabled := rfl
@[simp] theorem State.savedPc_clearPending (s : State) (n : IntNum) : (s.clearPending n).savedPc = s.savedPc := rfl
@[simp] theorem State.savedRegsAddr_clearPending (s : State) (n : IntNum) : (s.clearPending n).savedRegsAddr = s.savedRegsAddr := rfl
@[simp] theorem State.savedMode_clearPending (s : State) (n : IntNum) : (s.clearPending n).savedMode = s.savedMode := rfl
@[simp] theorem State.stopReason_clearPending (s : State) (n : IntNum) : (s.clearPending n).stopReason = s.stopReason := rfl
@[simp] theorem State.cfg_clearPending (s : State) (n : IntNum) : (s.clearPending n).cfg = s.cfg := rfl
@[simp] theorem State.regs_clearPending (s : State) (n : IntNum) : (s.clearPending n).regs = s.regs := rfl
@[simp] theorem State.pending_clearPending (s : State) (n : IntNum) : (s.clearPending n).pending = s.pending &&& ~~~(1#256 <<< n.toNat) := rfl

/-! An execute-phase exception. -/

@[simp] theorem State.mem_raiseFault (s : State) (n : IntNum) : (s.raiseFault n).mem = s.mem := rfl
@[simp] theorem State.memorySize_raiseFault (s : State) (n : IntNum) : (s.raiseFault n).memorySize = s.memorySize := rfl
@[simp] theorem State.running_raiseFault (s : State) (n : IntNum) : (s.raiseFault n).running = s.running := rfl
@[simp] theorem State.kernelMode_raiseFault (s : State) (n : IntNum) : (s.raiseFault n).kernelMode = s.kernelMode := rfl
@[simp] theorem State.pagingEnabled_raiseFault (s : State) (n : IntNum) : (s.raiseFault n).pagingEnabled = s.pagingEnabled := rfl
@[simp] theorem State.pageTableBase_raiseFault (s : State) (n : IntNum) : (s.raiseFault n).pageTableBase = s.pageTableBase := rfl
@[simp] theorem State.numPages_raiseFault (s : State) (n : IntNum) : (s.raiseFault n).numPages = s.numPages := rfl
@[simp] theorem State.intEnabled_raiseFault (s : State) (n : IntNum) : (s.raiseFault n).intEnabled = s.intEnabled := rfl
@[simp] theorem State.savedPc_raiseFault (s : State) (n : IntNum) : (s.raiseFault n).savedPc = s.savedPc := rfl
@[simp] theorem State.savedRegsAddr_raiseFault (s : State) (n : IntNum) : (s.raiseFault n).savedRegsAddr = s.savedRegsAddr := rfl
@[simp] theorem State.savedMode_raiseFault (s : State) (n : IntNum) : (s.raiseFault n).savedMode = s.savedMode := rfl
@[simp] theorem State.cfg_raiseFault (s : State) (n : IntNum) : (s.raiseFault n).cfg = s.cfg := rfl
@[simp] theorem State.regs_raiseFault (s : State) (n : IntNum) : (s.raiseFault n).regs = s.regs := rfl
@[simp] theorem State.pending_raiseFault (s : State) (n : IntNum) : (s.raiseFault n).pending = s.pending ||| (1#256 <<< n.toNat) := rfl

/-! The return from an interrupt. -/

@[simp] theorem State.mem_returnFromInterrupt (s : State) : (s.returnFromInterrupt).mem = s.mem := by simp only [State.returnFromInterrupt]
@[simp] theorem State.memorySize_returnFromInterrupt (s : State) : (s.returnFromInterrupt).memorySize = s.memorySize := by simp only [State.returnFromInterrupt]
@[simp] theorem State.running_returnFromInterrupt (s : State) : (s.returnFromInterrupt).running = s.running := by simp only [State.returnFromInterrupt]
@[simp] theorem State.pagingEnabled_returnFromInterrupt (s : State) : (s.returnFromInterrupt).pagingEnabled = s.pagingEnabled := by simp only [State.returnFromInterrupt]
@[simp] theorem State.pageTableBase_returnFromInterrupt (s : State) : (s.returnFromInterrupt).pageTableBase = s.pageTableBase := by simp only [State.returnFromInterrupt]
@[simp] theorem State.numPages_returnFromInterrupt (s : State) : (s.returnFromInterrupt).numPages = s.numPages := by simp only [State.returnFromInterrupt]
@[simp] theorem State.pending_returnFromInterrupt (s : State) : (s.returnFromInterrupt).pending = s.pending := by simp only [State.returnFromInterrupt]
@[simp] theorem State.savedPc_returnFromInterrupt (s : State) : (s.returnFromInterrupt).savedPc = s.savedPc := by simp only [State.returnFromInterrupt]
@[simp] theorem State.savedRegsAddr_returnFromInterrupt (s : State) : (s.returnFromInterrupt).savedRegsAddr = s.savedRegsAddr := by simp only [State.returnFromInterrupt]
@[simp] theorem State.savedMode_returnFromInterrupt (s : State) : (s.returnFromInterrupt).savedMode = s.savedMode := by simp only [State.returnFromInterrupt]
@[simp] theorem State.stopReason_returnFromInterrupt (s : State) : (s.returnFromInterrupt).stopReason = s.stopReason := by simp only [State.returnFromInterrupt]
@[simp] theorem State.cfg_returnFromInterrupt (s : State) : (s.returnFromInterrupt).cfg = s.cfg := by simp only [State.returnFromInterrupt]
@[simp] theorem State.pc_returnFromInterrupt (s : State) : (s.returnFromInterrupt).pc = s.savedPc := by simp only [State.returnFromInterrupt]
@[simp] theorem State.intEnabled_returnFromInterrupt (s : State) : (s.returnFromInterrupt).intEnabled = true := by simp only [State.returnFromInterrupt]

/-! Where the pc and the step outcome of an execute-phase exception stand under the parameters of R310. -/

theorem State.pc_raiseFault_next (s : State) (n : IntNum) (h : s.cfg.execFaultSavedPc = .next) :
    (s.raiseFault n).pc = s.pc := by simp [State.raiseFault, h]

theorem State.pc_raiseFault_faulting (s : State) (n : IntNum) (h : s.cfg.execFaultSavedPc = .faulting) :
    (s.raiseFault n).pc = s.pc - 8#32 := by simp [State.raiseFault, h]

theorem State.stopReason_raiseFault_continue (s : State) (n : IntNum) (h : s.cfg.execFaultStatus = .continue_) :
    (s.raiseFault n).stopReason = s.stopReason := by simp [State.raiseFault, h]

theorem State.stopReason_raiseFault_stop (s : State) (n : IntNum) (h : s.cfg.execFaultStatus = .stop) :
    (s.raiseFault n).stopReason = some .execFault := by simp [State.raiseFault, h]

/-! Registers. -/

@[simp] theorem State.readReg_zero (s : State) : s.readReg 0 = 0 := rfl

/-- Reading after writing: the register written (R0 discards), every other as before. -/
theorem State.readReg_setReg (s : State) (r q : Reg) (v : Word) :
    (s.setReg r v).readReg q = if q = r ∧ r ≠ 0 then v else s.readReg q := by
  unfold State.readReg State.setReg
  by_cases hq : q = 0
  · subst hq
    by_cases hr : r = 0 <;> simp [hr]
    exact fun h => absurd h.symm hr
  · by_cases hr : r = 0
    · simp [hq, hr]
    · by_cases hqr : q = r
      · subst hqr; simp [hr]
      · have : (r : Nat) ≠ (q : Nat) := fun h => hqr (Fin.ext h.symm)
        simp [hr, hq, hqr, this]

@[simp] theorem State.readReg_setReg_of_ne (s : State) (r q : Reg) (v : Word) (h : q ≠ r) :
    (s.setReg r v).readReg q = s.readReg q := by simp [State.readReg_setReg, h]

/-- A write of R0 changes nothing (R21). -/
@[simp] theorem State.setReg_zero (s : State) (v : Word) : s.setReg 0 v = s := rfl

/-- What a register reads depends on the register file alone. -/
theorem State.readReg_congr {s t : State} (h : t.regs = s.regs) (r : Reg) : t.readReg r = s.readReg r := by
  simp [State.readReg, h]

@[simp] theorem State.readReg_setPc (s : State) (v : Word) (r : Reg) : (s.setPc v).readReg r = s.readReg r := rfl
@[simp] theorem State.readReg_raisePending (s : State) (n : IntNum) (r : Reg) :
    (s.raisePending n).readReg r = s.readReg r := rfl
@[simp] theorem State.readReg_clearPending (s : State) (n : IntNum) (r : Reg) :
    (s.clearPending n).readReg r = s.readReg r := rfl
@[simp] theorem State.readReg_raiseFault (s : State) (n : IntNum) (r : Reg) :
    (s.raiseFault n).readReg r = s.readReg r := rfl

@[simp] theorem State.readReg_zeroR0 (s : State) (r : Reg) : s.zeroR0.readReg r = s.readReg r := by
  unfold State.readReg State.zeroR0
  by_cases h : r = 0
  · simp [h]
  · have : (0 : Nat) ≠ (r : Nat) := fun e => h (Fin.ext e.symm)
    simp [h, this]

/-- The slot of R0 is written by nothing but step 8 (R21). -/
@[simp] theorem State.slot0_setReg (s : State) (r : Reg) (v : Word) : (s.setReg r v).regs[0] = s.regs[0] := by
  unfold State.setReg
  by_cases h : r = 0
  · simp [h]
  · have : (r : Nat) ≠ 0 := fun e => h (Fin.ext e)
    simp [h, this]

@[simp] theorem State.slot0_zeroR0 (s : State) : s.zeroR0.regs[0] = 0 := by simp [State.zeroR0]

/-- A register after IRET's restore: its word of the frame, R0 still 0 (R263). -/
@[simp] theorem State.readReg_returnFromInterrupt (s : State) (r : Reg) :
    s.returnFromInterrupt.readReg r = if r = 0 then 0 else s.frameWord r := by
  unfold State.readReg State.returnFromInterrupt State.restoredRegs
  by_cases h : r = 0 <;> simp [h]

@[simp] theorem State.slot0_returnFromInterrupt (s : State) : s.returnFromInterrupt.regs[0] = s.regs[0] := by
  simp [State.returnFromInterrupt, State.restoredRegs]

end Sys2Proof.Machine
end

