-- ==== Sys2Proof/Laws/Access.lean ====
section
/-! SUPPORT. What the shared accesses can do, said once: bounds, translation, data accesses, loads and stores. -/

namespace Sys2Proof.Machine

@[simp] theorem State.inBounds_iff (s : State) (pa n : Nat) :
    s.inBounds pa n = true ↔ pa + n ≤ s.memorySize.toNat := by simp [State.inBounds]

theorem State.physRead_eq_some {s : State} {pa n : Nat} {v : Word} :
    s.physRead pa n = some v ↔ pa + n ≤ s.memorySize.toNat ∧ s.mem.readLE pa n = v := by
  unfold State.physRead; split <;> simp_all

theorem State.physRead_eq_none {s : State} {pa n : Nat} :
    s.physRead pa n = none ↔ s.memorySize.toNat < pa + n := by
  unfold State.physRead; split <;> simp_all

theorem State.physWrite_eq_some {s t : State} {pa n : Nat} {v : Word} :
    s.physWrite pa n v = some t ↔
      pa + n ≤ s.memorySize.toNat ∧ t = { s with mem := s.mem.writeLE pa n v } := by
  unfold State.physWrite
  split
  · rename_i h; simp [(s.inBounds_iff pa n).1 h, eq_comm]
  · rename_i h
    exact ⟨nofun, fun e => absurd ((s.inBounds_iff pa n).2 e.1) h⟩

theorem State.physWrite_eq_none {s : State} {pa n : Nat} {v : Word} :
    s.physWrite pa n v = none ↔ s.memorySize.toNat < pa + n := by
  unfold State.physWrite; split <;> simp_all

/-! ### Translation -/

/-- Kernel mode is not translated (R90 step 1). -/
@[simp] theorem State.translate_kernel (s : State) (va : Word) (k : AccessKind) (h : s.kernelMode = true) :
    s.translate va k = some va := by simp [State.translate, h]

/-- With paging off nothing is translated (R90 step 2). -/
@[simp] theorem State.translate_pagingOff (s : State) (va : Word) (k : AccessKind) (h : s.pagingEnabled = false) :
    s.translate va k = some va := by simp [State.translate, h]

/-- What a successful translation in user mode with paging on has found (R90 steps 3 to 11). -/
theorem State.translate_eq_some {s : State} {va pa : Word} {k : AccessKind} (hk : s.kernelMode = false)
    (hp : s.pagingEnabled = true) :
    s.translate va k = some pa ↔
      (vpnOf va).toNat < s.numPages.toNat ∧ (s.pteAddr va).toNat + 4 ≤ s.memorySize.toNat ∧
        ptePermits (s.mem.readLE (s.pteAddr va).toNat 4) k = true ∧
        pa = physOf (s.mem.readLE (s.pteAddr va).toNat 4) va := by
  unfold State.translate State.physRead
  simp only [hk, hp, Bool.false_eq_true, Bool.not_true, if_false, State.inBounds_iff]
  by_cases h1 : s.numPages.toNat ≤ (vpnOf va).toNat
  · simp [h1]
  · by_cases h2 : (s.pteAddr va).toNat + 4 ≤ s.memorySize.toNat
    · by_cases h3 : ptePermits (s.mem.readLE (s.pteAddr va).toNat 4) k = true
      · simp [h1, h2, h3, eq_comm]; omega
      · simp [h1, h2, h3]
    · simp [h1, h2]

/-- The virtual page number in numbers (R90 step 3). -/
theorem toNat_vpnOf (va : Word) : (vpnOf va).toNat = va.toNat / 4096 := by
  simp [vpnOf, Nat.shiftRight_eq_div_pow]

/-- The address of a PTE in numbers, modulo 2 ^ 32 (R92, D14). -/
theorem State.toNat_pteAddr (s : State) (va : Word) : (s.pteAddr va).toNat = (s.pageTableBase.toNat + 4 * (va.toNat / 4096)) % 2 ^ 32 := by
  have := va.isLt
  simp [State.pteAddr, toNat_vpnOf, Nat.shiftLeft_eq]; omega

/-- The physical address in numbers: the page of the PTE and the offset of the address (R90 step 11). -/
theorem toNat_physOf (pte va : Word) : (physOf pte va).toNat = pte.toNat / 4096 * 4096 + va.toNat % 4096 := by
  have h : physOf pte va = (pte.extractLsb' 12 20 ++ va.extractLsb' 0 12 : BitVec 32) := by
    apply BitVec.eq_of_getLsbD_eq
    intro i hi
    have h1 : ∀ i, i < 32 → (0xFFFFF000 : Word).getLsbD i = decide (12 ≤ i) := by decide
    have h2 : ∀ i, i < 32 → (0x00000FFF : Word).getLsbD i = decide (i < 12) := by decide
    rw [physOf, BitVec.getLsbD_or, BitVec.getLsbD_and, BitVec.getLsbD_and, h1 i hi, h2 i hi, BitVec.getLsbD_append,
      BitVec.getLsbD_extractLsb', BitVec.getLsbD_extractLsb']
    by_cases h : i < 12
    · simp [h, show ¬ 12 ≤ i by omega]
    · simp [h, show 12 ≤ i by omega, show i - 12 < 20 by omega]
  rw [h, BitVec.toNat_append, BitVec.extractLsb'_toNat, BitVec.extractLsb'_toNat, ← Nat.shiftLeft_add_eq_or_of_lt (by omega)]
  have := pte.isLt
  simp [Nat.shiftLeft_eq, Nat.shiftRight_eq_div_pow]; omega

/-! ### Data accesses -/

theorem State.memRead_eq_ok {s : State} {ea v : Word} {sz : Size} (h : s.memRead ea sz = .ok v) :
    s.refusesMisaligned ea sz = false ∧ ∃ pa, s.translate ea .read = some pa ∧
      pa.toNat + sz.bytes ≤ s.memorySize.toNat ∧ v = s.mem.readLE pa.toNat sz.bytes := by
  unfold State.memRead at h
  split at h
  · cases h
  · rename_i hm
    split at h
    · cases h
    · rename_i pa hpa
      split at h
      · cases h
      · rename_i w hw
        cases h
        obtain ⟨hb, hv⟩ := State.physRead_eq_some.1 hw
        exact ⟨by simpa using hm, pa, hpa, hb, hv.symm⟩

/-- A read that raises: PAGE_FAULT when the translation fails, MEM_FAULT when the bounds check then fails (R66, R70). -/
theorem State.memRead_eq_raised {s : State} {ea : Word} {sz : Size} {n : IntNum} (h : s.memRead ea sz = .raised n) :
    (n = intPageFault ∧ s.translate ea .read = none) ∨
      (n = intMemFault ∧ ∃ pa, s.translate ea .read = some pa ∧ s.memorySize.toNat < pa.toNat + sz.bytes) := by
  unfold State.memRead at h
  split at h
  · cases h
  · split at h
    · rename_i hpa; cases h; exact .inl ⟨rfl, hpa⟩
    · rename_i pa hpa
      split at h
      · rename_i hb; cases h; exact .inr ⟨rfl, pa, hpa, State.physRead_eq_none.1 hb⟩
      · cases h

theorem State.memWrite_eq_ok {s t : State} {ea v : Word} {sz : Size} (h : s.memWrite ea sz v = .ok t) :
    s.refusesMisaligned ea sz = false ∧ ∃ pa, s.translate ea .write = some pa ∧
      pa.toNat + sz.bytes ≤ s.memorySize.toNat ∧ t = { s with mem := s.mem.writeLE pa.toNat sz.bytes v } := by
  unfold State.memWrite at h
  split at h
  · cases h
  · rename_i hm
    split at h
    · cases h
    · rename_i pa hpa
      split at h
      · cases h
      · rename_i u hu
        cases h
        obtain ⟨hb, hv⟩ := State.physWrite_eq_some.1 hu
        exact ⟨by simpa using hm, pa, hpa, hb, hv⟩

/-- A write that raises: PAGE_FAULT when the translation fails, MEM_FAULT when the bounds check then fails (R66, R71). -/
theorem State.memWrite_eq_raised {s : State} {ea v : Word} {sz : Size} {n : IntNum}
    (h : s.memWrite ea sz v = .raised n) :
    (n = intPageFault ∧ s.translate ea .write = none) ∨
      (n = intMemFault ∧ ∃ pa, s.translate ea .write = some pa ∧ s.memorySize.toNat < pa.toNat + sz.bytes) := by
  unfold State.memWrite at h
  split at h
  · cases h
  · split at h
    · rename_i hpa; cases h; exact .inl ⟨rfl, hpa⟩
    · rename_i pa hpa
      split at h
      · rename_i hb; cases h; exact .inr ⟨rfl, pa, hpa, State.physWrite_eq_none.1 hb⟩
      · cases h

/-- A data read whose checks pass (R70). -/
theorem State.memRead_ok {s : State} {ea pa : Word} {sz : Size} (ha : s.refusesMisaligned ea sz = false)
    (ht : s.translate ea .read = some pa) (hb : pa.toNat + sz.bytes ≤ s.memorySize.toNat) :
    s.memRead ea sz = .ok (s.mem.readLE pa.toNat sz.bytes) := by
  simp [State.memRead, ha, ht, State.physRead_eq_some.2 ⟨hb, rfl⟩]

/-- A data read whose translation fails (R70). -/
theorem State.memRead_pageFault {s : State} {ea : Word} {sz : Size} (ha : s.refusesMisaligned ea sz = false)
    (ht : s.translate ea .read = none) : s.memRead ea sz = .raised intPageFault := by
  simp [State.memRead, ha, ht]

/-- A data read beyond the end of memory (R70). -/
theorem State.memRead_memFault {s : State} {ea pa : Word} {sz : Size} (ha : s.refusesMisaligned ea sz = false)
    (ht : s.translate ea .read = some pa) (hb : s.memorySize.toNat < pa.toNat + sz.bytes) :
    s.memRead ea sz = .raised intMemFault := by
  simp [State.memRead, ha, ht, State.physRead_eq_none.2 hb]

/-- A data write whose checks pass (R71). -/
theorem State.memWrite_ok {s : State} {ea pa v : Word} {sz : Size} (ha : s.refusesMisaligned ea sz = false)
    (ht : s.translate ea .write = some pa) (hb : pa.toNat + sz.bytes ≤ s.memorySize.toNat) :
    s.memWrite ea sz v = .ok { s with mem := s.mem.writeLE pa.toNat sz.bytes v } := by
  simp [State.memWrite, ha, ht, State.physWrite_eq_some.2 ⟨hb, rfl⟩]

/-- A data write whose translation fails (R71). -/
theorem State.memWrite_pageFault {s : State} {ea v : Word} {sz : Size} (ha : s.refusesMisaligned ea sz = false)
    (ht : s.translate ea .write = none) : s.memWrite ea sz v = .raised intPageFault := by
  simp [State.memWrite, ha, ht]

/-- A data write beyond the end of memory (R71). -/
theorem State.memWrite_memFault {s : State} {ea pa v : Word} {sz : Size} (ha : s.refusesMisaligned ea sz = false)
    (ht : s.translate ea .write = some pa) (hb : s.memorySize.toNat < pa.toNat + sz.bytes) :
    s.memWrite ea sz v = .raised intMemFault := by
  simp [State.memWrite, ha, ht, State.physWrite_eq_none.2 hb]

/-- A data read is refused exactly when the model refuses its alignment (R67). -/
theorem State.memRead_eq_misaligned {s : State} {ea : Word} {sz : Size} :
    s.memRead ea sz = .misaligned ↔ s.refusesMisaligned ea sz = true := by
  unfold State.memRead
  cases s.refusesMisaligned ea sz with
  | true => simp
  | false =>
    simp only [Bool.false_eq_true, if_false, iff_false]
    split
    · simp
    · split <;> simp

/-- A data write is refused exactly when the model refuses its alignment (R67). -/
theorem State.memWrite_eq_misaligned {s : State} {ea v : Word} {sz : Size} :
    s.memWrite ea sz v = .misaligned ↔ s.refusesMisaligned ea sz = true := by
  unfold State.memWrite
  cases s.refusesMisaligned ea sz with
  | true => simp
  | false =>
    simp only [Bool.false_eq_true, if_false, iff_false]
    split
    · simp
    · split <;> simp

/-- The model refuses an alignment only under MISALIGNED_DATA = refuse (R67, D1). -/
theorem State.refusesMisaligned_eq_true {s : State} {ea : Word} {sz : Size} :
    s.refusesMisaligned ea sz = true ↔ s.cfg.misalignedData = .refuse ∧ ea.toNat % sz.bytes ≠ 0 := by
  unfold State.refusesMisaligned; cases s.cfg.misalignedData <;> simp

/-- A byte access is always aligned (R67). -/
@[simp] theorem State.refusesMisaligned_byte (s : State) (ea : Word) : s.refusesMisaligned ea .byte = false := by
  unfold State.refusesMisaligned; split <;> simp [Size.bytes, Nat.mod_one]

/-! ### Loads and stores -/

/-- A load that goes on: it writes rt, or it raises and writes nothing (R219). -/
theorem load_eq_next {sz : Size} {ext : Word → Word} {rt rs : Reg} {imm : Word} {s t : State}
    (h : load sz ext rt rs imm s = .next t) :
    (∃ v, s.memRead (s.effectiveAddr rs imm) sz = .ok v ∧ t = s.setReg rt (ext v)) ∨
      (∃ n, ((n = intPageFault ∧ s.translate (s.effectiveAddr rs imm) .read = none) ∨
          (n = intMemFault ∧ ∃ pa, s.translate (s.effectiveAddr rs imm) .read = some pa ∧
            s.memorySize.toNat < pa.toNat + sz.bytes)) ∧
        t = s.raiseFault n) := by
  unfold load at h
  split at h
  · rename_i v hv; cases h; exact .inl ⟨v, hv, rfl⟩
  · rename_i n hn; cases h
    exact .inr ⟨n, State.memRead_eq_raised hn, rfl⟩
  · cases h

/-- A store that goes on: it writes its bytes, or it raises and writes nothing (R219). -/
theorem store_eq_next {sz : Size} {rt rs : Reg} {imm : Word} {s t : State} (h : store sz rt rs imm s = .next t) :
    (∃ pa, s.refusesMisaligned (s.effectiveAddr rs imm) sz = false ∧
        s.translate (s.effectiveAddr rs imm) .write = some pa ∧ pa.toNat + sz.bytes ≤ s.memorySize.toNat ∧
        t = { s with mem := s.mem.writeLE pa.toNat sz.bytes (s.readReg rt) }) ∨
      (∃ n, ((n = intPageFault ∧ s.translate (s.effectiveAddr rs imm) .write = none) ∨
          (n = intMemFault ∧ ∃ pa, s.translate (s.effectiveAddr rs imm) .write = some pa ∧
            s.memorySize.toNat < pa.toNat + sz.bytes)) ∧
        t = s.raiseFault n) := by
  unfold store at h
  split at h
  · rename_i u hu; cases h
    obtain ⟨hm, pa, h1, h2, h3⟩ := State.memWrite_eq_ok hu
    exact .inl ⟨pa, hm, h1, h2, h3⟩
  · rename_i n hn; cases h
    exact .inr ⟨n, State.memWrite_eq_raised hn, rfl⟩
  · cases h

/-- A load answers with one refusal, for its alignment (R67). -/
theorem load_eq_refused {sz : Size} {ext : Word → Word} {rt rs : Reg} {imm : Word} {s : State} {r : Refusal} :
    load sz ext rt rs imm s = .refused r ↔
      r = .misalignedData ∧ s.refusesMisaligned (s.effectiveAddr rs imm) sz = true := by
  rw [← State.memRead_eq_misaligned]
  unfold load
  cases s.memRead (s.effectiveAddr rs imm) sz <;> simp [eq_comm]

/-- A store answers with one refusal, for its alignment (R67). -/
theorem store_eq_refused {sz : Size} {rt rs : Reg} {imm : Word} {s : State} {r : Refusal} :
    store sz rt rs imm s = .refused r ↔
      r = .misalignedData ∧ s.refusesMisaligned (s.effectiveAddr rs imm) sz = true := by
  rw [← State.memWrite_eq_misaligned (v := s.readReg rt)]
  unfold store
  cases s.memWrite (s.effectiveAddr rs imm) sz (s.readReg rt) <;> simp [eq_comm]

/-- A load never answers with a fault. -/
theorem load_ne_fault {sz : Size} {ext : Word → Word} {rt rs : Reg} {imm : Word} {s : State} {f : Fault} :
    load sz ext rt rs imm s ≠ .fault f := nomatch f

end Sys2Proof.Machine
end

