-- ==== Sys2Proof/Laws/Decode.lean ====
section
/-! SUPPORT. The laws of decoding and encoding: fields and bytes agree, and what each form's decoder accepts. -/

namespace Sys2Proof

/-! ### Registers and bytes -/

@[simp] theorem toNat_regByte (r : Reg) : (regByte r).toNat = r.val := by
  have := r.isLt
  simp [regByte]; omega

@[simp] theorem regField_regByte (r : Reg) : regField (regByte r) = some r := by
  unfold regField; simp [r.isLt]

/-- A raw field names a register exactly when it is that register's byte (R126). -/
theorem regField_eq_some {b : Byte} {r : Reg} : regField b = some r ↔ b = regByte r := by
  constructor
  · intro h
    unfold regField at h
    split at h
    · cases h; exact BitVec.eq_of_toNat_eq (by simp)
    · cases h
  · rintro rfl; exact regField_regByte r

theorem regField_eq_none {b : Byte} : regField b = none ↔ namesRegister b = false := by
  unfold regField namesRegister; split <;> simp_all

/-- A raw field that names a register is in range, one that names none is not. -/
theorem namesRegister_eq (b : Byte) : namesRegister b = (regField b).isSome := by
  unfold regField namesRegister; split <;> simp_all

/-- The four bytes of an immediate, joined again, are the immediate (R122). -/
theorem imm_bytes_append (v : Word) :
    (v.extractLsb' 24 8 ++ v.extractLsb' 16 8 ++ v.extractLsb' 8 8 ++ v.extractLsb' 0 8 : BitVec 32) = v := by
  apply BitVec.eq_of_getLsbD_eq
  intro i hi
  simp only [BitVec.getLsbD_append, BitVec.getLsbD_extractLsb']
  by_cases h1 : i < 8
  · simp [h1]
  · by_cases h2 : i < 16
    · simp [h1, show i - 8 < 8 by omega, show 8 + (i - 8) = i by omega]
    · by_cases h3 : i < 24
      · simp [h1, show ¬(i - 8 < 8) by omega, show i - 8 - 8 < 8 by omega, show 16 + (i - 8 - 8) = i by omega]
      · simp [h1, show ¬(i - 8 < 8) by omega, show ¬(i - 8 - 8 < 8) by omega, show i - 8 - 8 - 8 < 8 by omega,
          show 24 + (i - 8 - 8 - 8) = i by omega]

/-- The fields of five fields' bytes are the fields (R122). -/
@[simp] theorem ofBytes_bytes (f : Fields) : Fields.ofBytes f.bytes = some f := by
  obtain ⟨op, rs, rt, rd, imm⟩ := f
  simp only [Fields.bytes, Fields.ofBytes, imm_bytes_append]

@[simp] theorem decode_bytes (f : Fields) : decode f.bytes = decodeFields f := by
  simp [decode]

/-- Eight bytes are the bytes of their fields: no bit of an instruction is outside the five fields (R121, R122). -/
theorem bytes_of_ofBytes {bs : List Byte} {f : Fields} (hl : bs.length = 8) (h : Fields.ofBytes bs = some f) :
    f.bytes = bs := by
  match bs, hl with
  | [b0, b1, b2, b3, b4, b5, b6, b7], _ =>
    cases h
    simp only [Fields.bytes, List.cons.injEq, true_and, and_true]
    refine ⟨?_, ?_, ?_, ?_⟩ <;> apply BitVec.eq_of_getLsbD_eq <;> intro i hi <;>
      simp only [BitVec.getLsbD_extractLsb', BitVec.getLsbD_append, hi, decide_true, Bool.true_and]
    · simp [hi]
    · simp [hi]
    · simp [hi, show ¬(16 + i < 8) by omega, show ¬(16 + i - 8 < 8) by omega, show 16 + i - 8 - 8 = i by omega]
    · simp [hi, show ¬(24 + i < 8) by omega, show ¬(24 + i - 8 < 8) by omega, show ¬(24 + i - 8 - 8 < 8) by omega,
        show 24 + i - 8 - 8 - 8 = i by omega]

/-- Every list of eight bytes is the bytes of some fields. -/
theorem exists_fields {bs : List Byte} (hl : bs.length = 8) : ∃ f : Fields, bs = f.bytes := by
  match bs, hl with
  | [b0, b1, b2, b3, b4, b5, b6, b7], hl =>
    exact ⟨⟨b0, b1, b2, b3, b7 ++ b6 ++ b5 ++ b4⟩, (bytes_of_ofBytes hl rfl).symm⟩

/-! ### The table's word W (R121) -/

/-- The fields of the word of five fields are the fields (R121). -/
@[simp] theorem ofWord_word (f : Fields) : Fields.ofWord f.word = f := by
  obtain ⟨op, rs, rt, rd, imm⟩ := f
  simp only [Fields.word, Fields.ofWord, Fields.mk.injEq]
  refine ⟨?_, ?_, ?_, ?_, ?_⟩ <;> apply BitVec.eq_of_getLsbD_eq <;> intro i hi <;>
    simp only [BitVec.getLsbD_extractLsb', BitVec.getLsbD_append, hi, decide_true, Bool.true_and]
  · simp [show ¬(56 + i < 32) by omega, show ¬(56 + i - 32 < 8) by omega, show ¬(56 + i - 32 - 8 < 8) by omega,
      show ¬(56 + i - 32 - 8 - 8 < 8) by omega, show 56 + i - 32 - 8 - 8 - 8 = i by omega]
  · simp [show ¬(48 + i < 32) by omega, show ¬(48 + i - 32 < 8) by omega, show ¬(48 + i - 32 - 8 < 8) by omega,
      show 48 + i - 32 - 8 - 8 = i by omega, Nat.not_le_of_lt hi]
  · simp [show ¬(40 + i < 32) by omega, show ¬(40 + i - 32 < 8) by omega,
      show 40 + i - 32 - 8 = i by omega, Nat.not_le_of_lt hi]
  · simp [show ¬(32 + i < 32) by omega, show 32 + i - 32 = i by omega, Nat.not_le_of_lt hi]
  · simp [hi]

/-- The bytes in memory of a full-width word of the table. -/
theorem tableBytes_word (f : Fields) : tableBytes 64 f.word.toNat = f.bytes := by
  have h : f.word.toNat * 2 ^ (64 - 64) = f.word.toNat := by simp
  rw [tableBytes, h, BitVec.ofNat_toNat, BitVec.setWidth_eq, ofWord_word]

/-! ### The decoder row by row (R135) -/

@[simp] theorem decodeFields_00 (rs rt rd : Byte) (imm : Word) :
    decodeFields ⟨0x00#8, rs, rt, rd, imm⟩ = .ok .nop := by
  simp [decodeFields, decodeArithmetic]
@[simp] theorem decodeFields_01 (rs rt rd : Byte) (imm : Word) :
    decodeFields ⟨0x01#8, rs, rt, rd, imm⟩ = decodeR3 .add ⟨0x01#8, rs, rt, rd, imm⟩ := by
  simp [decodeFields, decodeArithmetic]
@[simp] theorem decodeFields_02 (rs rt rd : Byte) (imm : Word) :
    decodeFields ⟨0x02#8, rs, rt, rd, imm⟩ = decodeR3 .addu ⟨0x02#8, rs, rt, rd, imm⟩ := by
  simp [decodeFields, decodeArithmetic]
@[simp] theorem decodeFields_03 (rs rt rd : Byte) (imm : Word) :
    decodeFields ⟨0x03#8, rs, rt, rd, imm⟩ = decodeR3 .sub ⟨0x03#8, rs, rt, rd, imm⟩ := by
  simp [decodeFields, decodeArithmetic]
@[simp] theorem decodeFields_04 (rs rt rd : Byte) (imm : Word) :
    decodeFields ⟨0x04#8, rs, rt, rd, imm⟩ = decodeR3 .subu ⟨0x04#8, rs, rt, rd, imm⟩ := by
  simp [decodeFields, decodeArithmetic]
@[simp] theorem decodeFields_05 (rs rt rd : Byte) (imm : Word) :
    decodeFields ⟨0x05#8, rs, rt, rd, imm⟩ = decodeI .addi ⟨0x05#8, rs, rt, rd, imm⟩ := by
  simp [decodeFields, decodeArithmetic]
@[simp] theorem decodeFields_06 (rs rt rd : Byte) (imm : Word) :
    decodeFields ⟨0x06#8, rs, rt, rd, imm⟩ = decodeI .addiu ⟨0x06#8, rs, rt, rd, imm⟩ := by
  simp [decodeFields, decodeArithmetic]
@[simp] theorem decodeFields_10 (rs rt rd : Byte) (imm : Word) :
    decodeFields ⟨0x10#8, rs, rt, rd, imm⟩ = decodeR3 .and ⟨0x10#8, rs, rt, rd, imm⟩ := by
  simp [decodeFields, decodeLogical]
@[simp] theorem decodeFields_11 (rs rt rd : Byte) (imm : Word) :
    decodeFields ⟨0x11#8, rs, rt, rd, imm⟩ = decodeR3 .or ⟨0x11#8, rs, rt, rd, imm⟩ := by
  simp [decodeFields, decodeLogical]
@[simp] theorem decodeFields_12 (rs rt rd : Byte) (imm : Word) :
    decodeFields ⟨0x12#8, rs, rt, rd, imm⟩ = decodeR3 .xor ⟨0x12#8, rs, rt, rd, imm⟩ := by
  simp [decodeFields, decodeLogical]
@[simp] theorem decodeFields_13 (rs rt rd : Byte) (imm : Word) :
    decodeFields ⟨0x13#8, rs, rt, rd, imm⟩ = decodeR3 .nor ⟨0x13#8, rs, rt, rd, imm⟩ := by
  simp [decodeFields, decodeLogical]
@[simp] theorem decodeFields_14 (rs rt rd : Byte) (imm : Word) :
    decodeFields ⟨0x14#8, rs, rt, rd, imm⟩ = decodeI .andi ⟨0x14#8, rs, rt, rd, imm⟩ := by
  simp [decodeFields, decodeLogical]
@[simp] theorem decodeFields_15 (rs rt rd : Byte) (imm : Word) :
    decodeFields ⟨0x15#8, rs, rt, rd, imm⟩ = decodeI .ori ⟨0x15#8, rs, rt, rd, imm⟩ := by
  simp [decodeFields, decodeLogical]
@[simp] theorem decodeFields_16 (rs rt rd : Byte) (imm : Word) :
    decodeFields ⟨0x16#8, rs, rt, rd, imm⟩ = decodeI .xori ⟨0x16#8, rs, rt, rd, imm⟩ := by
  simp [decodeFields, decodeLogical]
@[simp] theorem decodeFields_17 (rs rt rd : Byte) (imm : Word) :
    decodeFields ⟨0x17#8, rs, rt, rd, imm⟩ = decodeLui .lui ⟨0x17#8, rs, rt, rd, imm⟩ := by
  simp [decodeFields, decodeLogical]
@[simp] theorem decodeFields_20 (rs rt rd : Byte) (imm : Word) :
    decodeFields ⟨0x20#8, rs, rt, rd, imm⟩ = decodeShi .sll ⟨0x20#8, rs, rt, rd, imm⟩ := by
  simp [decodeFields, decodeShift]
@[simp] theorem decodeFields_21 (rs rt rd : Byte) (imm : Word) :
    decodeFields ⟨0x21#8, rs, rt, rd, imm⟩ = decodeShi .srl ⟨0x21#8, rs, rt, rd, imm⟩ := by
  simp [decodeFields, decodeShift]
@[simp] theorem decodeFields_22 (rs rt rd : Byte) (imm : Word) :
    decodeFields ⟨0x22#8, rs, rt, rd, imm⟩ = decodeShi .sra ⟨0x22#8, rs, rt, rd, imm⟩ := by
  simp [decodeFields, decodeShift]
@[simp] theorem decodeFields_23 (rs rt rd : Byte) (imm : Word) :
    decodeFields ⟨0x23#8, rs, rt, rd, imm⟩ = decodeShv .sllv ⟨0x23#8, rs, rt, rd, imm⟩ := by
  simp [decodeFields, decodeShift]
@[simp] theorem decodeFields_24 (rs rt rd : Byte) (imm : Word) :
    decodeFields ⟨0x24#8, rs, rt, rd, imm⟩ = decodeShv .srlv ⟨0x24#8, rs, rt, rd, imm⟩ := by
  simp [decodeFields, decodeShift]
@[simp] theorem decodeFields_25 (rs rt rd : Byte) (imm : Word) :
    decodeFields ⟨0x25#8, rs, rt, rd, imm⟩ = decodeShv .srav ⟨0x25#8, rs, rt, rd, imm⟩ := by
  simp [decodeFields, decodeShift]
@[simp] theorem decodeFields_30 (rs rt rd : Byte) (imm : Word) :
    decodeFields ⟨0x30#8, rs, rt, rd, imm⟩ = decodeR3 .slt ⟨0x30#8, rs, rt, rd, imm⟩ := by
  simp [decodeFields, decodeCompare]
@[simp] theorem decodeFields_31 (rs rt rd : Byte) (imm : Word) :
    decodeFields ⟨0x31#8, rs, rt, rd, imm⟩ = decodeR3 .sltu ⟨0x31#8, rs, rt, rd, imm⟩ := by
  simp [decodeFields, decodeCompare]
@[simp] theorem decodeFields_32 (rs rt rd : Byte) (imm : Word) :
    decodeFields ⟨0x32#8, rs, rt, rd, imm⟩ = decodeI .slti ⟨0x32#8, rs, rt, rd, imm⟩ := by
  simp [decodeFields, decodeCompare]
@[simp] theorem decodeFields_33 (rs rt rd : Byte) (imm : Word) :
    decodeFields ⟨0x33#8, rs, rt, rd, imm⟩ = decodeI .sltiu ⟨0x33#8, rs, rt, rd, imm⟩ := by
  simp [decodeFields, decodeCompare]
@[simp] theorem decodeFields_40 (rs rt rd : Byte) (imm : Word) :
    decodeFields ⟨0x40#8, rs, rt, rd, imm⟩ = decodeR3 .mul ⟨0x40#8, rs, rt, rd, imm⟩ := by
  simp [decodeFields, decodeMultiply]
@[simp] theorem decodeFields_41 (rs rt rd : Byte) (imm : Word) :
    decodeFields ⟨0x41#8, rs, rt, rd, imm⟩ = decodeR3 .mulh ⟨0x41#8, rs, rt, rd, imm⟩ := by
  simp [decodeFields, decodeMultiply]
@[simp] theorem decodeFields_42 (rs rt rd : Byte) (imm : Word) :
    decodeFields ⟨0x42#8, rs, rt, rd, imm⟩ = decodeR3 .mulhu ⟨0x42#8, rs, rt, rd, imm⟩ := by
  simp [decodeFields, decodeMultiply]
@[simp] theorem decodeFields_43 (rs rt rd : Byte) (imm : Word) :
    decodeFields ⟨0x43#8, rs, rt, rd, imm⟩ = decodeR3 .div ⟨0x43#8, rs, rt, rd, imm⟩ := by
  simp [decodeFields, decodeMultiply]
@[simp] theorem decodeFields_44 (rs rt rd : Byte) (imm : Word) :
    decodeFields ⟨0x44#8, rs, rt, rd, imm⟩ = decodeR3 .divu ⟨0x44#8, rs, rt, rd, imm⟩ := by
  simp [decodeFields, decodeMultiply]
@[simp] theorem decodeFields_45 (rs rt rd : Byte) (imm : Word) :
    decodeFields ⟨0x45#8, rs, rt, rd, imm⟩ = decodeR3 .rem ⟨0x45#8, rs, rt, rd, imm⟩ := by
  simp [decodeFields, decodeMultiply]
@[simp] theorem decodeFields_46 (rs rt rd : Byte) (imm : Word) :
    decodeFields ⟨0x46#8, rs, rt, rd, imm⟩ = decodeR3 .remu ⟨0x46#8, rs, rt, rd, imm⟩ := by
  simp [decodeFields, decodeMultiply]
@[simp] theorem decodeFields_50 (rs rt rd : Byte) (imm : Word) :
    decodeFields ⟨0x50#8, rs, rt, rd, imm⟩ = decodeM .lw ⟨0x50#8, rs, rt, rd, imm⟩ := by
  simp [decodeFields, decodeLoadStore]
@[simp] theorem decodeFields_51 (rs rt rd : Byte) (imm : Word) :
    decodeFields ⟨0x51#8, rs, rt, rd, imm⟩ = decodeM .lh ⟨0x51#8, rs, rt, rd, imm⟩ := by
  simp [decodeFields, decodeLoadStore]
@[simp] theorem decodeFields_52 (rs rt rd : Byte) (imm : Word) :
    decodeFields ⟨0x52#8, rs, rt, rd, imm⟩ = decodeM .lhu ⟨0x52#8, rs, rt, rd, imm⟩ := by
  simp [decodeFields, decodeLoadStore]
@[simp] theorem decodeFields_53 (rs rt rd : Byte) (imm : Word) :
    decodeFields ⟨0x53#8, rs, rt, rd, imm⟩ = decodeM .lb ⟨0x53#8, rs, rt, rd, imm⟩ := by
  simp [decodeFields, decodeLoadStore]
@[simp] theorem decodeFields_54 (rs rt rd : Byte) (imm : Word) :
    decodeFields ⟨0x54#8, rs, rt, rd, imm⟩ = decodeM .lbu ⟨0x54#8, rs, rt, rd, imm⟩ := by
  simp [decodeFields, decodeLoadStore]
@[simp] theorem decodeFields_58 (rs rt rd : Byte) (imm : Word) :
    decodeFields ⟨0x58#8, rs, rt, rd, imm⟩ = decodeM .sw ⟨0x58#8, rs, rt, rd, imm⟩ := by
  simp [decodeFields, decodeLoadStore]
@[simp] theorem decodeFields_59 (rs rt rd : Byte) (imm : Word) :
    decodeFields ⟨0x59#8, rs, rt, rd, imm⟩ = decodeM .sh ⟨0x59#8, rs, rt, rd, imm⟩ := by
  simp [decodeFields, decodeLoadStore]
@[simp] theorem decodeFields_5a (rs rt rd : Byte) (imm : Word) :
    decodeFields ⟨0x5A#8, rs, rt, rd, imm⟩ = decodeM .sb ⟨0x5A#8, rs, rt, rd, imm⟩ := by
  simp [decodeFields, decodeLoadStore]
@[simp] theorem decodeFields_60 (rs rt rd : Byte) (imm : Word) :
    decodeFields ⟨0x60#8, rs, rt, rd, imm⟩ = decodeB2 .beq ⟨0x60#8, rs, rt, rd, imm⟩ := by
  simp [decodeFields, decodeBranch]
@[simp] theorem decodeFields_61 (rs rt rd : Byte) (imm : Word) :
    decodeFields ⟨0x61#8, rs, rt, rd, imm⟩ = decodeB2 .bne ⟨0x61#8, rs, rt, rd, imm⟩ := by
  simp [decodeFields, decodeBranch]
@[simp] theorem decodeFields_62 (rs rt rd : Byte) (imm : Word) :
    decodeFields ⟨0x62#8, rs, rt, rd, imm⟩ = decodeB1 .blez ⟨0x62#8, rs, rt, rd, imm⟩ := by
  simp [decodeFields, decodeBranch]
@[simp] theorem decodeFields_63 (rs rt rd : Byte) (imm : Word) :
    decodeFields ⟨0x63#8, rs, rt, rd, imm⟩ = decodeB1 .bgtz ⟨0x63#8, rs, rt, rd, imm⟩ := by
  simp [decodeFields, decodeBranch]
@[simp] theorem decodeFields_64 (rs rt rd : Byte) (imm : Word) :
    decodeFields ⟨0x64#8, rs, rt, rd, imm⟩ = decodeB1 .bltz ⟨0x64#8, rs, rt, rd, imm⟩ := by
  simp [decodeFields, decodeBranch]
@[simp] theorem decodeFields_65 (rs rt rd : Byte) (imm : Word) :
    decodeFields ⟨0x65#8, rs, rt, rd, imm⟩ = decodeB1 .bgez ⟨0x65#8, rs, rt, rd, imm⟩ := by
  simp [decodeFields, decodeBranch]
@[simp] theorem decodeFields_70 (rs rt rd : Byte) (imm : Word) :
    decodeFields ⟨0x70#8, rs, rt, rd, imm⟩ = .ok (.j imm) := by
  simp [decodeFields, decodeJump]
@[simp] theorem decodeFields_71 (rs rt rd : Byte) (imm : Word) :
    decodeFields ⟨0x71#8, rs, rt, rd, imm⟩ = .ok (.jal imm) := by
  simp [decodeFields, decodeJump]
@[simp] theorem decodeFields_72 (rs rt rd : Byte) (imm : Word) :
    decodeFields ⟨0x72#8, rs, rt, rd, imm⟩ = decodeJr .jr ⟨0x72#8, rs, rt, rd, imm⟩ := by
  simp [decodeFields, decodeJump]
@[simp] theorem decodeFields_73 (rs rt rd : Byte) (imm : Word) :
    decodeFields ⟨0x73#8, rs, rt, rd, imm⟩ = decodeJalr .jalr ⟨0x73#8, rs, rt, rd, imm⟩ := by
  simp [decodeFields, decodeJump]
@[simp] theorem decodeFields_f0 (rs rt rd : Byte) (imm : Word) :
    decodeFields ⟨0xF0#8, rs, rt, rd, imm⟩ = .ok .syscall := by
  simp [decodeFields, decodeSystem]
@[simp] theorem decodeFields_f1 (rs rt rd : Byte) (imm : Word) :
    decodeFields ⟨0xF1#8, rs, rt, rd, imm⟩ = .ok .brk := by
  simp [decodeFields, decodeSystem]
@[simp] theorem decodeFields_f2 (rs rt rd : Byte) (imm : Word) :
    decodeFields ⟨0xF2#8, rs, rt, rd, imm⟩ = .ok .ei := by
  simp [decodeFields, decodeSystem]
@[simp] theorem decodeFields_f3 (rs rt rd : Byte) (imm : Word) :
    decodeFields ⟨0xF3#8, rs, rt, rd, imm⟩ = .ok .di := by
  simp [decodeFields, decodeSystem]
@[simp] theorem decodeFields_f4 (rs rt rd : Byte) (imm : Word) :
    decodeFields ⟨0xF4#8, rs, rt, rd, imm⟩ = .ok .iret := by
  simp [decodeFields, decodeSystem]
@[simp] theorem decodeFields_f5 (rs rt rd : Byte) (imm : Word) :
    decodeFields ⟨0xF5#8, rs, rt, rd, imm⟩ = .ok (.raise imm) := by
  simp [decodeFields, decodeSystem]
@[simp] theorem decodeFields_f6 (rs rt rd : Byte) (imm : Word) :
    decodeFields ⟨0xF6#8, rs, rt, rd, imm⟩ = decodeRd .getpc ⟨0xF6#8, rs, rt, rd, imm⟩ := by
  simp [decodeFields, decodeSystem]
@[simp] theorem decodeFields_f7 (rs rt rd : Byte) (imm : Word) :
    decodeFields ⟨0xF7#8, rs, rt, rd, imm⟩ = .ok .enablePaging := by
  simp [decodeFields, decodeSystem]
@[simp] theorem decodeFields_f8 (rs rt rd : Byte) (imm : Word) :
    decodeFields ⟨0xF8#8, rs, rt, rd, imm⟩ = .ok .disablePaging := by
  simp [decodeFields, decodeSystem]
@[simp] theorem decodeFields_f9 (rs rt rd : Byte) (imm : Word) :
    decodeFields ⟨0xF9#8, rs, rt, rd, imm⟩ = decodePtbr .setPtbr ⟨0xF9#8, rs, rt, rd, imm⟩ := by
  simp [decodeFields, decodeSystem]
@[simp] theorem decodeFields_fb (rs rt rd : Byte) (imm : Word) :
    decodeFields ⟨0xFB#8, rs, rt, rd, imm⟩ = .ok .enterUser := by
  simp [decodeFields, decodeSystem]
@[simp] theorem decodeFields_fc (rs rt rd : Byte) (imm : Word) :
    decodeFields ⟨0xFC#8, rs, rt, rd, imm⟩ = decodeRd .getmode ⟨0xFC#8, rs, rt, rd, imm⟩ := by
  simp [decodeFields, decodeSystem]

/-- An assigned opcode is a row of the opcode map (R135). -/
theorem formOf_mem {op : Byte} {form : Form} (h : formOf op = some form) : (op.toNat, form) ∈ opcodeForms := by
  have key : ∀ (l : List (Nat × Form)) (k : Nat), l.lookup k = some form → (k, form) ∈ l := by
    intro l k
    induction l with
    | nil => intro h; cases h
    | cons c l ih =>
      obtain ⟨j, g⟩ := c
      intro h
      rw [List.lookup_cons] at h
      by_cases hk : k = j
      · subst hk; simp at h; simp [h]
      · rw [show (k == j) = false by simpa using hk] at h
        exact List.mem_cons_of_mem _ (ih h)
  exact key _ _ h

/-! ### The decoder of each form: what it accepts, and what it reads (R124, R126) -/

theorem decodeR3_eq_ok {op : Reg → Reg → Reg → Instr} {f : Fields} {i : Instr} (h : decodeR3 op f = .ok i) :
    ∃ rd rs rt, f.rd = regByte rd ∧ f.rs = regByte rs ∧ f.rt = regByte rt ∧ i = op rd rs rt := by
  unfold decodeR3 at h
  split at h
  · rename_i rd rs rt h1 h2 h3
    cases h
    exact ⟨rd, rs, rt, regField_eq_some.1 h1, regField_eq_some.1 h2, regField_eq_some.1 h3, rfl⟩
  · cases h

theorem decodeI_eq_ok {op : Reg → Reg → Word → Instr} {f : Fields} {i : Instr} (h : decodeI op f = .ok i) :
    ∃ rt rs, f.rt = regByte rt ∧ f.rs = regByte rs ∧ i = op rt rs f.imm := by
  unfold decodeI at h
  split at h
  · rename_i rt rs h1 h2; cases h; exact ⟨rt, rs, regField_eq_some.1 h1, regField_eq_some.1 h2, rfl⟩
  · cases h

theorem decodeM_eq_ok {op : Reg → Reg → Word → Instr} {f : Fields} {i : Instr} (h : decodeM op f = .ok i) :
    ∃ rt rs, f.rt = regByte rt ∧ f.rs = regByte rs ∧ i = op rt rs f.imm := by
  unfold decodeM at h
  split at h
  · rename_i rt rs h1 h2; cases h; exact ⟨rt, rs, regField_eq_some.1 h1, regField_eq_some.1 h2, rfl⟩
  · cases h

theorem decodeLui_eq_ok {op : Reg → Word → Instr} {f : Fields} {i : Instr} (h : decodeLui op f = .ok i) :
    ∃ rt, f.rt = regByte rt ∧ i = op rt f.imm := by
  unfold decodeLui at h
  split at h
  · rename_i rt h1; cases h; exact ⟨rt, regField_eq_some.1 h1, rfl⟩
  · cases h

theorem decodeShi_eq_ok {op : Reg → Reg → Word → Instr} {f : Fields} {i : Instr} (h : decodeShi op f = .ok i) :
    ∃ rd rt, f.rd = regByte rd ∧ f.rt = regByte rt ∧ i = op rd rt f.imm := by
  unfold decodeShi at h
  split at h
  · rename_i rd rt h1 h2; cases h; exact ⟨rd, rt, regField_eq_some.1 h1, regField_eq_some.1 h2, rfl⟩
  · cases h

theorem decodeShv_eq_ok {op : Reg → Reg → Reg → Instr} {f : Fields} {i : Instr} (h : decodeShv op f = .ok i) :
    ∃ rd rt rs, f.rd = regByte rd ∧ f.rt = regByte rt ∧ f.rs = regByte rs ∧ i = op rd rt rs := by
  unfold decodeShv at h
  split at h
  · rename_i rd rt rs h1 h2 h3
    cases h
    exact ⟨rd, rt, rs, regField_eq_some.1 h1, regField_eq_some.1 h2, regField_eq_some.1 h3, rfl⟩
  · cases h

theorem decodeB2_eq_ok {op : Reg → Reg → Word → Instr} {f : Fields} {i : Instr} (h : decodeB2 op f = .ok i) :
    ∃ rs rt, f.rs = regByte rs ∧ f.rt = regByte rt ∧ i = op rs rt f.imm := by
  unfold decodeB2 at h
  split at h
  · rename_i rs rt h1 h2; cases h; exact ⟨rs, rt, regField_eq_some.1 h1, regField_eq_some.1 h2, rfl⟩
  · cases h

theorem decodeB1_eq_ok {op : Reg → Word → Instr} {f : Fields} {i : Instr} (h : decodeB1 op f = .ok i) :
    ∃ rs, f.rs = regByte rs ∧ i = op rs f.imm := by
  unfold decodeB1 at h
  split at h
  · rename_i rs h1; cases h; exact ⟨rs, regField_eq_some.1 h1, rfl⟩
  · cases h

theorem decodeJr_eq_ok {op : Reg → Instr} {f : Fields} {i : Instr} (h : decodeJr op f = .ok i) :
    ∃ rs, f.rs = regByte rs ∧ i = op rs := by
  unfold decodeJr at h
  split at h
  · rename_i rs h1; cases h; exact ⟨rs, regField_eq_some.1 h1, rfl⟩
  · cases h

theorem decodeJalr_eq_ok {op : Reg → Reg → Instr} {f : Fields} {i : Instr} (h : decodeJalr op f = .ok i) :
    ∃ rd rs, f.rd = regByte rd ∧ f.rs = regByte rs ∧ i = op rd rs := by
  unfold decodeJalr at h
  split at h
  · rename_i rd rs h1 h2; cases h; exact ⟨rd, rs, regField_eq_some.1 h1, regField_eq_some.1 h2, rfl⟩
  · cases h

theorem decodeRd_eq_ok {op : Reg → Instr} {f : Fields} {i : Instr} (h : decodeRd op f = .ok i) :
    ∃ rd, f.rd = regByte rd ∧ i = op rd := by
  unfold decodeRd at h
  split at h
  · rename_i rd h1; cases h; exact ⟨rd, regField_eq_some.1 h1, rfl⟩
  · cases h

theorem decodePtbr_eq_ok {op : Reg → Reg → Instr} {f : Fields} {i : Instr} (h : decodePtbr op f = .ok i) :
    ∃ rd rt, f.rd = regByte rd ∧ f.rt = regByte rt ∧ i = op rd rt := by
  unfold decodePtbr at h
  split at h
  · rename_i rd rt h1 h2; cases h; exact ⟨rd, rt, regField_eq_some.1 h1, regField_eq_some.1 h2, rfl⟩
  · cases h

/-! ### Well-formed fields -/

/-- Fields of an assigned opcode are well-formed when each used register field names a register. -/
theorem wellFormed_iff {f : Fields} {form : Form} (h : formOf f.opcode = some form) :
    f.wellFormed = true ↔ (form.usesRs = true → namesRegister f.rs = true) ∧
      (form.usesRt = true → namesRegister f.rt = true) ∧ (form.usesRd = true → namesRegister f.rd = true) := by
  unfold Fields.wellFormed
  rw [h]
  simp only [Bool.and_eq_true, Bool.or_eq_true, Bool.not_eq_true', and_assoc]
  cases form.usesRs <;> cases form.usesRt <;> cases form.usesRd <;> simp

/-- The fields of an instruction are well-formed (R124, R126, R135). -/
theorem fields_wellFormed (i : Instr) : i.fields.wellFormed = true := by
  have h : ∀ r : Reg, namesRegister (regByte r) = true := fun r => by simp [namesRegister]
  cases i <;> exact (wellFormed_iff rfl).2 (by simp [Form.usesRs, Form.usesRt, Form.usesRd, h, Instr.fields])

end Sys2Proof
end

