-- ==== Sys2Proof/Laws/Exec.lean ====
section
/-! SUPPORT. What executing an instruction can do, said once: every next state of `exec` is one of these effects. -/

namespace Sys2Proof.Machine

/-- One of the seven privileged instructions (R260). -/
def IsPrivileged (i : Instr) : Prop :=
  (∃ rd rt, i = .setPtbr rd rt) ∨ i ∈ [Instr.ei, .di, .iret, .enablePaging, .disablePaging, .enterUser]

/-- The effects an instruction can have, each with the instructions that can have it where a rule names them. -/
inductive ExecEffect (i : Instr) (s : State) : State → Prop where
  /-- Nothing but the pc's advance: NOP, a branch not taken. -/
  | unchanged : ExecEffect i s s
  /-- One general register. -/
  | wroteReg (r : Reg) (v : Word) : ExecEffect i s (s.setReg r v)
  /-- The pc. -/
  | jumped (v : Word) : ExecEffect i s (s.setPc v)
  /-- A link register and the pc. -/
  | linked (r : Reg) (v w : Word) : ExecEffect i s ((s.setReg r v).setPc w)
  /-- An execute-phase exception: MEM_FAULT, PRIVILEGE_VIOLATION or PAGE_FAULT (R303). -/
  | faulted (n : IntNum)
      (h : (n = intPrivilegeViolation ∧ s.kernelMode = false ∧ IsPrivileged i) ∨
        (n = intMemFault ∧ i = .iret ∧ s.kernelMode = true ∧ s.memorySize.toNat < s.savedRegsAddr.toNat + 128) ∨
        ∃ ea sz kind, accesses s i ea sz kind ∧
          ((n = intPageFault ∧ s.translate ea kind = none) ∨
            (n = intMemFault ∧ ∃ pa, s.translate ea kind = some pa ∧ s.memorySize.toNat < pa.toNat + sz.bytes))) :
      ExecEffect i s (s.raiseFault n)
  /-- The bytes of a store, at an address the translation gave and inside memory. -/
  | stored (va pa v : Word) (sz : Size) (hi : accesses s i va sz .write) (ha : s.refusesMisaligned va sz = false)
      (ht : s.translate va .write = some pa) (hb : pa.toNat + sz.bytes ≤ s.memorySize.toNat) :
      ExecEffect i s { s with mem := s.mem.writeLE pa.toNat sz.bytes v }
  /-- SYSCALL or BREAK. -/
  | halted (n : IntNum) (r : StopReason)
      (h : (i = .syscall ∧ n = intSyscall ∧ r = .haltSyscall) ∨ (i = .brk ∧ n = intBreak ∧ r = .haltBreak)) :
      ExecEffect i s { s.raisePending n with running := false, stopReason := some r }
  /-- RAISE. -/
  | raised (imm : Word) (h : i = .raise imm) : ExecEffect i s (s.raisePending (imm.setWidth 8))
  /-- EI and DI, in kernel mode. -/
  | setIntEnabled (b : Bool) (hi : i = .ei ∧ b = true ∨ i = .di ∧ b = false) (hk : s.kernelMode = true) : ExecEffect i s { s with intEnabled := b }
  /-- ENABLE_PAGING and DISABLE_PAGING, in kernel mode. -/
  | setPaging (b : Bool) (hi : i = .enablePaging ∧ b = true ∨ i = .disablePaging ∧ b = false) (hk : s.kernelMode = true) : ExecEffect i s { s with pagingEnabled := b }
  /-- SET_PTBR, in kernel mode. -/
  | setPtbr (b n : Word) (hi : ∃ rd rt, i = .setPtbr rd rt) (hk : s.kernelMode = true) : ExecEffect i s { s with pageTableBase := b, numPages := n }
  /-- ENTER_USER, in kernel mode. -/
  | enteredUser (hi : i = .enterUser) (hk : s.kernelMode = true) : ExecEffect i s { s with kernelMode := false }
  /-- IRET, in kernel mode with its frame inside memory. -/
  | returned (hi : i = .iret) (hk : s.kernelMode = true) (hf : s.savedRegsAddr.toNat + 128 ≤ s.memorySize.toNat) :
      ExecEffect i s s.returnFromInterrupt

/-- A privileged instruction that goes on: its effect in kernel mode, PRIVILEGE_VIOLATION in user mode (R260). -/
theorem privileged_eq_next {f : State → Result} {s t : State} (h : privileged f s = .next t) :
    (s.kernelMode = true ∧ f s = .next t) ∨
      (s.kernelMode = false ∧ t = s.raiseFault intPrivilegeViolation) := by
  unfold privileged at h
  split at h
  · rename_i hk; exact .inl ⟨hk, h⟩
  · rename_i hk; exact .inr ⟨by simpa using hk, (Host.Outcome.next.inj h).symm⟩

theorem binaryOp_effect (i : Instr) {f : Word → Word → Word} {rd rs rt : Reg} {s t : State}
    (h : binaryOp f rd rs rt s = .next t) : ExecEffect i s t := by cases h; exact .wroteReg _ _

theorem immediateOp_effect (i : Instr) {f : Word → Word → Word} {rt rs : Reg} {imm : Word} {s t : State}
    (h : immediateOp f rt rs imm s = .next t) : ExecEffect i s t := by cases h; exact .wroteReg _ _

theorem shiftImmediate_effect (i : Instr) {f : Word → Nat → Word} {rd rt : Reg} {imm : Word} {s t : State}
    (h : shiftImmediate f rd rt imm s = .next t) : ExecEffect i s t := by cases h; exact .wroteReg _ _

theorem shiftVariable_effect (i : Instr) {f : Word → Nat → Word} {rd rt rs : Reg} {s t : State}
    (h : shiftVariable f rd rt rs s = .next t) : ExecEffect i s t := by cases h; exact .wroteReg _ _

theorem load_effect {i : Instr} {sz : Size} {ext : Word → Word} {rt rs : Reg} {imm : Word} {s t : State}
    (hi : accesses s i (s.readReg rs + imm) sz .read) (h : load sz ext rt rs imm s = .next t) : ExecEffect i s t := by
  obtain ⟨v, -, rfl⟩ | ⟨n, hn, rfl⟩ := load_eq_next h
  · exact .wroteReg _ _
  · exact .faulted n (.inr (.inr ⟨_, _, _, hi, hn⟩))

theorem store_effect {i : Instr} {sz : Size} {rt rs : Reg} {imm : Word} {s t : State}
    (hi : accesses s i (s.readReg rs + imm) sz .write) (h : store sz rt rs imm s = .next t) : ExecEffect i s t := by
  obtain ⟨pa, ha, ht, hb, rfl⟩ | ⟨n, hn, rfl⟩ := store_eq_next h
  · exact .stored _ pa _ sz hi ha ht hb
  · exact .faulted n (.inr (.inr ⟨_, _, _, hi, hn⟩))

theorem branch_effect (i : Instr) {taken : Bool} {imm : Word} {s t : State} (h : branch taken imm s = .next t) :
    ExecEffect i s t := by
  unfold branch at h
  cases taken <;> cases h
  · exact .unchanged
  · exact .jumped _

theorem privileged_effect {i : Instr} {f : State → Result} {s t : State} (hi : IsPrivileged i)
    (h : privileged f s = .next t) (hf : s.kernelMode = true → f s = .next t → ExecEffect i s t) : ExecEffect i s t := by
  obtain ⟨hk, h⟩ | ⟨hk, rfl⟩ := privileged_eq_next h
  · exact hf hk h
  · exact .faulted _ (.inl ⟨rfl, hk, hi⟩)

theorem execIret_effect {s t : State} (h : execIret s = .next t) : ExecEffect .iret s t := by
  unfold execIret at h
  refine privileged_effect (.inr (by simp)) h fun hk h => ?_
  split at h
  · rename_i hf
    exact Host.Outcome.next.inj h ▸ .returned rfl hk (by simpa [State.frameInBounds] using hf)
  · rename_i hf
    exact Host.Outcome.next.inj h ▸
      .faulted _ (.inr (.inl ⟨rfl, rfl, hk, by simpa [State.frameInBounds, State.inBounds] using hf⟩))

theorem execJalr_effect (i : Instr) {rd rs : Reg} {s t : State} (h : execJalr rd rs s = .next t) :
    ExecEffect i s t := by
  unfold execJalr at h
  split at h
  · split at h <;> cases h
    exact .linked _ _ _
  · cases h; exact .linked _ _ _

/-- Every next state of `exec` is one of the effects. -/
theorem exec_effect {i : Instr} {s t : State} (h : exec i s = .next t) : ExecEffect i s t := by
  cases i with
  | nop => cases h; exact .unchanged
  | add | addu | sub | subu | and | or | xor | nor | mul | mulh | mulhu | div | divu | rem | remu =>
    exact binaryOp_effect _ h
  | slt | sltu => exact binaryOp_effect (f := fun a b => boolWord _) _ h
  | addi | addiu | andi | ori | xori => exact immediateOp_effect _ h
  | slti | sltiu => exact immediateOp_effect (f := fun a b => boolWord _) _ h
  | lui => cases h; exact .wroteReg _ _
  | sll | srl | sra => exact shiftImmediate_effect _ h
  | sllv | srlv | srav => exact shiftVariable_effect _ h
  | lw rt rs imm | lh rt rs imm | lhu rt rs imm | lb rt rs imm | lbu rt rs imm =>
    exact load_effect ⟨rt, rs, imm, rfl, by simp⟩ h
  | sw rt rs imm | sh rt rs imm | sb rt rs imm => exact store_effect ⟨rt, rs, imm, rfl, by simp⟩ h
  | beq | bne | blez | bgtz | bltz | bgez => exact branch_effect _ h
  | j | jr => cases h; exact .jumped _
  | jal => cases h; exact .linked _ _ _
  | jalr => exact execJalr_effect _ h
  | syscall => cases h; exact .halted _ _ (.inl ⟨rfl, rfl, rfl⟩)
  | brk => cases h; exact .halted _ _ (.inr ⟨rfl, rfl, rfl⟩)
  | ei | di =>
    exact privileged_effect (f := fun s => .next { s with intEnabled := _ }) (.inr (by simp)) h fun hk h => by
      cases h; exact .setIntEnabled _ (by simp) hk
  | iret => exact execIret_effect h
  | raise imm => cases h; exact .raised imm rfl
  | getpc | getmode => cases h; exact .wroteReg _ _
  | enablePaging | disablePaging =>
    exact privileged_effect (f := fun s => .next { s with pagingEnabled := _ }) (.inr (by simp)) h fun hk h => by
      cases h; exact .setPaging _ (by simp) hk
  | setPtbr rd rt =>
    exact privileged_effect (f := fun s => .next { s with pageTableBase := _, numPages := _ }) (.inl ⟨rd, rt, rfl⟩) h
      fun hk h => by cases h; exact .setPtbr _ _ ⟨rd, rt, rfl⟩ hk
  | enterUser =>
    exact privileged_effect (f := fun s => .next { s with kernelMode := _ }) (.inr (by simp)) h fun hk h => by
      cases h; exact .enteredUser rfl hk

/-- `exec` never answers with a fault: the model has none. -/
theorem exec_ne_fault (i : Instr) (s : State) (f : Fault) : exec i s ≠ .fault f := nomatch f

end Sys2Proof.Machine
end

