-- ==== Sys2Proof/Laws/Interrupt.lean ====
section
/-! SUPPORT. Selecting, taking and returning from an interrupt, said once. -/

namespace Sys2Proof.Machine

/-- Bit `k` of the pending bitmap after bit `n` is set (R34). -/
theorem getLsbD_setPending (p : BitVec 256) (n : IntNum) (k : Nat) :
    (p ||| (1#256 <<< n.toNat)).getLsbD k = (p.getLsbD k || decide (k = n.toNat)) := by
  have hn : n.toNat < 256 := n.isLt
  by_cases hk : k = n.toNat
  · subst hk; simp [hn]
  · by_cases h1 : k < n.toNat
    · simp [h1, hk]
    · have : k - n.toNat ≠ 0 := by omega
      simp [hk, this]

/-- Bit `k` of the pending bitmap after bit `n` is cleared (R34). -/
theorem getLsbD_clearPending (p : BitVec 256) (n : IntNum) (k : Nat) :
    (p &&& ~~~(1#256 <<< n.toNat)).getLsbD k = (p.getLsbD k && !decide (k = n.toNat)) := by
  have hn : n.toNat < 256 := n.isLt
  by_cases hk : k = n.toNat
  · subst hk; simp [hn]
  · by_cases h256 : k < 256
    · by_cases h1 : k < n.toNat
      · simp [h1, hk, h256]
      · have : k - n.toNat ≠ 0 := by omega
        simp [hk, this, h256]
    · simp [hk, BitVec.getLsbD_of_ge p k (by omega)]

/-- The selection among the pending bits: the lowest set one, 255 only under INT255_DISPATCH = yes (R315, D6). -/
theorem firstPending_eq_some (cfg : Config) (p : BitVec 256) (n : IntNum) :
    firstPending cfg p = some n ↔
      p.getLsbD n.toNat = true ∧ (∀ k, k < n.toNat → p.getLsbD k = false) ∧ (n = 255 → cfg.int255Dispatch = .yes) := by
  unfold firstPending
  rw [Option.map_eq_some_iff]
  simp only [List.find?_range_eq_some, Bool.not_eq_true', List.mem_range]
  have hn := n.isLt
  constructor
  · rintro ⟨a, ⟨h1, h2, h3⟩, rfl⟩
    have ha : a < 256 := by
      cases h : cfg.int255Dispatch <;> simp only [h] at h2 <;> omega
    have e : (BitVec.ofNat 8 a).toNat = a := by simp; omega
    rw [e]
    refine ⟨h1, h3, fun e2 => ?_⟩
    have : a = 255 := by rw [← e, e2]; rfl
    cases h : cfg.int255Dispatch
    · rfl
    · simp only [h] at h2; omega
  · rintro ⟨h1, h2, h3⟩
    refine ⟨n.toNat, ⟨h1, ?_, h2⟩, by simp⟩
    cases h : cfg.int255Dispatch
    · exact hn
    · simp only
      have : n ≠ 255 := fun e => by simpa [h] using h3 e
      have : n.toNat ≠ 255 := fun e => this (BitVec.eq_of_toNat_eq e)
      omega

/-- The dispatch goes through exactly under the three conditions of R322. -/
theorem State.canDispatch_iff (s : State) (n : IntNum) :
    s.canDispatch n = true ↔
      s.frameAddr.toNat + 128 ≤ s.memorySize.toNat ∧ 8 * n.toNat + 4 ≤ s.memorySize.toNat ∧ s.handlerWord n ≠ 0 := by
  simp [State.canDispatch, and_assoc]

/-- Everything a dispatch does, field by field (R320). -/
theorem State.dispatch_eq_some {s t : State} {n : IntNum} (h : s.dispatch n = some t) :
    s.canDispatch n = true ∧
      t.regs = ((s.setReg 29 s.frameAddr).setReg 4 (n.setWidth 32)).regs ∧ t.pc = s.handlerWord n ∧
      t.mem = s.frameMem ∧ t.memorySize = s.memorySize ∧ t.running = s.running ∧ t.kernelMode = true ∧
      t.pagingEnabled = s.pagingEnabled ∧ t.pageTableBase = s.pageTableBase ∧ t.numPages = s.numPages ∧
      t.intEnabled = false ∧ t.pending = s.pending &&& ~~~(1#256 <<< n.toNat) ∧ t.savedPc = s.pc ∧
      t.savedRegsAddr = s.frameAddr ∧ t.stopReason = s.stopReason ∧ t.cfg = s.cfg ∧
      (s.cfg.iretMode = .unchanged → t.savedMode = s.savedMode) ∧
      (s.cfg.iretMode = .restoreSaved → t.savedMode = s.kernelMode) := by
  unfold State.dispatch at h
  split at h
  · rename_i hc
    cases h
    refine ⟨hc, rfl, rfl, rfl, rfl, rfl, rfl, rfl, rfl, rfl, rfl, rfl, rfl, rfl, rfl, rfl, fun e => ?_, fun e => ?_⟩ <;>
      simp only [e]
  · cases h

/-- A dispatch fails exactly when one of the three conditions of R322 does. -/
theorem State.dispatch_eq_none {s : State} {n : IntNum} : s.dispatch n = none ↔ s.canDispatch n = false := by
  unfold State.dispatch; split <;> simp_all

@[simp] theorem State.length_frameWords (s : State) : s.frameWords.length = 32 := by simp [State.frameWords]

/-- Word i of the frame: register i as it was, word 29 as FRAME_SP_IMAGE says (R320 step 5). -/
theorem State.getElem_frameWords (s : State) (r : Reg) (h : r.val < s.frameWords.length) :
    s.frameWords[r.val] =
      if r = 29 then (match s.cfg.frameSpImage with | .pre => s.readReg 29 | .post => s.frameAddr) else s.readReg r :=
  List.getElem_ofFn h

/-- The frame reads back word by word (R320 step 5). -/
theorem State.readLE_frameMem (s : State) (r : Reg) :
    s.frameMem.readLE (s.frameAddr.toNat + 4 * r.val) 4 =
      if r = 29 then (match s.cfg.frameSpImage with | .pre => s.readReg 29 | .post => s.frameAddr) else s.readReg r := by
  have h : r.val < s.frameWords.length := by rw [State.length_frameWords]; exact r.isLt
  rw [State.frameMem, Memory.readLE_writeWords _ _ _ _ h, State.getElem_frameWords]

/-- Outside the frame's 128 bytes the context save changes nothing (R320). -/
theorem State.read_frameMem_of_outside (s : State) (a : Nat)
    (h : a < s.frameAddr.toNat ∨ s.frameAddr.toNat + 128 ≤ a) : s.frameMem.read a = s.mem.read a :=
  Memory.read_writeWords_of_outside _ _ _ _ (by rw [State.length_frameWords]; omega)

/-- The interrupt check: nothing to dispatch and the state as it is, or the dispatch of the one selected (R40 step 1). -/
theorem State.interruptCheck_eq_some {s t : State} (h : s.interruptCheck = some t) :
    (s.selectInterrupt = none ∧ t = s) ∨ ∃ n, s.selectInterrupt = some n ∧ s.dispatch n = some t := by
  unfold State.interruptCheck at h
  split at h
  · cases h; exact .inl ⟨‹_›, rfl⟩
  · rename_i n hn; exact .inr ⟨n, hn, h⟩

/-- With interrupts disabled none is selected (R311). -/
theorem State.selectInterrupt_of_disabled (s : State) (h : s.intEnabled = false) : s.selectInterrupt = none := by
  simp [State.selectInterrupt, h]

end Sys2Proof.Machine
end

