-- ==== Sys2Proof/Laws/Frame.lean ====
section
/-! SUPPORT. The frames of Safety.lean, once per named update: what writing a register, writing the pc and raising an
exception leave alone, and that the two ways to write a word of memory out agree. -/

namespace Sys2Proof.Machine

theorem sameRegsExcept_refl (s : State) (rs : List Reg) : sameRegsExcept s s rs := fun _ _ => rfl
theorem sameMem_refl (s : State) : sameMem s s := fun _ => rfl
theorem samePaging_refl (s : State) : samePaging s s := ⟨rfl, rfl, rfl⟩
theorem sameSaved_refl (s : State) : sameSaved s s := ⟨rfl, rfl, rfl⟩
theorem sameMachine_refl (s : State) : sameMachine s s := ⟨rfl, rfl⟩
theorem sameControl_refl (s : State) : sameControl s s := ⟨rfl, rfl, ⟨rfl, rfl, rfl⟩, rfl, rfl, ⟨rfl, rfl, rfl⟩, rfl, rfl, rfl⟩

/-- A state that reads the same register file reads the same registers. -/
theorem sameRegsExcept_of_regs {s t : State} (h : t.regs = s.regs) (rs : List Reg) : sameRegsExcept s t rs :=
  fun r _ => State.readReg_congr h r

/-- Writing a register: the register reads as written, R0 as 0, every other as before (R21). -/
theorem readReg_setReg_self (s : State) (r : Reg) (v : Word) : (s.setReg r v).readReg r = written r v := by
  rw [State.readReg_setReg, written]
  by_cases h : r = 0
  · subst h; simp
  · simp [h]

theorem sameRegsExcept_setReg (s : State) (r : Reg) (v : Word) : sameRegsExcept s (s.setReg r v) [r] :=
  fun q hq => State.readReg_setReg_of_ne s r q v (by simpa using hq)

/-- An instruction whose next state is a register written changes nothing else. -/
theorem writesOnly_of_setReg {i : Instr} {s : State} {r : Reg} {v : Word} (h : exec i s = .next (s.setReg r v)) :
    writesOnly i s r v :=
  ⟨_, h, readReg_setReg_self s r v, sameRegsExcept_setReg s r v, rfl, fun _ => rfl,
    ⟨rfl, rfl, ⟨rfl, rfl, rfl⟩, rfl, rfl, ⟨rfl, rfl, rfl⟩, rfl, rfl, rfl⟩⟩

/-- An instruction whose next state is the pc written changes nothing else. -/
theorem jumpsOnly_of_setPc {i : Instr} {s : State} {v : Word} (h : exec i s = .next (s.setPc v)) : jumpsOnly i s v :=
  ⟨_, h, rfl, fun _ _ => rfl, fun _ => rfl, ⟨rfl, rfl, ⟨rfl, rfl, rfl⟩, rfl, rfl, ⟨rfl, rfl, rfl⟩, rfl, rfl, rfl⟩⟩

/-- An instruction whose next state is the state itself leaves the pc where the step advanced it. -/
theorem jumpsOnly_of_unchanged {i : Instr} {s : State} (h : exec i s = .next s) : jumpsOnly i s s.pc :=
  ⟨_, h, rfl, fun _ _ => rfl, fun _ => rfl, sameControl_refl s⟩

/-- Raising sets its own bit and no other (R34). -/
theorem raisedBit_of_pending {s t : State} {n : IntNum} (h : t.pending = s.pending ||| (1#256 <<< n.toNat)) :
    raisedBit s t n.toNat := fun k => by rw [h, getLsbD_setPending]

/-- An execute-phase exception is the pending bit, the pc and the status of R310, and nothing else. -/
theorem onlyRaises_raiseFault (s : State) (n : IntNum) : onlyRaises s (s.raiseFault n) n.toNat :=
  ⟨raisedBit_of_pending rfl, fun _ _ => rfl, fun _ => rfl, rfl, rfl, ⟨rfl, rfl, rfl⟩, rfl, ⟨rfl, rfl, rfl⟩, ⟨rfl, rfl⟩,
    State.pc_raiseFault_next s n, State.pc_raiseFault_faulting s n, State.stopReason_raiseFault_continue s n,
    State.stopReason_raiseFault_stop s n⟩

/-- Step 8 of R40 changes nothing a register read, a byte read or a field shows. -/
theorem onlyRaises_endStep {s t : State} {n : Nat} (h : onlyRaises s t n) : onlyRaises s t.endStep n := by
  obtain ⟨h1, h2, h3, h4, h5, h6, h7, h8, h9, h10, h11, h12, h13⟩ := h
  unfold State.endStep
  split
  · exact ⟨h1, fun r hr => (State.readReg_zeroR0 t r).trans (h2 r hr), h3, h4, h5, h6, h7, h8, h9, h10, h11, h12, h13⟩
  · exact ⟨h1, h2, h3, h4, h5, h6, h7, h8, h9, h10, h11, h12, h13⟩

/-- The parameters admit exactly the accesses the model does not refuse (R67). -/
theorem alignmentAdmits_iff {s : State} {ea : Word} {sz : Size} :
    alignmentAdmits s ea sz ↔ s.refusesMisaligned ea sz = false := by
  unfold alignmentAdmits State.refusesMisaligned
  cases s.cfg.misalignedData <;> simp

/-- A word written out byte by byte is the little-endian read of four bytes (R60). -/
theorem wordAt_eq (s : State) (a : Nat) : wordAt s a = s.mem.readLE a 4 := (Memory.readLE_four s.mem a).symm

end Sys2Proof.Machine
end

