-- ==== Sys2Proof/Laws/Step.lean ====
section
/-! SUPPORT. What a step can do, said once. -/

namespace Sys2Proof.Machine

/-- The ways a step ends in a next state (R40). `s0` is the state with the last step's outcome forgotten. -/
inductive StepEffect (s0 : State) : State → Prop where
  /-- The dispatch failed (step 1, R322). -/
  | dispatchFailed (h : s0.interruptCheck = none) : StepEffect s0 { s0 with stopReason := some .dispatchFailed }
  /-- The fetch stopped the step (steps 2 to 4). -/
  | fetchStopped (s1 : State) (r : StopReason) (hc : s0.interruptCheck = some s1) (hf : s1.fetchAddr = .error r) :
      StepEffect s0 (s1.stopFetch r)
  /-- The opcode was unassigned (R137). -/
  | illegal (s1 : State) (ppc : Nat) (hc : s0.interruptCheck = some s1) (hf : s1.fetchAddr = .ok ppc)
      (hd : decode (s1.fetchBytes ppc) = .error .illegalOpcode) :
      StepEffect s0 ((s1.setPc (s1.pc + 8#32)).raiseFault intIllegalOp).endStep
  /-- An instruction was executed (steps 5 to 8). -/
  | executed (s1 : State) (ppc : Nat) (i : Instr) (u : State) (hc : s0.interruptCheck = some s1)
      (hf : s1.fetchAddr = .ok ppc) (hd : decode (s1.fetchBytes ppc) = .ok i)
      (he : exec i (s1.setPc (s1.pc + 8#32)) = .next u) : StepEffect s0 u.endStep

theorem endStepOf_eq_next {r : Result} {t : State} (h : endStepOf r = .next t) :
    ∃ u, r = .next u ∧ t = u.endStep := by
  cases r with
  | next u => cases h; exact ⟨u, rfl, rfl⟩
  | fault f => exact nomatch f
  | refused f => cases h

/-- Every next state of `step` is one of these. -/
theorem step_effect {s t : State} (h : step s = .next t) : StepEffect { s with stopReason := none } t := by
  change vmStep s = .next t at h
  unfold vmStep at h
  split at h
  · rename_i hc; cases h; exact .dispatchFailed hc
  · rename_i s1 hc
    unfold fetchAndExecute at h
    split at h
    · rename_i r hf; cases h; exact .fetchStopped s1 r hc hf
    · rename_i ppc hf
      unfold execBytes at h
      split at h
      · rename_i i hd
        obtain ⟨u, he, rfl⟩ := endStepOf_eq_next h
        exact .executed s1 ppc i u hc hf hd he
      · rename_i hd; cases h; exact .illegal s1 ppc hc hf hd
      · cases h
      · cases h

/-- What stops a fetch (R40 steps 2 to 4). -/
theorem State.fetchAddr_eq_error {s : State} {r : StopReason} (h : s.fetchAddr = .error r) :
    (r = .misalignedPc ∧ s.pc.toNat % 8 ≠ 0) ∨
      (r = .fetchPageFault ∧ s.pc.toNat % 8 = 0 ∧ s.translate s.pc .exec = none) ∨
      (r = .fetchOutOfBounds ∧ s.pc.toNat % 8 = 0 ∧
        ∃ ppc, s.translate s.pc .exec = some ppc ∧ s.memorySize.toNat < ppc.toNat + 8) := by
  unfold State.fetchAddr at h
  split at h
  · cases h; exact .inl ⟨rfl, ‹_›⟩
  · rename_i ha
    split at h
    · rename_i ht; cases h; exact .inr (.inl ⟨rfl, by omega, ht⟩)
    · rename_i ppc ht
      split at h
      · cases h
      · rename_i hb; cases h
        exact .inr (.inr ⟨rfl, by omega, ppc, ht, by simpa [State.inBounds] using hb⟩)

/-- Where a fetch that goes through reads (R40 steps 2 to 4). -/
theorem State.fetchAddr_eq_ok {s : State} {a : Nat} :
    s.fetchAddr = .ok a ↔ s.pc.toNat % 8 = 0 ∧
      ∃ ppc, s.translate s.pc .exec = some ppc ∧ ppc.toNat + 8 ≤ s.memorySize.toNat ∧ a = ppc.toNat := by
  unfold State.fetchAddr
  by_cases ha : s.pc.toNat % 8 = 0
  · simp only [ha, ne_eq, not_true_eq_false, if_false, true_and]
    cases ht : s.translate s.pc .exec with
    | none => simp
    | some ppc =>
      by_cases hb : ppc.toNat + 8 ≤ s.memorySize.toNat
      · dsimp only
        rw [if_pos ((s.inBounds_iff _ _).2 hb)]
        exact ⟨fun e => ⟨ppc, rfl, hb, (Except.ok.inj e).symm⟩, fun ⟨_, e, _, ha⟩ => by cases e; rw [ha]⟩
      · dsimp only
        rw [if_neg (fun e => hb ((s.inBounds_iff _ _).1 e))]
        exact ⟨nofun, fun ⟨_, e, h, _⟩ => by cases e; exact absurd h hb⟩
  · simp [ha]

/-- Step 8 of R40 leaves every register reading as before, and R0's slot 0 when the status is 0 (R43). -/
@[simp] theorem State.readReg_endStep (s : State) (r : Reg) : s.endStep.readReg r = s.readReg r := by
  unfold State.endStep; split <;> simp

@[simp] theorem State.pc_endStep (s : State) : s.endStep.pc = s.pc := by
  unfold State.endStep; split <;> rfl
@[simp] theorem State.mem_endStep (s : State) : s.endStep.mem = s.mem := by
  unfold State.endStep; split <;> rfl
@[simp] theorem State.memorySize_endStep (s : State) : s.endStep.memorySize = s.memorySize := by
  unfold State.endStep; split <;> rfl
@[simp] theorem State.running_endStep (s : State) : s.endStep.running = s.running := by
  unfold State.endStep; split <;> rfl
@[simp] theorem State.kernelMode_endStep (s : State) : s.endStep.kernelMode = s.kernelMode := by
  unfold State.endStep; split <;> rfl
@[simp] theorem State.pagingEnabled_endStep (s : State) : s.endStep.pagingEnabled = s.pagingEnabled := by
  unfold State.endStep; split <;> rfl
@[simp] theorem State.pageTableBase_endStep (s : State) : s.endStep.pageTableBase = s.pageTableBase := by
  unfold State.endStep; split <;> rfl
@[simp] theorem State.numPages_endStep (s : State) : s.endStep.numPages = s.numPages := by
  unfold State.endStep; split <;> rfl
@[simp] theorem State.intEnabled_endStep (s : State) : s.endStep.intEnabled = s.intEnabled := by
  unfold State.endStep; split <;> rfl
@[simp] theorem State.pending_endStep (s : State) : s.endStep.pending = s.pending := by
  unfold State.endStep; split <;> rfl
@[simp] theorem State.savedPc_endStep (s : State) : s.endStep.savedPc = s.savedPc := by
  unfold State.endStep; split <;> rfl
@[simp] theorem State.savedRegsAddr_endStep (s : State) : s.endStep.savedRegsAddr = s.savedRegsAddr := by
  unfold State.endStep; split <;> rfl
@[simp] theorem State.savedMode_endStep (s : State) : s.endStep.savedMode = s.savedMode := by
  unfold State.endStep; split <;> rfl
@[simp] theorem State.stopReason_endStep (s : State) : s.endStep.stopReason = s.stopReason := by
  unfold State.endStep; split <;> rfl
@[simp] theorem State.cfg_endStep (s : State) : s.endStep.cfg = s.cfg := by
  unfold State.endStep; split <;> rfl
end Sys2Proof.Machine
end

