-- ==== Sys2Proof/Laws/Cycle.lean ====
section
/-! SUPPORT. How the terms of Safety.lean about a step, `fetches`, `executes` and `dispatches`, meet the step itself. -/

namespace Sys2Proof.Machine

/-- Fetching in the terms of Safety.lean is the fetch of the cycle. -/
theorem fetches_iff {s s1 : State} {bytes : List Byte} :
    fetches s s1 bytes ↔ ({ s with stopReason := none } : State).interruptCheck = some s1 ∧
      ∃ ppc, s1.fetchAddr = .ok ppc ∧ bytes = s1.fetchBytes ppc := by
  unfold fetches
  refine and_congr_right fun _ => ⟨?_, ?_⟩
  · rintro ⟨ha, ppc, ht, hb, rfl⟩
    exact ⟨ppc.toNat, State.fetchAddr_eq_ok.2 ⟨ha, ppc, ht, hb, rfl⟩, rfl⟩
  · rintro ⟨_, hf, rfl⟩
    obtain ⟨ha, ppc, ht, hb, rfl⟩ := State.fetchAddr_eq_ok.1 hf
    exact ⟨ha, ppc, ht, hb, rfl⟩

/-- A step that fetches executes the bytes it fetched (R40). -/
theorem step_of_fetches {s s1 : State} {bytes : List Byte} (h : fetches s s1 bytes) : step s = execBytes bytes s1 := by
  obtain ⟨hc, ppc, hf, rfl⟩ := fetches_iff.1 h
  show vmStep s = _
  unfold vmStep
  rw [hc]
  show fetchAndExecute s1 = _
  unfold fetchAndExecute
  rw [hf]

/-- Eight bytes are fetched. -/
theorem length_of_fetches {s s1 : State} {bytes : List Byte} (h : fetches s s1 bytes) : bytes.length = 8 := by
  obtain ⟨-, -, ppc, -, -, rfl⟩ := h
  simp

/-- The selection of an interrupt depends on the enable, the pending bits and the parameters alone. -/
theorem State.selectInterrupt_congr {s t : State} (h1 : t.intEnabled = s.intEnabled) (h2 : t.pending = s.pending)
    (h3 : t.cfg = s.cfg) : t.selectInterrupt = s.selectInterrupt := by
  simp [State.selectInterrupt, h1, h2, h3]

/-- A step that starts with a dispatch dispatches (R40 step 1). -/
theorem dispatches_of_dispatch {s t : State} {n : IntNum} (hs : s.selectInterrupt = some n)
    (hd : ({ s with stopReason := none } : State).dispatch n = some t) : dispatches s n :=
  ⟨hs, (State.dispatch_eq_some hd).1⟩

/-- The interrupt check in the terms of Safety.lean: no interrupt to dispatch and nothing changed but the outcome, or a
dispatch. -/
theorem interruptCheck_cases {s s1 : State} (h : ({ s with stopReason := none } : State).interruptCheck = some s1) :
    (s.selectInterrupt = none ∧ s1 = { s with stopReason := none }) ∨
      ∃ n, dispatches s n ∧ ({ s with stopReason := none } : State).dispatch n = some s1 := by
  rcases State.interruptCheck_eq_some h with ⟨h1, h2⟩ | ⟨n, h1, h2⟩
  · exact .inl ⟨h1, h2⟩
  · exact .inr ⟨n, dispatches_of_dispatch h1 h2, h2⟩

/-- With no interrupt selected the check passes. -/
theorem interruptCheck_of_none {s : State} (h : s.selectInterrupt = none) :
    ({ s with stopReason := none } : State).interruptCheck = some { s with stopReason := none } := by
  unfold State.interruptCheck
  rw [show ({ s with stopReason := none } : State).selectInterrupt = none from h]

/-- The ways a step ends in a next state, in the terms of Safety.lean. `s1` is the state the interrupt check leaves. -/
theorem step_cases {s t : State} (h : step s = .next t) :
    (({ s with stopReason := none } : State).interruptCheck = none ∧ t = { s with stopReason := some .dispatchFailed }) ∨
    ∃ s1, ({ s with stopReason := none } : State).interruptCheck = some s1 ∧
      ((∃ r, s1.fetchAddr = .error r ∧ t = s1.stopFetch r) ∨
        (∃ f : Fields, fetches s s1 f.bytes ∧ decode f.bytes = .error .illegalOpcode ∧
          t = ((s1.setPc (s1.pc + 8#32)).raiseFault intIllegalOp).endStep) ∨
        ∃ i u, executes s i (s1.setPc (s1.pc + 8#32)) ∧ exec i (s1.setPc (s1.pc + 8#32)) = .next u ∧ t = u.endStep) := by
  cases step_effect h with
  | dispatchFailed hc => exact .inl ⟨hc, rfl⟩
  | fetchStopped s1 r hc hf => exact .inr ⟨s1, hc, .inl ⟨r, hf, rfl⟩⟩
  | illegal s1 ppc hc hf hd =>
    have hfe : fetches s s1 (s1.fetchBytes ppc) := fetches_iff.2 ⟨hc, ppc, hf, rfl⟩
    obtain ⟨f, hb⟩ := exists_fields (length_of_fetches hfe)
    rw [hb] at hfe hd
    exact .inr ⟨s1, hc, .inr (.inl ⟨f, hfe, hd, rfl⟩)⟩
  | executed s1 ppc i u hc hf hd he =>
    exact .inr ⟨s1, hc, .inr (.inr ⟨i, u, ⟨s1, _, fetches_iff.2 ⟨hc, ppc, hf, rfl⟩, hd, rfl⟩, he, rfl⟩)⟩

end Sys2Proof.Machine
end

