-- ==== Sys2Proof/Laws/HostCalls.lean ====
section
/-! SUPPORT. What the host's calls do: the environment's interrupts field by field, when a call answers none, and the one
induction over a run. -/

namespace Sys2Proof.Machine

/-! The environment sets pending bits: every other field as before. -/

@[simp] theorem regs_hostRaiseSet (bits : BitVec 256) (s : State) : (hostRaiseSet bits s).regs = s.regs := rfl
@[simp] theorem pc_hostRaiseSet (bits : BitVec 256) (s : State) : (hostRaiseSet bits s).pc = s.pc := rfl
@[simp] theorem mem_hostRaiseSet (bits : BitVec 256) (s : State) : (hostRaiseSet bits s).mem = s.mem := rfl
@[simp] theorem memorySize_hostRaiseSet (bits : BitVec 256) (s : State) : (hostRaiseSet bits s).memorySize = s.memorySize := rfl
@[simp] theorem running_hostRaiseSet (bits : BitVec 256) (s : State) : (hostRaiseSet bits s).running = s.running := rfl
@[simp] theorem kernelMode_hostRaiseSet (bits : BitVec 256) (s : State) : (hostRaiseSet bits s).kernelMode = s.kernelMode := rfl
@[simp] theorem pagingEnabled_hostRaiseSet (bits : BitVec 256) (s : State) : (hostRaiseSet bits s).pagingEnabled = s.pagingEnabled := rfl
@[simp] theorem pageTableBase_hostRaiseSet (bits : BitVec 256) (s : State) : (hostRaiseSet bits s).pageTableBase = s.pageTableBase := rfl
@[simp] theorem numPages_hostRaiseSet (bits : BitVec 256) (s : State) : (hostRaiseSet bits s).numPages = s.numPages := rfl
@[simp] theorem intEnabled_hostRaiseSet (bits : BitVec 256) (s : State) : (hostRaiseSet bits s).intEnabled = s.intEnabled := rfl
@[simp] theorem savedPc_hostRaiseSet (bits : BitVec 256) (s : State) : (hostRaiseSet bits s).savedPc = s.savedPc := rfl
@[simp] theorem savedRegsAddr_hostRaiseSet (bits : BitVec 256) (s : State) : (hostRaiseSet bits s).savedRegsAddr = s.savedRegsAddr := rfl
@[simp] theorem savedMode_hostRaiseSet (bits : BitVec 256) (s : State) : (hostRaiseSet bits s).savedMode = s.savedMode := rfl
@[simp] theorem stopReason_hostRaiseSet (bits : BitVec 256) (s : State) : (hostRaiseSet bits s).stopReason = s.stopReason := rfl
@[simp] theorem cfg_hostRaiseSet (bits : BitVec 256) (s : State) : (hostRaiseSet bits s).cfg = s.cfg := rfl
@[simp] theorem pending_hostRaiseSet (bits : BitVec 256) (s : State) :
    (hostRaiseSet bits s).pending = s.pending ||| bits := rfl

/-- Setting no bit changes nothing: the closed model of D24. -/
@[simp] theorem hostRaiseSet_zero (s : State) : hostRaiseSet 0 s = s := by simp [hostRaiseSet]

/-- The set with one bit is `c32_raise_interrupt` (R305). -/
theorem hostRaiseSet_single (n : IntNum) (s : State) : hostRaiseSet (1#256 <<< n.toNat) s = hostRaiseInterrupt n s := rfl

/-- The host's word write answers none exactly outside the memory array (log 40). -/
theorem hostWriteWord_eq_none {pa : Nat} {v : Word} {s : State} :
    hostWriteWord pa v s = none ↔ s.memorySize.toNat < pa + 4 := State.physWrite_eq_none

/-- Loading bytes answers none exactly outside the memory array (log 40). -/
theorem hostLoadBytes_eq_none {pa : Nat} {bytes : List Byte} {s : State} :
    hostLoadBytes pa bytes s = none ↔ s.memorySize.toNat < pa + bytes.length := by
  unfold hostLoadBytes; split <;> simp_all

/-- A run that leaves does so after a step that cleared `running` or ended with status -1; what held at its start and is kept
by the environment and by every step the loop goes on after held before that step too. -/
theorem runLoop_eq_stopped {P : State → Prop} (henv : ∀ bits u, P u → P (hostRaiseSet bits u))
    (hstep : ∀ u v, P u → step u = .next v → v.running = true → v.statusOk = true → P v)
    {arrivals : List (BitVec 256)} {s t : State} (hs : P s) (h : runLoop arrivals s = .stopped t) :
    ∃ u, P u ∧ step u = .next t ∧ (t.running && t.statusOk) = false := by
  induction arrivals generalizing s with
  | nil => cases h
  | cons bits arrivals ih =>
    unfold runLoop at h
    split at h
    · rename_i v hv
      split at h
      · rename_i hc
        rw [Bool.and_eq_true] at hc
        exact ih (hstep _ v (henv bits s hs) hv hc.1 hc.2) h
      · rename_i hc
        cases h
        exact ⟨_, henv bits s hs, hv, by simpa using hc⟩
    · rename_i f _; exact nomatch f
    · cases h

end Sys2Proof.Machine
end

