-- ==== Sys2Proof/Laws/PerInstr.lean ====
section
/-! SUPPORT. A fact about every instruction as syntax, one lemma per constructor (LAWS.json: EncodedForm): how it is encoded
(R121, R124, R125, R126, R135). -/

namespace Sys2Proof.Laws

open Sys2Proof.Machine

/-- The encoding of an instruction: eight bytes; its opcode is assigned and selects a form; a register field the form uses
names a register, and a field it does not use is 0. -/
def EncodedForm.Statement (i : Instr) : Prop :=
  (encode i).length = 8 ∧ ∃ form, formOf i.fields.opcode = some form ∧
    (if form.usesRs then namesRegister i.fields.rs = true else i.fields.rs = 0) ∧
    (if form.usesRt then namesRegister i.fields.rt = true else i.fields.rt = 0) ∧
    (if form.usesRd then namesRegister i.fields.rd = true else i.fields.rd = 0) ∧
    (usesImm form = false → i.fields.imm = 0)

/-- A register's own byte names a register (R126). -/
theorem namesRegister_regByte (r : Reg) : namesRegister (regByte r) = true := by simp [namesRegister]

theorem EncodedForm.nop : EncodedForm.Statement .nop :=
  ⟨rfl, .n, rfl, rfl, rfl, rfl, fun _ => rfl⟩
theorem EncodedForm.add (rd rs rt : Reg) : EncodedForm.Statement (.add rd rs rt) :=
  ⟨rfl, .r3, rfl, namesRegister_regByte rs, namesRegister_regByte rt, namesRegister_regByte rd, fun _ => rfl⟩
theorem EncodedForm.addu (rd rs rt : Reg) : EncodedForm.Statement (.addu rd rs rt) :=
  ⟨rfl, .r3, rfl, namesRegister_regByte rs, namesRegister_regByte rt, namesRegister_regByte rd, fun _ => rfl⟩
theorem EncodedForm.sub (rd rs rt : Reg) : EncodedForm.Statement (.sub rd rs rt) :=
  ⟨rfl, .r3, rfl, namesRegister_regByte rs, namesRegister_regByte rt, namesRegister_regByte rd, fun _ => rfl⟩
theorem EncodedForm.subu (rd rs rt : Reg) : EncodedForm.Statement (.subu rd rs rt) :=
  ⟨rfl, .r3, rfl, namesRegister_regByte rs, namesRegister_regByte rt, namesRegister_regByte rd, fun _ => rfl⟩
theorem EncodedForm.addi (rt rs : Reg) (imm : Word) : EncodedForm.Statement (.addi rt rs imm) :=
  ⟨rfl, .i, rfl, namesRegister_regByte rs, namesRegister_regByte rt, rfl, nofun⟩
theorem EncodedForm.addiu (rt rs : Reg) (imm : Word) : EncodedForm.Statement (.addiu rt rs imm) :=
  ⟨rfl, .i, rfl, namesRegister_regByte rs, namesRegister_regByte rt, rfl, nofun⟩
theorem EncodedForm.and (rd rs rt : Reg) : EncodedForm.Statement (.and rd rs rt) :=
  ⟨rfl, .r3, rfl, namesRegister_regByte rs, namesRegister_regByte rt, namesRegister_regByte rd, fun _ => rfl⟩
theorem EncodedForm.or (rd rs rt : Reg) : EncodedForm.Statement (.or rd rs rt) :=
  ⟨rfl, .r3, rfl, namesRegister_regByte rs, namesRegister_regByte rt, namesRegister_regByte rd, fun _ => rfl⟩
theorem EncodedForm.xor (rd rs rt : Reg) : EncodedForm.Statement (.xor rd rs rt) :=
  ⟨rfl, .r3, rfl, namesRegister_regByte rs, namesRegister_regByte rt, namesRegister_regByte rd, fun _ => rfl⟩
theorem EncodedForm.nor (rd rs rt : Reg) : EncodedForm.Statement (.nor rd rs rt) :=
  ⟨rfl, .r3, rfl, namesRegister_regByte rs, namesRegister_regByte rt, namesRegister_regByte rd, fun _ => rfl⟩
theorem EncodedForm.andi (rt rs : Reg) (imm : Word) : EncodedForm.Statement (.andi rt rs imm) :=
  ⟨rfl, .i, rfl, namesRegister_regByte rs, namesRegister_regByte rt, rfl, nofun⟩
theorem EncodedForm.ori (rt rs : Reg) (imm : Word) : EncodedForm.Statement (.ori rt rs imm) :=
  ⟨rfl, .i, rfl, namesRegister_regByte rs, namesRegister_regByte rt, rfl, nofun⟩
theorem EncodedForm.xori (rt rs : Reg) (imm : Word) : EncodedForm.Statement (.xori rt rs imm) :=
  ⟨rfl, .i, rfl, namesRegister_regByte rs, namesRegister_regByte rt, rfl, nofun⟩
theorem EncodedForm.lui (rt : Reg) (imm : Word) : EncodedForm.Statement (.lui rt imm) :=
  ⟨rfl, .lui, rfl, rfl, namesRegister_regByte rt, rfl, nofun⟩
theorem EncodedForm.sll (rd rt : Reg) (imm : Word) : EncodedForm.Statement (.sll rd rt imm) :=
  ⟨rfl, .shi, rfl, rfl, namesRegister_regByte rt, namesRegister_regByte rd, nofun⟩
theorem EncodedForm.srl (rd rt : Reg) (imm : Word) : EncodedForm.Statement (.srl rd rt imm) :=
  ⟨rfl, .shi, rfl, rfl, namesRegister_regByte rt, namesRegister_regByte rd, nofun⟩
theorem EncodedForm.sra (rd rt : Reg) (imm : Word) : EncodedForm.Statement (.sra rd rt imm) :=
  ⟨rfl, .shi, rfl, rfl, namesRegister_regByte rt, namesRegister_regByte rd, nofun⟩
theorem EncodedForm.sllv (rd rt rs : Reg) : EncodedForm.Statement (.sllv rd rt rs) :=
  ⟨rfl, .shv, rfl, namesRegister_regByte rs, namesRegister_regByte rt, namesRegister_regByte rd, fun _ => rfl⟩
theorem EncodedForm.srlv (rd rt rs : Reg) : EncodedForm.Statement (.srlv rd rt rs) :=
  ⟨rfl, .shv, rfl, namesRegister_regByte rs, namesRegister_regByte rt, namesRegister_regByte rd, fun _ => rfl⟩
theorem EncodedForm.srav (rd rt rs : Reg) : EncodedForm.Statement (.srav rd rt rs) :=
  ⟨rfl, .shv, rfl, namesRegister_regByte rs, namesRegister_regByte rt, namesRegister_regByte rd, fun _ => rfl⟩
theorem EncodedForm.slt (rd rs rt : Reg) : EncodedForm.Statement (.slt rd rs rt) :=
  ⟨rfl, .r3, rfl, namesRegister_regByte rs, namesRegister_regByte rt, namesRegister_regByte rd, fun _ => rfl⟩
theorem EncodedForm.sltu (rd rs rt : Reg) : EncodedForm.Statement (.sltu rd rs rt) :=
  ⟨rfl, .r3, rfl, namesRegister_regByte rs, namesRegister_regByte rt, namesRegister_regByte rd, fun _ => rfl⟩
theorem EncodedForm.slti (rt rs : Reg) (imm : Word) : EncodedForm.Statement (.slti rt rs imm) :=
  ⟨rfl, .i, rfl, namesRegister_regByte rs, namesRegister_regByte rt, rfl, nofun⟩
theorem EncodedForm.sltiu (rt rs : Reg) (imm : Word) : EncodedForm.Statement (.sltiu rt rs imm) :=
  ⟨rfl, .i, rfl, namesRegister_regByte rs, namesRegister_regByte rt, rfl, nofun⟩
theorem EncodedForm.mul (rd rs rt : Reg) : EncodedForm.Statement (.mul rd rs rt) :=
  ⟨rfl, .r3, rfl, namesRegister_regByte rs, namesRegister_regByte rt, namesRegister_regByte rd, fun _ => rfl⟩
theorem EncodedForm.mulh (rd rs rt : Reg) : EncodedForm.Statement (.mulh rd rs rt) :=
  ⟨rfl, .r3, rfl, namesRegister_regByte rs, namesRegister_regByte rt, namesRegister_regByte rd, fun _ => rfl⟩
theorem EncodedForm.mulhu (rd rs rt : Reg) : EncodedForm.Statement (.mulhu rd rs rt) :=
  ⟨rfl, .r3, rfl, namesRegister_regByte rs, namesRegister_regByte rt, namesRegister_regByte rd, fun _ => rfl⟩
theorem EncodedForm.div (rd rs rt : Reg) : EncodedForm.Statement (.div rd rs rt) :=
  ⟨rfl, .r3, rfl, namesRegister_regByte rs, namesRegister_regByte rt, namesRegister_regByte rd, fun _ => rfl⟩
theorem EncodedForm.divu (rd rs rt : Reg) : EncodedForm.Statement (.divu rd rs rt) :=
  ⟨rfl, .r3, rfl, namesRegister_regByte rs, namesRegister_regByte rt, namesRegister_regByte rd, fun _ => rfl⟩
theorem EncodedForm.rem (rd rs rt : Reg) : EncodedForm.Statement (.rem rd rs rt) :=
  ⟨rfl, .r3, rfl, namesRegister_regByte rs, namesRegister_regByte rt, namesRegister_regByte rd, fun _ => rfl⟩
theorem EncodedForm.remu (rd rs rt : Reg) : EncodedForm.Statement (.remu rd rs rt) :=
  ⟨rfl, .r3, rfl, namesRegister_regByte rs, namesRegister_regByte rt, namesRegister_regByte rd, fun _ => rfl⟩
theorem EncodedForm.lw (rt rs : Reg) (imm : Word) : EncodedForm.Statement (.lw rt rs imm) :=
  ⟨rfl, .m, rfl, namesRegister_regByte rs, namesRegister_regByte rt, rfl, nofun⟩
theorem EncodedForm.lh (rt rs : Reg) (imm : Word) : EncodedForm.Statement (.lh rt rs imm) :=
  ⟨rfl, .m, rfl, namesRegister_regByte rs, namesRegister_regByte rt, rfl, nofun⟩
theorem EncodedForm.lhu (rt rs : Reg) (imm : Word) : EncodedForm.Statement (.lhu rt rs imm) :=
  ⟨rfl, .m, rfl, namesRegister_regByte rs, namesRegister_regByte rt, rfl, nofun⟩
theorem EncodedForm.lb (rt rs : Reg) (imm : Word) : EncodedForm.Statement (.lb rt rs imm) :=
  ⟨rfl, .m, rfl, namesRegister_regByte rs, namesRegister_regByte rt, rfl, nofun⟩
theorem EncodedForm.lbu (rt rs : Reg) (imm : Word) : EncodedForm.Statement (.lbu rt rs imm) :=
  ⟨rfl, .m, rfl, namesRegister_regByte rs, namesRegister_regByte rt, rfl, nofun⟩
theorem EncodedForm.sw (rt rs : Reg) (imm : Word) : EncodedForm.Statement (.sw rt rs imm) :=
  ⟨rfl, .m, rfl, namesRegister_regByte rs, namesRegister_regByte rt, rfl, nofun⟩
theorem EncodedForm.sh (rt rs : Reg) (imm : Word) : EncodedForm.Statement (.sh rt rs imm) :=
  ⟨rfl, .m, rfl, namesRegister_regByte rs, namesRegister_regByte rt, rfl, nofun⟩
theorem EncodedForm.sb (rt rs : Reg) (imm : Word) : EncodedForm.Statement (.sb rt rs imm) :=
  ⟨rfl, .m, rfl, namesRegister_regByte rs, namesRegister_regByte rt, rfl, nofun⟩
theorem EncodedForm.beq (rs rt : Reg) (imm : Word) : EncodedForm.Statement (.beq rs rt imm) :=
  ⟨rfl, .b2, rfl, namesRegister_regByte rs, namesRegister_regByte rt, rfl, nofun⟩
theorem EncodedForm.bne (rs rt : Reg) (imm : Word) : EncodedForm.Statement (.bne rs rt imm) :=
  ⟨rfl, .b2, rfl, namesRegister_regByte rs, namesRegister_regByte rt, rfl, nofun⟩
theorem EncodedForm.blez (rs : Reg) (imm : Word) : EncodedForm.Statement (.blez rs imm) :=
  ⟨rfl, .b1, rfl, namesRegister_regByte rs, rfl, rfl, nofun⟩
theorem EncodedForm.bgtz (rs : Reg) (imm : Word) : EncodedForm.Statement (.bgtz rs imm) :=
  ⟨rfl, .b1, rfl, namesRegister_regByte rs, rfl, rfl, nofun⟩
theorem EncodedForm.bltz (rs : Reg) (imm : Word) : EncodedForm.Statement (.bltz rs imm) :=
  ⟨rfl, .b1, rfl, namesRegister_regByte rs, rfl, rfl, nofun⟩
theorem EncodedForm.bgez (rs : Reg) (imm : Word) : EncodedForm.Statement (.bgez rs imm) :=
  ⟨rfl, .b1, rfl, namesRegister_regByte rs, rfl, rfl, nofun⟩
theorem EncodedForm.j (imm : Word) : EncodedForm.Statement (.j imm) :=
  ⟨rfl, .j, rfl, rfl, rfl, rfl, nofun⟩
theorem EncodedForm.jal (imm : Word) : EncodedForm.Statement (.jal imm) :=
  ⟨rfl, .j, rfl, rfl, rfl, rfl, nofun⟩
theorem EncodedForm.jr (rs : Reg) : EncodedForm.Statement (.jr rs) :=
  ⟨rfl, .jr, rfl, namesRegister_regByte rs, rfl, rfl, fun _ => rfl⟩
theorem EncodedForm.jalr (rd rs : Reg) : EncodedForm.Statement (.jalr rd rs) :=
  ⟨rfl, .jalr, rfl, namesRegister_regByte rs, rfl, namesRegister_regByte rd, fun _ => rfl⟩
theorem EncodedForm.syscall : EncodedForm.Statement .syscall :=
  ⟨rfl, .n, rfl, rfl, rfl, rfl, fun _ => rfl⟩
theorem EncodedForm.brk : EncodedForm.Statement .brk :=
  ⟨rfl, .n, rfl, rfl, rfl, rfl, fun _ => rfl⟩
theorem EncodedForm.ei : EncodedForm.Statement .ei :=
  ⟨rfl, .n, rfl, rfl, rfl, rfl, fun _ => rfl⟩
theorem EncodedForm.di : EncodedForm.Statement .di :=
  ⟨rfl, .n, rfl, rfl, rfl, rfl, fun _ => rfl⟩
theorem EncodedForm.iret : EncodedForm.Statement .iret :=
  ⟨rfl, .n, rfl, rfl, rfl, rfl, fun _ => rfl⟩
theorem EncodedForm.raise (imm : Word) : EncodedForm.Statement (.raise imm) :=
  ⟨rfl, .raise, rfl, rfl, rfl, rfl, nofun⟩
theorem EncodedForm.getpc (rd : Reg) : EncodedForm.Statement (.getpc rd) :=
  ⟨rfl, .rd, rfl, rfl, rfl, namesRegister_regByte rd, fun _ => rfl⟩
theorem EncodedForm.enablePaging : EncodedForm.Statement .enablePaging :=
  ⟨rfl, .n, rfl, rfl, rfl, rfl, fun _ => rfl⟩
theorem EncodedForm.disablePaging : EncodedForm.Statement .disablePaging :=
  ⟨rfl, .n, rfl, rfl, rfl, rfl, fun _ => rfl⟩
theorem EncodedForm.setPtbr (rd rt : Reg) : EncodedForm.Statement (.setPtbr rd rt) :=
  ⟨rfl, .ptbr, rfl, rfl, namesRegister_regByte rt, namesRegister_regByte rd, fun _ => rfl⟩
theorem EncodedForm.enterUser : EncodedForm.Statement .enterUser :=
  ⟨rfl, .n, rfl, rfl, rfl, rfl, fun _ => rfl⟩
theorem EncodedForm.getmode (rd : Reg) : EncodedForm.Statement (.getmode rd) :=
  ⟨rfl, .rd, rfl, rfl, rfl, namesRegister_regByte rd, fun _ => rfl⟩

end Sys2Proof.Laws
end

