-- ==== Sys2Proof/Machine/Assembly.lean ====
section
/-! DEFINITION. The assembly language of R140-R143: operand order, register names, pseudo-instructions, labels and the
conventional directives, down to the bytes the host loads. No step depends on it (log 43). -/

namespace Sys2Proof.Machine

/-! ### Written form -/

/-- An operand as it is written (R140). -/
inductive Operand where
  /-- `R0` to `R31`. -/
  | reg (r : Reg)
  /-- A number. -/
  | imm (v : Word)
  /-- `offset(rs)`. -/
  | mem (offset : Word) (rs : Reg)
  deriving DecidableEq, Repr

/-- An instruction as it is written: its mnemonic and its operands in the assembler's order (R124, R140). -/
def writtenForm : Instr → String × List Operand
  | .nop => ("NOP", [])
  | .add rd rs rt => ("ADD", [.reg rd, .reg rs, .reg rt])
  | .addu rd rs rt => ("ADDU", [.reg rd, .reg rs, .reg rt])
  | .sub rd rs rt => ("SUB", [.reg rd, .reg rs, .reg rt])
  | .subu rd rs rt => ("SUBU", [.reg rd, .reg rs, .reg rt])
  | .addi rt rs imm => ("ADDI", [.reg rt, .reg rs, .imm imm])
  | .addiu rt rs imm => ("ADDIU", [.reg rt, .reg rs, .imm imm])
  | .and rd rs rt => ("AND", [.reg rd, .reg rs, .reg rt])
  | .or rd rs rt => ("OR", [.reg rd, .reg rs, .reg rt])
  | .xor rd rs rt => ("XOR", [.reg rd, .reg rs, .reg rt])
  | .nor rd rs rt => ("NOR", [.reg rd, .reg rs, .reg rt])
  | .andi rt rs imm => ("ANDI", [.reg rt, .reg rs, .imm imm])
  | .ori rt rs imm => ("ORI", [.reg rt, .reg rs, .imm imm])
  | .xori rt rs imm => ("XORI", [.reg rt, .reg rs, .imm imm])
  | .lui rt imm => ("LUI", [.reg rt, .imm imm])
  | .sll rd rt imm => ("SLL", [.reg rd, .reg rt, .imm imm])
  | .srl rd rt imm => ("SRL", [.reg rd, .reg rt, .imm imm])
  | .sra rd rt imm => ("SRA", [.reg rd, .reg rt, .imm imm])
  | .sllv rd rt rs => ("SLLV", [.reg rd, .reg rt, .reg rs])
  | .srlv rd rt rs => ("SRLV", [.reg rd, .reg rt, .reg rs])
  | .srav rd rt rs => ("SRAV", [.reg rd, .reg rt, .reg rs])
  | .slt rd rs rt => ("SLT", [.reg rd, .reg rs, .reg rt])
  | .sltu rd rs rt => ("SLTU", [.reg rd, .reg rs, .reg rt])
  | .slti rt rs imm => ("SLTI", [.reg rt, .reg rs, .imm imm])
  | .sltiu rt rs imm => ("SLTIU", [.reg rt, .reg rs, .imm imm])
  | .mul rd rs rt => ("MUL", [.reg rd, .reg rs, .reg rt])
  | .mulh rd rs rt => ("MULH", [.reg rd, .reg rs, .reg rt])
  | .mulhu rd rs rt => ("MULHU", [.reg rd, .reg rs, .reg rt])
  | .div rd rs rt => ("DIV", [.reg rd, .reg rs, .reg rt])
  | .divu rd rs rt => ("DIVU", [.reg rd, .reg rs, .reg rt])
  | .rem rd rs rt => ("REM", [.reg rd, .reg rs, .reg rt])
  | .remu rd rs rt => ("REMU", [.reg rd, .reg rs, .reg rt])
  | .lw rt rs imm => ("LW", [.reg rt, .mem imm rs])
  | .lh rt rs imm => ("LH", [.reg rt, .mem imm rs])
  | .lhu rt rs imm => ("LHU", [.reg rt, .mem imm rs])
  | .lb rt rs imm => ("LB", [.reg rt, .mem imm rs])
  | .lbu rt rs imm => ("LBU", [.reg rt, .mem imm rs])
  | .sw rt rs imm => ("SW", [.reg rt, .mem imm rs])
  | .sh rt rs imm => ("SH", [.reg rt, .mem imm rs])
  | .sb rt rs imm => ("SB", [.reg rt, .mem imm rs])
  | .beq rs rt imm => ("BEQ", [.reg rs, .reg rt, .imm imm])
  | .bne rs rt imm => ("BNE", [.reg rs, .reg rt, .imm imm])
  | .blez rs imm => ("BLEZ", [.reg rs, .imm imm])
  | .bgtz rs imm => ("BGTZ", [.reg rs, .imm imm])
  | .bltz rs imm => ("BLTZ", [.reg rs, .imm imm])
  | .bgez rs imm => ("BGEZ", [.reg rs, .imm imm])
  | .j imm => ("J", [.imm imm])
  | .jal imm => ("JAL", [.imm imm])
  | .jr rs => ("JR", [.reg rs])
  | .jalr rd rs => ("JALR", [.reg rd, .reg rs])
  | .syscall => ("SYSCALL", [])
  | .brk => ("BREAK", [])
  | .ei => ("EI", [])
  | .di => ("DI", [])
  | .iret => ("IRET", [])
  | .raise imm => ("RAISE", [.imm imm])
  | .getpc rd => ("GETPC", [.reg rd])
  | .enablePaging => ("ENABLE_PAGING", [])
  | .disablePaging => ("DISABLE_PAGING", [])
  | .setPtbr rd rt => ("SET_PTBR", [.reg rd, .reg rt])
  | .enterUser => ("ENTER_USER", [])
  | .getmode rd => ("GETMODE", [.reg rd])

/-- The symbolic names of the registers, R0 to R31 (R23, R140): software conventions. -/
def regNames : List String :=
  ["zero", "at", "v0", "v1", "a0", "a1", "a2", "a3", "t0", "t1", "t2", "t3", "t4", "t5", "t6", "t7"] ++
  ["s0", "s1", "s2", "s3", "s4", "s5", "s6", "s7", "t8", "t9", "k0", "k1", "gp", "sp", "fp", "ra"]

/-! ### Labels and pseudo-instructions -/

/-- The offset a branch at `ia` gets for a label: `label - (ia + 8)` modulo 2^32 (R143, R230). -/
def branchOffset (ia label : Word) : Word := label - (ia + 8#32)

/-- The instruction at `ia` with a label for its immediate: the offset in a branch, the label's address in any other
instruction that has an immediate (R143). -/
def withLabel (ia label : Word) : Instr → Instr
  | .beq rs rt _ => .beq rs rt (branchOffset ia label)
  | .bne rs rt _ => .bne rs rt (branchOffset ia label)
  | .blez rs _ => .blez rs (branchOffset ia label)
  | .bgtz rs _ => .bgtz rs (branchOffset ia label)
  | .bltz rs _ => .bltz rs (branchOffset ia label)
  | .bgez rs _ => .bgez rs (branchOffset ia label)
  | i =>
    match decode (Fields.bytes { i.fields with imm := label }) with
    | .ok j => j
    | .error _ => i

/-- The pseudo-instructions of R142; a label is the address it stands for. -/
inductive Pseudo where
  | nop
  | mov (rd rs : Reg)
  | li (rd : Reg) (imm : Word)
  | la (rd : Reg) (label : Word)
  | not (rd rs : Reg)
  | neg (rd rs : Reg)
  | b (label : Word)
  | push (r : Reg)
  | pop (r : Reg)
  | call (f : Word)
  | ret
  deriving DecidableEq, Repr

/-- The instructions a pseudo-instruction at address `ia` stands for (R142); NOP is the real one, opcode 0x00 (C4), and
every constant fits LI's one ADDI (C19). -/
def Pseudo.expand (ia : Word) : Pseudo → List Instr
  | .nop => [.nop]
  | .mov rd rs => [.or rd rs 0]
  | .li rd imm => [.addi rd 0 imm]
  | .la rd label => [.addi rd 0 label]
  | .not rd rs => [.nor rd rs 0]
  | .neg rd rs => [.sub rd 0 rs]
  | .b label => [.beq 0 0 (branchOffset ia label)]
  | .push r => [.addi 29 29 (-4), .sw r 29 0]
  | .pop r => [.lw r 29 0, .addi 29 29 4]
  | .call f => [.jal f]
  | .ret => [.jr 31]

/-! ### Source lines -/

/-- A line of source: labels, instructions and the conventional directives of R141. -/
inductive Line where
  /-- `name:`, the current address. -/
  | label (name : String)
  | instr (i : Instr)
  /-- An instruction whose immediate operand is written as a label. -/
  | labelled (i : Instr) (name : String)
  | pseudo (p : Pseudo)
  /-- `.org addr`. -/
  | org (addr : Nat)
  /-- `.align n`: up to an n-byte boundary, the bytes skipped left as they were; `.align 0` does nothing (DESIGN CHOICE,
  log 43). -/
  | align (n : Nat)
  /-- `.word v`, little-endian. -/
  | word (v : Word)
  /-- `.byte v, ...`. -/
  | byte (vs : List Byte)
  /-- `.space n`: reserve n bytes, left as they were (DESIGN CHOICE, log 43). -/
  | space (n : Nat)
  /-- `.equ NAME, value`; the name may be used wherever a label may (DESIGN CHOICE, log 43). -/
  | equ (name : String) (value : Word)
  deriving DecidableEq, Repr

/-- The value of a name; `hostAssemble` accepts no source that uses an undefined one. -/
def valueOf (names : List (String × Word)) (name : String) : Word := (names.lookup name).getD 0

/-- The bytes a line puts at address `a` (R122, R141). What `.align` pads with and how `.space` fills is not in the source
(N17 of spec/91): here neither puts any byte, so memory keeps what it held (DESIGN CHOICE, log 43). -/
def Line.bytes (names : List (String × Word)) (a : Nat) : Line → List Byte
  | .instr i => encode i
  | .labelled i name => encode (withLabel (BitVec.ofNat 32 a) (valueOf names name) i)
  | .pseudo p => (p.expand (BitVec.ofNat 32 a)).flatMap encode
  | .word v => (List.range 4).map fun k => v.extractLsb' (8 * k) 8
  | .byte vs => vs
  | .label _ | .org _ | .align _ | .space _ | .equ _ _ => []

/-- The address after a line at address `a`. The assembler's range checks are not in the source (N17): `.align 0` leaves the
address as it is, `n` need be no power of two, and `.org` may go back (DESIGN CHOICE, log 43). -/
def Line.next (a : Nat) (l : Line) : Nat :=
  match l with
  | .org addr => addr
  | .align n => if n = 0 then a else (a + n - 1) / n * n
  | .space n => a + n
  | l => a + (l.bytes [] a).length

/-- The names a source defines, from address `a` on (R140, R141). Labels and `.equ` constants share one table, so a constant
written as the operand of a branch is taken as a label, its offset `value - (ia + 8)`, not as R143's number that is the
offset itself (DESIGN CHOICE, log 43); of two definitions of one name the first counts (DESIGN CHOICE, log 43). -/
def definedNames (a : Nat) : List Line → List (String × Word)
  | [] => []
  | .label name :: ls => (name, BitVec.ofNat 32 a) :: definedNames a ls
  | .equ name v :: ls => (name, v) :: definedNames a ls
  | l :: ls => definedNames (l.next a) ls

/-- The pieces of memory a source describes, each with its address. -/
def layout (names : List (String × Word)) (a : Nat) : List Line → List (Nat × List Byte)
  | [] => []
  | l :: ls => (a, l.bytes names a) :: layout names (l.next a) ls

/-- A line uses no undefined name. -/
def Line.resolved (names : List (String × Word)) : Line → Bool
  | .labelled _ name => (names.lookup name).isSome
  | .label _ | .instr _ | .pseudo _ | .org _ | .align _ | .word _ | .byte _ | .space _ | .equ _ _ => true

/-- Assemble a source from address `a` on into the memory of a machine, as the host loads it (R45, R340); none where a name
is undefined (log 43) or a piece is outside the memory array (log 40). -/
def hostAssemble (a : Nat) (source : List Line) (s : State) : Option State :=
  if source.all (Line.resolved (definedNames a source)) then
    (layout (definedNames a source) a source).foldlM (fun s p => hostLoadBytes p.1 p.2 s) s
  else none

end Sys2Proof.Machine
end

