-- ==== Sys2Proof/Tests/Slice0.lean ====
section
/-! SUPPORT. Tests: ill-formed fields are refused, written-out words decode to the instructions they stand for, single steps
give what spec/95_test_vectors.md gives, and every statement's hypotheses are met by a concrete state. -/

namespace Sys2Proof.Tests

open Sys2Proof.Machine

-- One proof at a time: each kernel evaluation would otherwise take a thread of its own.
set_option Elab.async false

/-! ### Well-formedness refuses each ill-formed term (R126, R137), and the decoder names the refusal -/

theorem test_wellFormed_unassigned_opcode :
    Fields.wellFormed ⟨0xFA, 0, 0, 0, 0⟩ = false ∧ decode (Fields.bytes ⟨0xFA, 0, 0, 0, 0⟩) = .error .illegalOpcode := by
  decide +kernel

theorem test_wellFormed_rs :
    Fields.wellFormed ⟨0x01, 32, 0, 0, 0⟩ = false ∧ decode (Fields.bytes ⟨0x01, 32, 0, 0, 0⟩) = .error .registerField := by
  decide +kernel

theorem test_wellFormed_rt :
    Fields.wellFormed ⟨0x05, 0, 0xFF, 0, 0⟩ = false ∧
      decode (Fields.bytes ⟨0x05, 0, 0xFF, 0, 0⟩) = .error .registerField := by
  decide +kernel

theorem test_wellFormed_rd :
    Fields.wellFormed ⟨0xF6, 0, 0, 32, 0⟩ = false ∧ decode (Fields.bytes ⟨0xF6, 0, 0, 32, 0⟩) = .error .registerField := by
  decide +kernel

/-- A register field that the form does not use may hold anything (R125). -/
theorem test_wellFormed_unused_fields : Fields.wellFormed ⟨0x62, 5, 0xFF, 0xEE, 16⟩ = true := by decide +kernel

/-- Fewer than eight bytes are no instruction (R120). -/
theorem test_decode_truncated : decode [0x01, 0x0A, 0x0C, 0x05, 0x00, 0x00, 0x00] = .error .truncated := by decide +kernel

/-! ### Decoding: for every instruction one word written out byte by byte, lowest address first, as the spec encodes it
(R122, R124, R128, spec/95 part 2) -/

/-- The arithmetic words (spec/95 part 2). -/
theorem test_decode_arithmetic :
    decode [0x00, 0x00, 0x00, 0x00, 0x00, 0x00, 0x00, 0x00] = .ok (.nop) ∧
    decode [0x01, 0x0A, 0x0C, 0x05, 0x00, 0x00, 0x00, 0x00] = .ok (.add 5 10 12) ∧
    decode [0x02, 0x01, 0x02, 0x03, 0x00, 0x00, 0x00, 0x00] = .ok (.addu 3 1 2) ∧
    decode [0x05, 0x11, 0x03, 0x00, 0x2A, 0x00, 0x00, 0x00] = .ok (.addi 3 17 0x2A) ∧
    decode [0x06, 0x11, 0x03, 0x00, 0xFF, 0xFF, 0xFF, 0xFF] = .ok (.addiu 3 17 0xFFFFFFFF) ∧
    decode [0x03, 0x0A, 0x05, 0x03, 0x00, 0x00, 0x00, 0x00] = .ok (.sub 3 10 5) ∧
    decode [0x04, 0x01, 0x02, 0x03, 0x00, 0x00, 0x00, 0x00] = .ok (.subu 3 1 2) ∧
    decode [0x40, 0x07, 0x06, 0x03, 0x00, 0x00, 0x00, 0x00] = .ok (.mul 3 7 6) ∧
    decode [0x41, 0x05, 0x06, 0x0A, 0x00, 0x00, 0x00, 0x00] = .ok (.mulh 10 5 6) ∧
    decode [0x42, 0x01, 0x02, 0x03, 0x00, 0x00, 0x00, 0x00] = .ok (.mulhu 3 1 2) ∧
    decode [0x43, 0x0A, 0x07, 0x03, 0x00, 0x00, 0x00, 0x00] = .ok (.div 3 10 7) ∧
    decode [0x44, 0x01, 0x02, 0x03, 0x00, 0x00, 0x00, 0x00] = .ok (.divu 3 1 2) ∧
    decode [0x45, 0x0A, 0x07, 0x04, 0x00, 0x00, 0x00, 0x00] = .ok (.rem 4 10 7) ∧
    decode [0x46, 0x01, 0x02, 0x03, 0x00, 0x00, 0x00, 0x00] = .ok (.remu 3 1 2) := by
  decide +kernel

/-- The logical words (spec/95 part 2). -/
theorem test_decode_logical :
    decode [0x10, 0x01, 0x02, 0x03, 0x00, 0x00, 0x00, 0x00] = .ok (.and 3 1 2) ∧
    decode [0x11, 0x01, 0x02, 0x04, 0x00, 0x00, 0x00, 0x00] = .ok (.or 4 1 2) ∧
    decode [0x12, 0x01, 0x02, 0x05, 0x00, 0x00, 0x00, 0x00] = .ok (.xor 5 1 2) ∧
    decode [0x13, 0x01, 0x02, 0x05, 0x00, 0x00, 0x00, 0x00] = .ok (.nor 5 1 2) ∧
    decode [0x14, 0x0A, 0x05, 0x00, 0xFF, 0x00, 0x00, 0x00] = .ok (.andi 5 10 0xFF) ∧
    decode [0x15, 0x0A, 0x05, 0x00, 0xF0, 0x00, 0x00, 0x00] = .ok (.ori 5 10 0xF0) ∧
    decode [0x16, 0x0A, 0x05, 0x00, 0xFF, 0x00, 0x00, 0x00] = .ok (.xori 5 10 0xFF) ∧
    decode [0x17, 0x00, 0x05, 0x00, 0x34, 0x12, 0x00, 0x00] = .ok (.lui 5 0x1234) := by
  decide +kernel

/-- The shift words (spec/95 part 2). -/
theorem test_decode_shift :
    decode [0x20, 0x00, 0x01, 0x02, 0x02, 0x00, 0x00, 0x00] = .ok (.sll 2 1 2) ∧
    decode [0x21, 0x00, 0x01, 0x03, 0x01, 0x00, 0x00, 0x00] = .ok (.srl 3 1 1) ∧
    decode [0x22, 0x00, 0x01, 0x03, 0x01, 0x00, 0x00, 0x00] = .ok (.sra 3 1 1) ∧
    decode [0x23, 0x03, 0x0A, 0x05, 0x00, 0x00, 0x00, 0x00] = .ok (.sllv 5 10 3) ∧
    decode [0x24, 0x03, 0x0A, 0x05, 0x00, 0x00, 0x00, 0x00] = .ok (.srlv 5 10 3) ∧
    decode [0x25, 0x03, 0x0A, 0x05, 0x00, 0x00, 0x00, 0x00] = .ok (.srav 5 10 3) := by
  decide +kernel

/-- The compare words (spec/95 part 2). -/
theorem test_decode_compare :
    decode [0x30, 0x01, 0x02, 0x03, 0x00, 0x00, 0x00, 0x00] = .ok (.slt 3 1 2) ∧
    decode [0x31, 0x01, 0x02, 0x03, 0x00, 0x00, 0x00, 0x00] = .ok (.sltu 3 1 2) ∧
    decode [0x32, 0x01, 0x03, 0x00, 0x64, 0x00, 0x00, 0x00] = .ok (.slti 3 1 0x64) ∧
    decode [0x33, 0x01, 0x03, 0x00, 0x64, 0x00, 0x00, 0x00] = .ok (.sltiu 3 1 0x64) := by
  decide +kernel

/-- The load/store words (spec/95 part 2). -/
theorem test_decode_load_store :
    decode [0x50, 0x02, 0x08, 0x00, 0x64, 0x00, 0x00, 0x00] = .ok (.lw 8 2 0x64) ∧
    decode [0x51, 0x02, 0x05, 0x00, 0x0A, 0x00, 0x00, 0x00] = .ok (.lh 5 2 0xA) ∧
    decode [0x52, 0x02, 0x05, 0x00, 0x0A, 0x00, 0x00, 0x00] = .ok (.lhu 5 2 0xA) ∧
    decode [0x53, 0x02, 0x05, 0x00, 0x05, 0x00, 0x00, 0x00] = .ok (.lb 5 2 5) ∧
    decode [0x54, 0x02, 0x05, 0x00, 0x05, 0x00, 0x00, 0x00] = .ok (.lbu 5 2 5) ∧
    decode [0x58, 0x02, 0x08, 0x00, 0x64, 0x00, 0x00, 0x00] = .ok (.sw 8 2 0x64) ∧
    decode [0x59, 0x02, 0x08, 0x00, 0x0A, 0x00, 0x00, 0x00] = .ok (.sh 8 2 0xA) ∧
    decode [0x5A, 0x02, 0x08, 0x00, 0x05, 0x00, 0x00, 0x00] = .ok (.sb 8 2 5) := by
  decide +kernel

/-- The branch words (spec/95 part 2). -/
theorem test_decode_branch :
    decode [0x60, 0x05, 0x06, 0x00, 0x00, 0x01, 0x00, 0x00] = .ok (.beq 5 6 0x100) ∧
    decode [0x61, 0x01, 0x02, 0x00, 0xE8, 0xFF, 0xFF, 0xFF] = .ok (.bne 1 2 0xFFFFFFE8) ∧
    decode [0x62, 0x05, 0x00, 0x00, 0x10, 0x00, 0x00, 0x00] = .ok (.blez 5 0x10) ∧
    decode [0x63, 0x05, 0x00, 0x00, 0x10, 0x00, 0x00, 0x00] = .ok (.bgtz 5 0x10) ∧
    decode [0x64, 0x0A, 0x00, 0x00, 0x10, 0x00, 0x00, 0x00] = .ok (.bltz 10 0x10) ∧
    decode [0x65, 0x0A, 0x00, 0x00, 0x10, 0x00, 0x00, 0x00] = .ok (.bgez 10 0x10) := by
  decide +kernel

/-- The jump words (spec/95 part 2). -/
theorem test_decode_jump :
    decode [0x70, 0x00, 0x00, 0x00, 0x00, 0x30, 0x00, 0x00] = .ok (.j 0x3000) ∧
    decode [0x71, 0x00, 0x00, 0x00, 0x00, 0x30, 0x00, 0x00] = .ok (.jal 0x3000) ∧
    decode [0x72, 0x1F, 0x00, 0x00, 0x00, 0x00, 0x00, 0x00] = .ok (.jr 31) ∧
    decode [0x73, 0x0A, 0x00, 0x05, 0x00, 0x00, 0x00, 0x00] = .ok (.jalr 5 10) := by
  decide +kernel

/-- The system words (spec/95 part 2). -/
theorem test_decode_system :
    decode [0xF0, 0x00, 0x00, 0x00, 0x00, 0x00, 0x00, 0x00] = .ok (.syscall) ∧
    decode [0xF1, 0x00, 0x00, 0x00, 0x00, 0x00, 0x00, 0x00] = .ok (.brk) ∧
    decode [0xF2, 0x00, 0x00, 0x00, 0x00, 0x00, 0x00, 0x00] = .ok (.ei) ∧
    decode [0xF3, 0x00, 0x00, 0x00, 0x00, 0x00, 0x00, 0x00] = .ok (.di) ∧
    decode [0xF4, 0x00, 0x00, 0x00, 0x00, 0x00, 0x00, 0x00] = .ok (.iret) ∧
    decode [0xF5, 0x00, 0x00, 0x00, 0x20, 0x00, 0x00, 0x00] = .ok (.raise 0x20) ∧
    decode [0xF6, 0x00, 0x00, 0x05, 0x00, 0x00, 0x00, 0x00] = .ok (.getpc 5) ∧
    decode [0xF7, 0x00, 0x00, 0x00, 0x00, 0x00, 0x00, 0x00] = .ok (.enablePaging) ∧
    decode [0xF8, 0x00, 0x00, 0x00, 0x00, 0x00, 0x00, 0x00] = .ok (.disablePaging) ∧
    decode [0xF9, 0x00, 0x06, 0x05, 0x00, 0x00, 0x00, 0x00] = .ok (.setPtbr 5 6) ∧
    decode [0xFB, 0x00, 0x00, 0x00, 0x00, 0x00, 0x00, 0x00] = .ok (.enterUser) ∧
    decode [0xFC, 0x00, 0x00, 0x05, 0x00, 0x00, 0x00, 0x00] = .ok (.getmode 5) := by
  decide +kernel

/-- The table's own `match` word of SET_PTBR with operands R5, R6: opcode in bits 63:56 (R121). -/
theorem test_decodeTableWord : decodeTableWord 64 0xF900060500000000 = some (.setPtbr 5 6) := by decide +kernel

/-! ### Small states -/

/-- Store bytes. -/
def poke (s : State) (a : Nat) (bytes : List Byte) : State := { s with mem := s.mem.writeBytes a bytes }

/-- The start of spec/95 part 2: after reset, 64 KB of zeros, the instruction's bytes at 0x1000, the pc on it, running, and
the registers given. -/
def cpu (bytes : List Byte) (regs : List (Reg × Word)) : State :=
  { regs.foldl (fun s p => s.setReg p.1 p.2) (poke (State.init Config.default [] 0x10000) 0x1000 bytes) with
    pc := 0x1000
    running := true }

/-- The state a step ends in, if it is a next state. -/
def after (s : State) : Option State :=
  match step s with
  | .next t => some t
  | .fault f => nomatch f
  | .refused _ => none

/-- The step ends in a next state, and there `p` holds. -/
def shows (s : State) (p : State → Bool) : Bool :=
  match step s with
  | .next t => p t
  | .fault f => nomatch f
  | .refused _ => false

/-- The state a step ends in, the state itself where it ends in none. -/
def stepped (s : State) : State := (after s).getD s

theorem step_stepped {s : State} (h : (after s).isSome = true) : step s = .next (stepped s) := by
  unfold stepped
  unfold after at h ⊢
  split at h
  · rename_i t ht; rw [ht]; rfl
  · rename_i f _; exact nomatch f
  · cases h

/-! ### Single steps, each the row of spec/95 part 2 for that instruction -/

/-- `ADD R3, R1, R2`. -/
theorem test_step_add_wraps :
    shows (cpu [0x01, 0x01, 0x02, 0x03, 0x00, 0x00, 0x00, 0x00] [(1, 0x7fffffff), (2, 0x1)])
      (fun t => t.pc == 0x1008 && t.readReg 3 == 0x80000000) = true := by
  decide +kernel

/-- `ADD R0, R1, R2`. -/
theorem test_step_add_to_r0 :
    shows (cpu [0x01, 0x01, 0x02, 0x00, 0x00, 0x00, 0x00, 0x00] [(1, 0x5), (2, 0x6)])
      (fun t => t.pc == 0x1008 && t.readReg 0 == 0x0) = true := by
  decide +kernel

/-- `ADDU R3, R1, R2`. -/
theorem test_step_addu :
    shows (cpu [0x02, 0x01, 0x02, 0x03, 0x00, 0x00, 0x00, 0x00] [(1, 0xffffffff), (2, 0x2)])
      (fun t => t.pc == 0x1008 && t.readReg 3 == 0x1) = true := by
  decide +kernel

/-- `ADDI R5, R5, -10`. -/
theorem test_step_addi_negative :
    shows (cpu [0x05, 0x05, 0x05, 0x00, 0xF6, 0xFF, 0xFF, 0xFF] [(5, 0x3)])
      (fun t => t.pc == 0x1008 && t.readReg 5 == 0xfffffff9) = true := by
  decide +kernel

/-- `ADDIU R3, R17, -1`. -/
theorem test_step_addiu :
    shows (cpu [0x06, 0x11, 0x03, 0x00, 0xFF, 0xFF, 0xFF, 0xFF] [(17, 0x0)])
      (fun t => t.pc == 0x1008 && t.readReg 3 == 0xffffffff) = true := by
  decide +kernel

/-- `SUB R3, R1, R2`. -/
theorem test_step_sub_wraps :
    shows (cpu [0x03, 0x01, 0x02, 0x03, 0x00, 0x00, 0x00, 0x00] [(1, 0x80000000), (2, 0x1)])
      (fun t => t.pc == 0x1008 && t.readReg 3 == 0x7fffffff) = true := by
  decide +kernel

/-- `SUBU R3, R1, R2`. -/
theorem test_step_subu :
    shows (cpu [0x04, 0x01, 0x02, 0x03, 0x00, 0x00, 0x00, 0x00] [(1, 0x0), (2, 0x1)])
      (fun t => t.pc == 0x1008 && t.readReg 3 == 0xffffffff) = true := by
  decide +kernel

/-- `MUL R3, R1, R2`. -/
theorem test_step_mul :
    shows (cpu [0x40, 0x01, 0x02, 0x03, 0x00, 0x00, 0x00, 0x00] [(1, 0xffffffff), (2, 0xffffffff)])
      (fun t => t.pc == 0x1008 && t.readReg 3 == 0x1) = true := by
  decide +kernel

/-- `MULH R3, R1, R2`. -/
theorem test_step_mulh_negative :
    shows (cpu [0x41, 0x01, 0x02, 0x03, 0x00, 0x00, 0x00, 0x00] [(1, 0xffffffff), (2, 0x1)])
      (fun t => t.pc == 0x1008 && t.readReg 3 == 0xffffffff) = true := by
  decide +kernel

/-- `MULH R3, R1, R2`. -/
theorem test_step_mulh_min :
    shows (cpu [0x41, 0x01, 0x02, 0x03, 0x00, 0x00, 0x00, 0x00] [(1, 0x80000000), (2, 0x80000000)])
      (fun t => t.pc == 0x1008 && t.readReg 3 == 0x40000000) = true := by
  decide +kernel

/-- `MULHU R3, R1, R2`. -/
theorem test_step_mulhu :
    shows (cpu [0x42, 0x01, 0x02, 0x03, 0x00, 0x00, 0x00, 0x00] [(1, 0xffffffff), (2, 0xffffffff)])
      (fun t => t.pc == 0x1008 && t.readReg 3 == 0xfffffffe) = true := by
  decide +kernel

/-- `DIV R3, R1, R2`. -/
theorem test_step_div_truncates :
    shows (cpu [0x43, 0x01, 0x02, 0x03, 0x00, 0x00, 0x00, 0x00] [(1, 0xffffff9c), (2, 0x7)])
      (fun t => t.pc == 0x1008 && t.readReg 3 == 0xfffffff2) = true := by
  decide +kernel

/-- `DIV R3, R1, R2`. -/
theorem test_step_div_overflow :
    shows (cpu [0x43, 0x01, 0x02, 0x03, 0x00, 0x00, 0x00, 0x00] [(1, 0x80000000), (2, 0xffffffff)])
      (fun t => t.pc == 0x1008 && t.readReg 3 == 0x80000000) = true := by
  decide +kernel

/-- `DIVU R3, R1, R2`. -/
theorem test_step_divu :
    shows (cpu [0x44, 0x01, 0x02, 0x03, 0x00, 0x00, 0x00, 0x00] [(1, 0xffffffff), (2, 0x2)])
      (fun t => t.pc == 0x1008 && t.readReg 3 == 0x7fffffff) = true := by
  decide +kernel

/-- `DIVU R3, R1, R2`. -/
theorem test_step_divu_zero :
    shows (cpu [0x44, 0x01, 0x02, 0x03, 0x00, 0x00, 0x00, 0x00] [(1, 0x7), (2, 0x0), (3, 0x7)])
      (fun t => t.pc == 0x1008 && t.readReg 3 == 0x0) = true := by
  decide +kernel

/-- `REM R3, R1, R2`. -/
theorem test_step_rem_sign :
    shows (cpu [0x45, 0x01, 0x02, 0x03, 0x00, 0x00, 0x00, 0x00] [(1, 0xffffff9c), (2, 0x7)])
      (fun t => t.pc == 0x1008 && t.readReg 3 == 0xfffffffe) = true := by
  decide +kernel

/-- `REM R3, R1, R2`. -/
theorem test_step_rem_overflow :
    shows (cpu [0x45, 0x01, 0x02, 0x03, 0x00, 0x00, 0x00, 0x00] [(1, 0x80000000), (2, 0xffffffff), (3, 0x7)])
      (fun t => t.pc == 0x1008 && t.readReg 3 == 0x0) = true := by
  decide +kernel

/-- `REMU R3, R1, R2`. -/
theorem test_step_remu :
    shows (cpu [0x46, 0x01, 0x02, 0x03, 0x00, 0x00, 0x00, 0x00] [(1, 0xffffffff), (2, 0xa)])
      (fun t => t.pc == 0x1008 && t.readReg 3 == 0x5) = true := by
  decide +kernel

/-- `AND R3, R1, R2`. -/
theorem test_step_and :
    shows (cpu [0x10, 0x01, 0x02, 0x03, 0x00, 0x00, 0x00, 0x00] [(1, 0xf), (2, 0x33)])
      (fun t => t.pc == 0x1008 && t.readReg 3 == 0x3) = true := by
  decide +kernel

/-- `OR R4, R1, R2`. -/
theorem test_step_or :
    shows (cpu [0x11, 0x01, 0x02, 0x04, 0x00, 0x00, 0x00, 0x00] [(1, 0xf), (2, 0x33)])
      (fun t => t.pc == 0x1008 && t.readReg 4 == 0x3f) = true := by
  decide +kernel

/-- `XOR R5, R1, R2`. -/
theorem test_step_xor :
    shows (cpu [0x12, 0x01, 0x02, 0x05, 0x00, 0x00, 0x00, 0x00] [(1, 0xf), (2, 0x33)])
      (fun t => t.pc == 0x1008 && t.readReg 5 == 0x3c) = true := by
  decide +kernel

/-- `NOR R5, R1, R2`. -/
theorem test_step_nor :
    shows (cpu [0x13, 0x01, 0x02, 0x05, 0x00, 0x00, 0x00, 0x00] [(1, 0xf), (2, 0x33)])
      (fun t => t.pc == 0x1008 && t.readReg 5 == 0xffffffc0) = true := by
  decide +kernel

/-- `ANDI R5, R10, -1`. -/
theorem test_step_andi :
    shows (cpu [0x14, 0x0A, 0x05, 0x00, 0xFF, 0xFF, 0xFF, 0xFF] [(10, 0x12345678)])
      (fun t => t.pc == 0x1008 && t.readReg 5 == 0x12345678) = true := by
  decide +kernel

/-- `ORI R5, R0, 0x80000000`. -/
theorem test_step_ori :
    shows (cpu [0x15, 0x00, 0x05, 0x00, 0x00, 0x00, 0x00, 0x80] [])
      (fun t => t.pc == 0x1008 && t.readReg 5 == 0x80000000) = true := by
  decide +kernel

/-- `XORI R5, R10, -1`. -/
theorem test_step_xori :
    shows (cpu [0x16, 0x0A, 0x05, 0x00, 0xFF, 0xFF, 0xFF, 0xFF] [(10, 0x12345678)])
      (fun t => t.pc == 0x1008 && t.readReg 5 == 0xedcba987) = true := by
  decide +kernel

/-- `LUI R5, 0xABCD1234`. -/
theorem test_step_lui :
    shows (cpu [0x17, 0x00, 0x05, 0x00, 0x34, 0x12, 0xCD, 0xAB] [])
      (fun t => t.pc == 0x1008 && t.readReg 5 == 0x12340000) = true := by
  decide +kernel

/-- `SLL R2, R1, 32`. -/
theorem test_step_sll_masked :
    shows (cpu [0x20, 0x00, 0x01, 0x02, 0x20, 0x00, 0x00, 0x00] [(1, 0x3)])
      (fun t => t.pc == 0x1008 && t.readReg 2 == 0x3) = true := by
  decide +kernel

/-- `SRL R3, R1, 1`. -/
theorem test_step_srl :
    shows (cpu [0x21, 0x00, 0x01, 0x03, 0x01, 0x00, 0x00, 0x00] [(1, 0x80000000)])
      (fun t => t.pc == 0x1008 && t.readReg 3 == 0x40000000) = true := by
  decide +kernel

/-- `SRA R3, R1, 1`. -/
theorem test_step_sra :
    shows (cpu [0x22, 0x00, 0x01, 0x03, 0x01, 0x00, 0x00, 0x00] [(1, 0xfffffff8)])
      (fun t => t.pc == 0x1008 && t.readReg 3 == 0xfffffffc) = true := by
  decide +kernel

/-- `SLLV R5, R10, R3`. -/
theorem test_step_sllv_masked :
    shows (cpu [0x23, 0x03, 0x0A, 0x05, 0x00, 0x00, 0x00, 0x00] [(3, 0xffffffff), (10, 0x1)])
      (fun t => t.pc == 0x1008 && t.readReg 5 == 0x80000000) = true := by
  decide +kernel

/-- `SRLV R5, R10, R3`. -/
theorem test_step_srlv_masked :
    shows (cpu [0x24, 0x03, 0x0A, 0x05, 0x00, 0x00, 0x00, 0x00] [(3, 0x24), (10, 0x80000000)])
      (fun t => t.pc == 0x1008 && t.readReg 5 == 0x8000000) = true := by
  decide +kernel

/-- `SRAV R5, R10, R3`. -/
theorem test_step_srav :
    shows (cpu [0x25, 0x03, 0x0A, 0x05, 0x00, 0x00, 0x00, 0x00] [(3, 0x2), (10, 0xffffffe0)])
      (fun t => t.pc == 0x1008 && t.readReg 5 == 0xfffffff8) = true := by
  decide +kernel

/-- `SLT R3, R1, R2`. -/
theorem test_step_slt :
    shows (cpu [0x30, 0x01, 0x02, 0x03, 0x00, 0x00, 0x00, 0x00] [(1, 0x80000000), (2, 0x7fffffff)])
      (fun t => t.pc == 0x1008 && t.readReg 3 == 0x1) = true := by
  decide +kernel

/-- `SLTU R3, R1, R2`. -/
theorem test_step_sltu :
    shows (cpu [0x31, 0x01, 0x02, 0x03, 0x00, 0x00, 0x00, 0x00] [(1, 0xffffffff), (2, 0x5), (3, 0x7)])
      (fun t => t.pc == 0x1008 && t.readReg 3 == 0x0) = true := by
  decide +kernel

/-- `SLTI R3, R1, -1`. -/
theorem test_step_slti :
    shows (cpu [0x32, 0x01, 0x03, 0x00, 0xFF, 0xFF, 0xFF, 0xFF] [(1, 0xfffffffe)])
      (fun t => t.pc == 0x1008 && t.readReg 3 == 0x1) = true := by
  decide +kernel

/-- `SLTIU R3, R1, -1`. -/
theorem test_step_sltiu :
    shows (cpu [0x33, 0x01, 0x03, 0x00, 0xFF, 0xFF, 0xFF, 0xFF] [(1, 0xfffffffe)])
      (fun t => t.pc == 0x1008 && t.readReg 3 == 0x1) = true := by
  decide +kernel

/-- `LW R5, 0(R2)`. -/
theorem test_step_lw_misaligned :
    shows (poke (cpu [0x50, 0x02, 0x05, 0x00, 0x00, 0x00, 0x00, 0x00] [(2, 0x2001), (5, 0x7)]) 0x2000 [0x11, 0x22, 0x33, 0x44, 0x55])
      (fun t => t.pc == 0x1008 && t.readReg 5 == 0x55443322) = true := by
  decide +kernel

/-- `LW R2, 0x2004(R0)`. -/
theorem test_step_lw_reserved_pte_bits :
    shows { poke (poke (cpu [0x50, 0x00, 0x02, 0x00, 0x04, 0x20, 0x00, 0x00] []) 0x3004 [0x78, 0x56, 0x34, 0x12]) 0x9000 [0x0D, 0x20, 0x00, 0x00, 0x0D, 0x10, 0x00, 0x00, 0xFB, 0x3F] with kernelMode := false, pagingEnabled := true, pageTableBase := 0x9000, numPages := 0x4 }
      (fun t => t.pc == 0x1008 && t.readReg 2 == 0x12345678) = true := by
  decide +kernel

/-- `LH R5, 10(R2)`. -/
theorem test_step_lh :
    shows (poke (cpu [0x51, 0x02, 0x05, 0x00, 0x0A, 0x00, 0x00, 0x00] [(2, 0x2000)]) 0x200a [0x00, 0x80])
      (fun t => t.pc == 0x1008 && t.readReg 5 == 0xffff8000) = true := by
  decide +kernel

/-- `LHU R5, 10(R2)`. -/
theorem test_step_lhu :
    shows (poke (cpu [0x52, 0x02, 0x05, 0x00, 0x0A, 0x00, 0x00, 0x00] [(2, 0x2000)]) 0x200a [0x00, 0x80])
      (fun t => t.pc == 0x1008 && t.readReg 5 == 0x8000) = true := by
  decide +kernel

/-- `LB R5, 0(R2)`. -/
theorem test_step_lb :
    shows (poke (cpu [0x53, 0x02, 0x05, 0x00, 0x00, 0x00, 0x00, 0x00] [(2, 0x2000)]) 0x2000 [0x80])
      (fun t => t.pc == 0x1008 && t.readReg 5 == 0xffffff80) = true := by
  decide +kernel

/-- `LBU R5, 0(R2)`. -/
theorem test_step_lbu_last_byte :
    shows (poke (cpu [0x54, 0x02, 0x05, 0x00, 0x00, 0x00, 0x00, 0x00] [(2, 0xffff)]) 0xffff [0xAB])
      (fun t => t.pc == 0x1008 && t.readReg 5 == 0xab) = true := by
  decide +kernel

/-- `SW R8, 100(R2)`. -/
theorem test_step_sw :
    shows (cpu [0x58, 0x02, 0x08, 0x00, 0x64, 0x00, 0x00, 0x00] [(2, 0x1000), (8, 0x12345678)])
      (fun t => t.pc == 0x1008 && t.mem.read 0x1064 == 0x78 && t.mem.read 0x1065 == 0x56 && t.mem.read 0x1066 == 0x34 && t.mem.read 0x1067 == 0x12) = true := by
  decide +kernel

/-- `SW R1, 256(R0)`. -/
theorem test_step_sw_read_only_page :
    shows { poke (cpu [0x58, 0x00, 0x01, 0x00, 0x00, 0x01, 0x00, 0x00] [(1, 0xaabbccdd)]) 0x9000 [0x0D, 0x20, 0x00, 0x00, 0x0D, 0x10, 0x00, 0x00, 0x0B, 0x30] with kernelMode := false, pagingEnabled := true, pageTableBase := 0x9000, numPages := 0x4 }
      (fun t => t.pc == 0x1008 && t.pending == 0x100 && t.mem.read 0x2100 == 0x00) = true := by
  decide +kernel

/-- `SH R8, 10(R2)`. -/
theorem test_step_sh :
    shows (poke (cpu [0x59, 0x02, 0x08, 0x00, 0x0A, 0x00, 0x00, 0x00] [(2, 0x2000), (8, 0x12345678)]) 0x2008 [0xAA, 0xAA, 0xAA, 0xAA, 0xAA, 0xAA])
      (fun t => t.pc == 0x1008 && t.mem.read 0x200a == 0x78 && t.mem.read 0x200b == 0x56 && t.mem.read 0x200c == 0xAA) = true := by
  decide +kernel

/-- `SB R8, 5(R2)`. -/
theorem test_step_sb :
    shows (poke (cpu [0x5A, 0x02, 0x08, 0x00, 0x05, 0x00, 0x00, 0x00] [(2, 0x2000), (8, 0x12345678)]) 0x2004 [0xAA, 0xAA, 0xAA])
      (fun t => t.pc == 0x1008 && t.mem.read 0x2005 == 0x78 && t.mem.read 0x2006 == 0xAA) = true := by
  decide +kernel

/-- `BEQ R0, R0, -16`. -/
theorem test_step_beq_backwards :
    shows (cpu [0x60, 0x00, 0x00, 0x00, 0xF0, 0xFF, 0xFF, 0xFF] [])
      (fun t => t.pc == 0xff8) = true := by
  decide +kernel

/-- `BNE R1, R2, -24`. -/
theorem test_step_bne :
    shows (cpu [0x61, 0x01, 0x02, 0x00, 0xE8, 0xFF, 0xFF, 0xFF] [(1, 0x1), (2, 0xa)])
      (fun t => t.pc == 0xff0) = true := by
  decide +kernel

/-- `BLEZ R5, 16`. -/
theorem test_step_blez :
    shows (cpu [0x62, 0x05, 0x00, 0x00, 0x10, 0x00, 0x00, 0x00] [(5, 0xffffffff)])
      (fun t => t.pc == 0x1018) = true := by
  decide +kernel

/-- `BGTZ R5, 16`. -/
theorem test_step_bgtz :
    shows (cpu [0x63, 0x05, 0x00, 0x00, 0x10, 0x00, 0x00, 0x00] [(5, 0x80000000)])
      (fun t => t.pc == 0x1008) = true := by
  decide +kernel

/-- `BLTZ R10, 16`. -/
theorem test_step_bltz :
    shows (cpu [0x64, 0x0A, 0x00, 0x00, 0x10, 0x00, 0x00, 0x00] [(10, 0x80000000)])
      (fun t => t.pc == 0x1018) = true := by
  decide +kernel

/-- `BGEZ R0, 64`. -/
theorem test_step_bgez_no_link :
    shows (cpu [0x65, 0x00, 0x00, 0x00, 0x40, 0x00, 0x00, 0x00] [(31, 0x55)])
      (fun t => t.pc == 0x1048 && t.readReg 31 == 0x55) = true := by
  decide +kernel

/-- `J 0x3000`. -/
theorem test_step_j :
    shows (cpu [0x70, 0x00, 0x00, 0x00, 0x00, 0x30, 0x00, 0x00] [])
      (fun t => t.pc == 0x3000) = true := by
  decide +kernel

/-- `JAL 0x3000`. -/
theorem test_step_jal :
    shows (cpu [0x71, 0x00, 0x00, 0x00, 0x00, 0x30, 0x00, 0x00] [])
      (fun t => t.pc == 0x3000 && t.readReg 31 == 0x1008) = true := by
  decide +kernel

/-- `JR R31`. -/
theorem test_step_jr :
    shows (cpu [0x72, 0x1F, 0x00, 0x00, 0x00, 0x00, 0x00, 0x00] [(31, 0x1018)])
      (fun t => t.pc == 0x1018) = true := by
  decide +kernel

/-- `JALR R5, R10`. -/
theorem test_step_jalr :
    shows (cpu [0x73, 0x0A, 0x00, 0x05, 0x00, 0x00, 0x00, 0x00] [(10, 0x3000)])
      (fun t => t.pc == 0x3000 && t.readReg 5 == 0x1008) = true := by
  decide +kernel

/-- `JALR R5, R5`. -/
theorem test_step_jalr_same_register :
    shows (cpu [0x73, 0x05, 0x00, 0x05, 0x00, 0x00, 0x00, 0x00] [(5, 0x3000)])
      (fun t => t.pc == 0x1008 && t.readReg 5 == 0x1008) = true := by
  decide +kernel

/-- `NOP`. -/
theorem test_step_nop_any_fields :
    shows (cpu [0x00, 0x21, 0x43, 0x65, 0x87, 0xA9, 0xCB, 0xED] [])
      (fun t => t.pc == 0x1008) = true := by
  decide +kernel

/-- `SYSCALL`. -/
theorem test_step_syscall_user :
    shows { cpu [0xF0, 0x00, 0x00, 0x00, 0x00, 0x00, 0x00, 0x00] [] with kernelMode := false }
      (fun t => t.pc == 0x1008 && t.running == false && t.pending == 0x10 && t.stopReason == some .haltSyscall && t.kernelMode == false) = true := by
  decide +kernel

/-- `BREAK`. -/
theorem test_step_break :
    shows (cpu [0xF1, 0x00, 0x00, 0x00, 0x00, 0x00, 0x00, 0x00] [])
      (fun t => t.pc == 0x1008 && t.running == false && t.pending == 0x20 && t.stopReason == some .haltBreak) = true := by
  decide +kernel

/-- `EI`. -/
theorem test_step_ei :
    shows (cpu [0xF2, 0x00, 0x00, 0x00, 0x00, 0x00, 0x00, 0x00] [])
      (fun t => t.pc == 0x1008 && t.intEnabled == true) = true := by
  decide +kernel

/-- `DI`. -/
theorem test_step_di_user :
    shows { cpu [0xF3, 0x00, 0x00, 0x00, 0x00, 0x00, 0x00, 0x00] [] with kernelMode := false, intEnabled := true }
      (fun t => t.pc == 0x1008 && t.pending == 0x80 && t.intEnabled == true) = true := by
  decide +kernel

/-- `RAISE 288`. -/
theorem test_step_raise_low_byte :
    shows (cpu [0xF5, 0x00, 0x00, 0x00, 0x20, 0x01, 0x00, 0x00] [])
      (fun t => t.pc == 0x1008 && t.pending == 0x100000000) = true := by
  decide +kernel

/-- `GETPC R5`. -/
theorem test_step_getpc_user :
    shows { cpu [0xF6, 0x00, 0x00, 0x05, 0x00, 0x00, 0x00, 0x00] [] with kernelMode := false, savedPc := 0x1038 }
      (fun t => t.pc == 0x1008 && t.readReg 5 == 0x1038) = true := by
  decide +kernel

/-- `IRET`. -/
theorem test_step_iret_user :
    shows { cpu [0xF4, 0x00, 0x00, 0x00, 0x00, 0x00, 0x00, 0x00] [] with kernelMode := false, savedPc := 0x1038, savedRegsAddr := 0x7F80 }
      (fun t => t.pc == 0x1008 && t.pending == 0x80) = true := by
  decide +kernel

/-- `ENABLE_PAGING`. -/
theorem test_step_enable_paging :
    shows (cpu [0xF7, 0x00, 0x00, 0x00, 0x00, 0x00, 0x00, 0x00] [])
      (fun t => t.pc == 0x1008 && t.pagingEnabled == true) = true := by
  decide +kernel

/-- `DISABLE_PAGING`. -/
theorem test_step_disable_paging :
    shows { cpu [0xF8, 0x00, 0x00, 0x00, 0x00, 0x00, 0x00, 0x00] [] with pagingEnabled := true }
      (fun t => t.pc == 0x1008 && t.pagingEnabled == false) = true := by
  decide +kernel

/-- `SET_PTBR R5, R6`. -/
theorem test_step_set_ptbr :
    shows (cpu [0xF9, 0x00, 0x06, 0x05, 0x00, 0x00, 0x00, 0x00] [(5, 0x9000), (6, 0x400)])
      (fun t => t.pc == 0x1008 && t.pageTableBase == 0x9000 && t.numPages == 0x400) = true := by
  decide +kernel

/-- `ENTER_USER`. -/
theorem test_step_enter_user :
    shows (cpu [0xFB, 0x00, 0x00, 0x00, 0x00, 0x00, 0x00, 0x00] [])
      (fun t => t.pc == 0x1008 && t.kernelMode == false) = true := by
  decide +kernel

/-- `GETMODE R5`. -/
theorem test_step_getmode_user :
    shows { cpu [0xFC, 0x00, 0x00, 0x05, 0x00, 0x00, 0x00, 0x00] [(5, 0x9)] with kernelMode := false }
      (fun t => t.pc == 0x1008 && t.readReg 5 == 0x0) = true := by
  decide +kernel

/-- `opcode 0xFA`. -/
theorem test_step_opcode_fa :
    shows (cpu [0xFA, 0x00, 0x00, 0x00, 0x00, 0x00, 0x00, 0x00] [])
      (fun t => t.pc == 0x1008 && t.pending == 0x2) = true := by
  decide +kernel

/-- `NOP`. -/
theorem test_step_fetch_page_fault :
    shows { poke (cpu [0x00, 0x00, 0x00, 0x00, 0x00, 0x00, 0x00, 0x00] []) 0x9000 [0x0D, 0x20, 0x00, 0x00, 0x0B, 0x10, 0x00, 0x00, 0x0B, 0x30] with kernelMode := false, pagingEnabled := true, pageTableBase := 0x9000, numPages := 0x4 }
      (fun t => t.pc == 0x1000 && t.pending == 0x100 && t.stopReason == some .fetchPageFault) = true := by
  decide +kernel

/-- IRET, the row of spec/95: word i of the frame is 0x100 + i; R0 stays 0, R29 and R31 come from the frame. -/
theorem test_step_iret :
    shows { cpu [0xF4, 0, 0, 0, 0, 0, 0, 0] [] with
        mem := (cpu [0xF4, 0, 0, 0, 0, 0, 0, 0] []).mem.writeWords 0x7F80 ((List.range 32).map (BitVec.ofNat 32 <| 0x100 + ·))
        savedPc := 0x1038
        savedRegsAddr := 0x7F80 }
      (fun t => t.pc == 0x1038 && t.intEnabled && t.kernelMode && t.readReg 0 == 0 && t.readReg 1 == 0x101 &&
        t.readReg 29 == 0x11D && t.readReg 31 == 0x11F) = true := by
  decide +kernel

/-! ### A concrete state for the hypotheses of every statement that has any, at the edges of its ranges

Each theorem is named after its statement. `quiet` is `cpu` with a NOP; `user` runs in translated mode through the page table
of spec/95: page 0 at 0x2000 and page 1 at 0x1000 (read, execute), page 2 at 0x3000 (read, write). -/

/-- A state at a NOP with no interrupt to dispatch. -/
def quiet : State := cpu [] []

/-- Translated mode: the page table of spec/95 part 2. -/
def user (bytes : List Byte) (regs : List (Reg × Word)) : State :=
  { poke (cpu bytes regs) 0x9000 [0x0D, 0x20, 0, 0, 0x0D, 0x10, 0, 0, 0x0B, 0x30] with
    kernelMode := false
    pagingEnabled := true
    pageTableBase := 0x9000
    numPages := 4 }

/-- A pending interrupt 32 with a frame that ends at the end of memory and a handler at 0x1100. -/
def interrupted (bytes : List Byte) : State :=
  { poke (poke (cpu [] [(29, 0x10000)]) 0x100 [0x00, 0x11]) 0x1100 bytes with
    intEnabled := true
    pending := 0x100000000 }

/-- The state after the interrupt check of `interrupted`. -/
def dispatched (bytes : List Byte) : State := ((interrupted bytes).dispatch 32).getD quiet

/-- The parameters with every choice other than the default. -/
def otherConfig : Config := ⟨.refuse, .restoreSaved, .post, .no, .stop, .faulting, .refuse⟩

/-- The fetch of `cpu`: its bytes at 0x1000. -/
theorem fetches_cpu (bytes : List Byte) (s1 : State)
    (h : ({ cpu bytes [] with stopReason := none } : State).interruptCheck = some s1 ∧ s1.fetchAddr.toOption = some 0x1000 ∧
      bytes = s1.fetchBytes 0x1000) : fetches (cpu bytes []) s1 bytes := by
  obtain ⟨hc, hf, hb⟩ := h
  refine fetches_iff.2 ⟨hc, 0x1000, ?_, hb⟩
  cases he : s1.fetchAddr with
  | error e => rw [he] at hf; cases hf
  | ok a => rw [he] at hf; cases hf; rfl

/-! Encoding -/

theorem test_witness_DecodeReadsItsFields :
    decode (Fields.bytes ⟨0x05, 31, 31, 0xEE, 0xFFFFFFFF⟩) = .ok (.addi 31 31 0xFFFFFFFF) := by decide +kernel

theorem test_witness_UnusedFieldsIgnored :
    formOf 0x20 = some .shi ∧ agreeWhereUsed ⟨0x20, 0xFF, 31, 2, 0x1F⟩ ⟨0x20, 0, 31, 2, 0xFFFFFFFF⟩ .shi := by
  unfold agreeWhereUsed; decide +kernel

/-! Arithmetic -/

theorem test_witness_SignedDivisionResults_zero : (cpu [] [(1, 5)]).readReg 2 = 0 := by decide +kernel

theorem test_witness_SignedDivisionResults_overflow :
    (cpu [] [(1, 0x80000000), (2, 0xFFFFFFFF)]).readReg 1 = 0x80000000 ∧
      (cpu [] [(1, 0x80000000), (2, 0xFFFFFFFF)]).readReg 2 = 0xFFFFFFFF := by decide +kernel

theorem test_witness_SignedDivisionResults_exact :
    let s := cpu [] [(1, 0x80000000), (2, 1)]
    s.readReg 2 ≠ 0 ∧ ¬(s.readReg 1 = 0x80000000 ∧ s.readReg 2 = 0xFFFFFFFF) := by decide +kernel

theorem test_witness_DivisionIdentity : (cpu [] [(1, 0x80000000), (2, 0xFFFFFFFF)]).readReg 2 ≠ 0 := by decide +kernel

theorem test_witness_UnsignedDivisionResults :
    (cpu [] [(1, 5)]).readReg 2 = 0 ∧ (cpu [] [(1, 5), (2, 0xFFFFFFFF)]).readReg 2 ≠ 0 := by decide +kernel

/-! Memory -/

theorem test_witness_PhysicalAccess_inside : 0xFFFC + 4 ≤ quiet.memorySize.toNat := by decide +kernel

theorem test_witness_PhysicalAccess_outside : quiet.memorySize.toNat < 0xFFFD + 4 := by decide +kernel

theorem test_witness_LoadResults_word :
    let s := cpu [] [(2, 0xFFFFFFFC)]
    s.translate (s.readReg 2 + 0x10000) .read = some 0xFFFC ∧ alignmentAdmits s (s.readReg 2 + 0x10000) .word ∧
      0xFFFC + 4 ≤ s.memorySize.toNat := by unfold alignmentAdmits; decide +kernel

theorem test_witness_LoadResults_half :
    let s := cpu [] [(2, 0xFFFE)]
    s.translate (s.readReg 2 + 0) .read = some 0xFFFE ∧ alignmentAdmits s (s.readReg 2 + 0) .half ∧
      0xFFFE + 2 ≤ s.memorySize.toNat := by unfold alignmentAdmits; decide +kernel

theorem test_witness_LoadResults_byte_translated :
    let s := user [] [(2, 0x2FFF)]
    s.translate (s.readReg 2 + 0) .read = some 0x3FFF ∧ 0x3FFF + 1 ≤ s.memorySize.toNat := by decide +kernel

theorem test_witness_StoreResults_word :
    let s := user [] [(2, 0x2FFC)]
    s.translate (s.readReg 2 + 0) .write = some 0x3FFC ∧ alignmentAdmits s (s.readReg 2 + 0) .word ∧
      0x3FFC + Size.word.bytes ≤ s.memorySize.toNat := by unfold alignmentAdmits; decide +kernel

theorem test_witness_StoreResults_half :
    let s := cpu [] [(2, 0xFFFE)]
    s.translate (s.readReg 2 + 0) .write = some 0xFFFE ∧ alignmentAdmits s (s.readReg 2 + 0) .half ∧
      0xFFFE + Size.half.bytes ≤ s.memorySize.toNat := by unfold alignmentAdmits; decide +kernel

theorem test_witness_StoreResults_byte :
    let s := cpu [] [(2, 0xFFFF)]
    s.translate (s.readReg 2 + 0) .write = some 0xFFFF ∧ alignmentAdmits s (s.readReg 2 + 0) .byte ∧
      0xFFFF + Size.byte.bytes ≤ s.memorySize.toNat := by unfold alignmentAdmits; decide +kernel

theorem test_witness_LoadStoreFaults_page :
    let s := user [] [(2, 0x4000)]
    alignmentAdmits s (s.readReg 2 + 0) .word ∧ s.translate (s.readReg 2 + 0) .read = none := by
  unfold alignmentAdmits; decide +kernel

theorem test_witness_LoadStoreFaults_memory :
    let s := cpu [] [(2, 0xFFFF)]
    alignmentAdmits s (s.readReg 2 + 0) .half ∧ s.translate (s.readReg 2 + 0) .write = some 0xFFFF ∧
      s.memorySize.toNat < 0xFFFF + Size.half.bytes := by unfold alignmentAdmits; decide +kernel

theorem test_witness_MisalignedAccessRefused :
    let s := { cpu [] [(2, 0x2001)] with cfg := otherConfig }
    (s.readReg 2 + 0).toNat % 4 ≠ 0 ∧ (s.readReg 2 + 0).toNat % 2 ≠ 0 ∧ s.cfg.misalignedData = .refuse := by decide +kernel

/-- A machine about to store to the last `n` bytes of memory: its base register holds their address. -/
def storing (n : Nat) : State := cpu [] [(1, BitVec.ofNat 32 (0x10000 - n)), (2, 0x89ABCDEF)]

/-- What SW, SH and SB leave there, to be loaded again. -/
def storedAtEnd (n : Nat) : State :=
  { storing n with mem := (storing n).mem.writeLE (0x10000 - n) n 0x89ABCDEF }

/-- Each form at the last address where its bytes are inside memory. -/
theorem test_witness_LoadAfterStore :
    ∀ n ∈ [4, 2, 1], (storing n).translate ((storing n).readReg 1 + 0) .write = some (BitVec.ofNat 32 (0x10000 - n)) ∧
      (storedAtEnd n).translate ((storedAtEnd n).readReg 1 + 0) .read = some (BitVec.ofNat 32 (0x10000 - n)) ∧
      (BitVec.ofNat 32 (0x10000 - n)).toNat + n ≤ (storing n).memorySize.toNat := by
  decide +kernel

/-- The value a meaning answers with, if it is a next state. -/
def nextOf (r : Result) : Option State :=
  match r with
  | .next t => some t
  | .fault f => nomatch f
  | .refused _ => none

theorem nextOf_eq_some {r : Result} {t : State} (h : nextOf r = some t) : r = .next t := by
  unfold nextOf at h
  split at h
  · cases h; rfl
  · rename_i f; exact nomatch f
  · cases h

theorem test_witness_LoadAfterStore_stores :
    exec (.sw 2 1 0) (storing 4) = .next (storedAtEnd 4) ∧ exec (.sh 2 1 0) (storing 2) = .next (storedAtEnd 2) ∧
      exec (.sb 2 1 0) (storing 1) = .next (storedAtEnd 1) :=
  ⟨nextOf_eq_some (by decide +kernel), nextOf_eq_some (by decide +kernel), nextOf_eq_some (by decide +kernel)⟩

/-- Under MISALIGNED_DATA = refuse an aligned store goes on too. -/
theorem test_witness_LoadAfterStore_refuse :
    exec (.sw 2 1 0) { storing 4 with cfg := otherConfig } = .next { storedAtEnd 4 with cfg := otherConfig } :=
  nextOf_eq_some (by decide +kernel)

/-! Translation -/

theorem test_witness_TranslationAlgorithm :
    let s := user [] []
    s.kernelMode = false ∧ s.pagingEnabled = true ∧ s.translate 0x2FFF .write = some 0x3FFF ∧
      s.translate 0x4000 .read = none := by decide +kernel

theorem test_witness_TranslationAlgorithm_untranslated :
    quiet.kernelMode = true ∧ quiet.pagingEnabled = false := by decide +kernel

theorem test_witness_WorkedTranslation :
    let s := { poke (user [] []) 0x900C [0x0F, 0xA0] with numPages := 1024, memorySize := 0x9010 }
    s.kernelMode = false ∧ s.pagingEnabled = true ∧ s.pageTableBase = 0x9000 ∧ s.numPages = 1024 ∧
      0x9010 ≤ s.memorySize.toNat ∧ wordAt s 0x900C = 0x0000A00F := by decide +kernel

theorem test_witness_ReservedPteBitsIgnored :
    let s := user [] []
    let u := poke s 0x9008 [0xFB, 0x3F]
    u.mem ≠ s.mem ∧ ∀ k, k < 32 → ¬(4 ≤ k ∧ k ≤ 11) →
      (wordAt { s with mem := u.mem } (s.pteAddr 0x2004).toNat).getLsbD k = (wordAt s (s.pteAddr 0x2004).toNat).getLsbD k := by
  decide +kernel

/-! Control flow, system, privilege -/

theorem test_witness_JalrTargets_different : (5 : Reg) ≠ 10 := by decide +kernel

theorem test_witness_JalrTargets_linkFirst : quiet.cfg.jalrSameReg = .linkFirst := by decide +kernel

theorem test_witness_JalrTargets_refuse : ({ quiet with cfg := otherConfig } : State).cfg.jalrSameReg = .refuse := by
  decide +kernel

theorem test_witness_SyscallAndBreakHalt :
    (Instr.brk = .syscall ∧ 5 = 4 ∧ StopReason.haltBreak = .haltSyscall) ∨
      (Instr.brk = .brk ∧ 5 = 5 ∧ StopReason.haltBreak = .haltBreak) := by decide +kernel

theorem test_witness_PrivilegedEffects : quiet.kernelMode = true := by decide +kernel

theorem test_witness_PrivilegeViolations :
    (user [] []).kernelMode = false ∧
      Instr.setPtbr 31 0 ∈ [.ei, .di, .iret, .enablePaging, .disablePaging, .setPtbr 31 0, .enterUser] := by decide +kernel

theorem test_witness_IretRestores :
    let s := { quiet with savedRegsAddr := 0xFF80 }
    s.kernelMode = true ∧ s.savedRegsAddr.toNat + 128 ≤ s.memorySize.toNat := by decide +kernel

theorem test_witness_IretFrameFault :
    let s := { quiet with savedRegsAddr := 0xFF81 }
    s.kernelMode = true ∧ s.memorySize.toNat < s.savedRegsAddr.toNat + 128 := by decide +kernel

/-! Interrupts -/

/-- Only bit 255 pending: dispatched by default, never under INT255_DISPATCH = no (D6). -/
theorem test_witness_LowestPendingSelected :
    let s := { quiet with intEnabled := true, pending := 1#256 <<< 255 }
    s.selectInterrupt = some 255 ∧ ({ s with cfg := otherConfig } : State).selectInterrupt = none := by decide +kernel

theorem test_witness_DispatchEffect : (interrupted []).canDispatch 32 = true := by decide +kernel

/-- The two writings of the outcome of a dispatch agree on `interrupted`. -/
theorem interrupted_dispatch (bytes : List Byte) (h : ((interrupted bytes).dispatch 32).isSome = true) :
    (interrupted bytes).dispatch 32 = some (dispatched bytes) := by
  unfold dispatched
  cases hd : (interrupted bytes).dispatch 32 with
  | none => rw [hd] at h; cases h
  | some t => rfl

theorem test_witness_DispatchFailureStops_frame :
    let s := { interrupted [] with memorySize := 0xFFFF }
    s.selectInterrupt = some 32 ∧ (s.dispatch 32).isNone = true ∧ s.running = true := by decide +kernel

theorem test_witness_DispatchFailureStops_vector :
    let s := { interrupted [] with memorySize := 0x103, regs := (cpu [] [(29, 0x80)]).regs }
    s.selectInterrupt = some 32 ∧ (s.dispatch 32).isNone = true := by decide +kernel

theorem test_witness_DispatchFailureStops_handler :
    let s := poke (interrupted []) 0x100 [0, 0]
    s.selectInterrupt = some 32 ∧ (s.dispatch 32).isNone = true := by decide +kernel

theorem test_witness_InstalledHandlerRuns_frame_below :
    let s := cpu [] [(29, 0x100)]
    (0x2000 : Word) ≠ 0 ∧ 8 * (32 : IntNum).toNat + 4 ≤ s.memorySize.toNat ∧ s.frameAddr.toNat + 128 ≤ s.memorySize.toNat ∧
      s.frameAddr.toNat + 128 ≤ 8 * (32 : IntNum).toNat := by decide +kernel

theorem test_witness_InstalledHandlerRuns_frame_above :
    let s := cpu [] [(29, 0x184)]
    8 * (32 : IntNum).toNat + 4 ≤ s.memorySize.toNat ∧ s.frameAddr.toNat + 128 ≤ s.memorySize.toNat ∧
      8 * (32 : IntNum).toNat + 4 ≤ s.frameAddr.toNat := by decide +kernel

/-- The bytes of IRET. -/
def iretBytes : List Byte := [0xF4, 0, 0, 0, 0, 0, 0, 0]

theorem test_witness_DispatchThenIretReturns :
    (interrupted iretBytes).selectInterrupt = some 32 ∧ (interrupted iretBytes).canDispatch 32 = true ∧
      fetches (interrupted iretBytes) (dispatched iretBytes) iretBytes ∧ decode iretBytes = .ok .iret := by
  refine ⟨by decide +kernel, by decide +kernel, ⟨by decide +kernel, by decide +kernel, 0x1100, ?_, ?_, ?_⟩,
    by decide +kernel⟩ <;> decide +kernel

/-! The step -/

theorem test_witness_StepRunsDecodedInstruction :
    fetches (cpu iretBytes []) (cpu iretBytes []) iretBytes ∧ decode iretBytes = .ok .iret :=
  ⟨fetches_cpu _ _ (by decide +kernel), by decide +kernel⟩

theorem test_witness_FetchStops_misaligned :
    let s := { quiet with pc := 0x1004 }
    s.selectInterrupt = none ∧ s.pc.toNat % 8 ≠ 0 := by decide +kernel

theorem test_witness_FetchStops_pageFault :
    let s := { user [] [] with pc := 0x2FF8 }
    s.selectInterrupt = none ∧ s.pc.toNat % 8 = 0 ∧ s.translate s.pc .exec = none := by decide +kernel

theorem test_witness_FetchStops_outOfBounds :
    let s := { quiet with pc := 0x10000 }
    s.selectInterrupt = none ∧ s.pc.toNat % 8 = 0 ∧ s.translate s.pc .exec = some 0x10000 ∧
      s.memorySize.toNat < 0x10000 + 8 := by decide +kernel

theorem test_witness_UnassignedOpcodeRaises :
    let f : Fields := ⟨0xFA, 0xFF, 0xFF, 0xFF, 0xFFFFFFFF⟩
    fetches (cpu f.bytes []) (cpu f.bytes []) f.bytes ∧ formOf f.opcode = none :=
  ⟨fetches_cpu _ _ (by decide +kernel), by decide +kernel⟩

theorem test_witness_StepRefusesOnlyByName_registerField :
    let f : Fields := ⟨0x01, 1, 2, 32, 0⟩
    fetches (cpu f.bytes []) (cpu f.bytes []) f.bytes ∧ decode f.bytes = .error .registerField :=
  ⟨fetches_cpu _ _ (by decide +kernel), by decide +kernel⟩

/-- The refusal a step answers with. -/
def refusalOf (s : State) : Option Refusal :=
  match step s with
  | .next _ => none
  | .fault f => nomatch f
  | .refused r => some r

theorem test_witness_StepRefusesOnlyByName_parameters :
    refusalOf { cpu (encode (.lw 1 2 0)) [(2, 0x2002)] with cfg := otherConfig } = some .misalignedData ∧
      refusalOf { cpu (encode (.jalr 5 5)) [] with cfg := otherConfig } = some .jalrSameRegister := by decide +kernel

theorem test_witness_R0ZeroedByStatusZeroSteps :
    let s := { cpu [] [] with regs := (cpu [] []).regs.set 0 7 }
    let u := { s with pc := 0x1004 }
    step s = .next (stepped s) ∧ (stepped s).statusOk = true ∧ step u = .next (stepped u) ∧ (stepped u).statusOk = false :=
  ⟨step_stepped (by decide +kernel), by decide +kernel, step_stepped (by decide +kernel), by decide +kernel⟩

theorem test_witness_R0ZeroedByStatusZeroSteps_dispatch :
    (interrupted []).dispatch 32 = some (dispatched []) := interrupted_dispatch _ (by decide +kernel)

/-! Invariants and whole-machine rules -/

theorem test_witness_StepKeepsInvariant :
    let s := user (encode (.sw 1 0 0x2004)) [(1, 0x12345678)]
    s.WF ∧ step s = .next (stepped s) ∧ (stepped s).mem ≠ s.mem :=
  ⟨by unfold State.WF; decide +kernel, step_stepped (by decide +kernel), by decide +kernel⟩

theorem test_witness_HostCallsKeepInvariant :
    quiet.WF ∧ (hostCall (.setHandler 255 0x2000) quiet).isSome = true ∧
      (hostCall (.setSavedMode false) quiet).isSome = true :=
  ⟨by unfold State.WF; decide +kernel, by decide +kernel⟩

/-- A word write that ends one byte past the memory array, and the last one inside it. -/
theorem test_witness_HostCallsKeepInvariant_none :
    hostCall (.writeWord 0xFFFD 1) quiet = none ∧ (hostCall (.writeWord 0xFFFC 1) quiet).isSome = true ∧
      hostCall (.loadBytes 0xFFFF [1, 2]) quiet = none ∧
      hostCall (.setHandler 1 0x2000) { quiet with memorySize := 11 } = none := by decide +kernel

theorem test_witness_ConfigurationFixed : step quiet = .next (stepped quiet) := step_stepped (by decide +kernel)

/-- The dispatch of `interrupted` taken from user mode. -/
theorem test_witness_ModeChangesOnlyAsListed_to_kernel :
    let s := { interrupted [] with kernelMode := false }
    step s = .next (stepped s) ∧ s.kernelMode = false ∧ (stepped s).kernelMode = true :=
  ⟨step_stepped (by decide +kernel), by decide +kernel⟩

theorem test_witness_ModeChangesOnlyAsListed_to_user :
    let s := cpu (encode .enterUser) []
    let u := { cpu (encode .iret) [] with cfg := otherConfig, savedMode := false }
    step s = .next (stepped s) ∧ s.kernelMode = true ∧ (stepped s).kernelMode = false ∧
      step u = .next (stepped u) ∧ u.kernelMode = true ∧ (stepped u).kernelMode = false :=
  ⟨step_stepped (by decide +kernel), by decide +kernel, by decide +kernel, step_stepped (by decide +kernel),
    by decide +kernel⟩

theorem test_witness_UserStepKeepsControl :
    let s := user (encode .di) []
    s.kernelMode = false ∧ s.selectInterrupt = none ∧ step s = .next (stepped s) :=
  ⟨by decide +kernel, by decide +kernel, step_stepped (by decide +kernel)⟩

/-- A store that runs three bytes past the end of its page (D2). -/
theorem test_witness_UserStoresStayInWritablePages :
    let s := user (encode (.sw 1 0 0x2FFF)) [(1, 0x12345678)]
    s.translated ∧ s.selectInterrupt = none ∧ step s = .next (stepped s) ∧
      (stepped s).mem.read 0x4002 ≠ s.mem.read 0x4002 :=
  ⟨by unfold State.translated; decide +kernel, by decide +kernel, step_stepped (by decide +kernel), by decide +kernel⟩

theorem test_witness_SavedRegistersOnlyByDispatch_dispatch :
    step (interrupted []) = .next (stepped (interrupted [])) ∧ dispatches (interrupted []) 32 :=
  ⟨step_stepped (by decide +kernel), by unfold dispatches; decide +kernel⟩

theorem test_witness_SavedRegistersOnlyByDispatch_none :
    step quiet = .next (stepped quiet) ∧ ∀ n, ¬dispatches quiet n := by
  refine ⟨step_stepped (by decide +kernel), fun n h => ?_⟩
  have : quiet.selectInterrupt = none := by decide +kernel
  cases this.symm.trans h.1

theorem test_witness_PendingClearedOnlyByDispatch :
    let s := interrupted []
    step s = .next (stepped s) ∧ s.pending.getLsbD 32 = true ∧ (stepped s).pending.getLsbD 32 = false :=
  ⟨step_stepped (by decide +kernel), by decide +kernel⟩

/-- A bit set at each end of the bitmap. -/
theorem test_witness_PendingSetOnlyAsListed :
    let s := cpu (encode (.raise 0xFF)) []
    let u := cpu (encode (.raise 0x100)) []
    (step s = .next (stepped s) ∧ s.pending.getLsbD 255 = false ∧ (stepped s).pending.getLsbD 255 = true) ∧
      step u = .next (stepped u) ∧ u.pending.getLsbD 0 = false ∧ (stepped u).pending.getLsbD 0 = true :=
  ⟨⟨step_stepped (by decide +kernel), by decide +kernel⟩, step_stepped (by decide +kernel), by decide +kernel⟩

/-- A load whose four bytes end one past memory makes 2 pending, and one through a page without an entry 8. -/
theorem test_witness_PendingSetOnlyAsListed_load :
    let s := cpu (encode (.lw 1 2 0)) [(2, 0xFFFD)]
    let u := user (encode (.lw 1 2 0)) [(2, 0x4000)]
    (step s = .next (stepped s) ∧ s.pending.getLsbD 2 = false ∧ (stepped s).pending.getLsbD 2 = true) ∧
      step u = .next (stepped u) ∧ u.pending.getLsbD 8 = false ∧ (stepped u).pending.getLsbD 8 = true :=
  ⟨⟨step_stepped (by decide +kernel), by decide +kernel⟩, step_stepped (by decide +kernel), by decide +kernel⟩

theorem test_witness_RunningClearedOnlyAsListed :
    let s := { quiet with pc := 0x10000 }
    step s = .next (stepped s) ∧ s.running = true ∧ (stepped s).running = false ∧
      (stepped s).stopReason = some .fetchOutOfBounds :=
  ⟨step_stepped (by decide +kernel), by decide +kernel⟩

/-- Program P1 of spec/95 part 3, its SYSCALL: the run stops. -/
theorem test_witness_RunStopsForAListedReason :
    vmRunClosed 2 (cpu (encode .syscall) []) = .stopped (stepped (cpu (encode .syscall) [])) := by decide +kernel

/-- Interrupt 32 arrives before the first step of a run and its handler, SYSCALL, stops it (R305, R320). -/
theorem test_witness_RunStopsForAListedReason_arrival :
    let s := { interrupted (encode .syscall) with pending := 0 }
    vmRun [0x100000000] s = .stopped (stepped (interrupted (encode .syscall))) := by decide +kernel

/-- Resumed by `c32_vm_step` after SYSCALL the machine runs again, and stops at the next SYSCALL (R341). -/
theorem test_resumeStep_running :
    let s := { cpu (encode .nop) [] with running := false }
    let u := { cpu (encode .syscall) [] with running := false }
    resumeStep s = .next (stepped { s with running := true }) ∧ (stepped { s with running := true }).running = true ∧
      resumeStep u = .next (stepped { u with running := true }) ∧ (stepped { u with running := true }).running = false :=
  ⟨step_stepped (by decide +kernel), by decide +kernel, step_stepped (by decide +kernel), by decide +kernel⟩

theorem test_witness_FetchStopIsStuck :
    let s := { quiet with pc := 0x1004 }
    step s = .next (stepped s) ∧ s.running = true ∧ (stepped s).intEnabled = false ∧
      (stepped s).stopReason = some .misalignedPc :=
  ⟨step_stepped (by decide +kernel), by decide +kernel⟩

theorem test_witness_FetchStopIsStuck_bounds :
    let s := { quiet with pc := 0x10000 }
    step s = .next (stepped s) ∧ s.running = true ∧ (stepped s).intEnabled = false ∧
      (stepped s).stopReason = some .fetchOutOfBounds :=
  ⟨step_stepped (by decide +kernel), by decide +kernel⟩

theorem test_witness_PlacedInstructionRuns :
    let s := { quiet with pc := 0xFFF8 }
    s.kernelMode = true ∧ s.selectInterrupt = none ∧ s.pc.toNat % 8 = 0 ∧ s.pc.toNat + 8 ≤ s.memorySize.toNat := by
  decide +kernel

/-- "BEQ R0, R0, -8 branches to current instruction" (R143), and B is that branch to a label (R142). -/
theorem test_assembly_branch : (Pseudo.b 0x1000).expand 0x1000 = [.beq 0 0 0xFFFFFFF8] := by decide +kernel

/-- The loop of program P3 of spec/95 part 3, with its label: the bytes at 0x1010 and 0x1020 as listed there. -/
theorem test_assembly_loop :
    layout (definedNames 0x1000 [.org 0x1010, .label "loop", .instr (.add 1 1 2), .instr (.addi 2 2 (-1)),
        .labelled (.bgtz 2 0) "loop"]) 0x1010
      [.instr (.add 1 1 2), .instr (.addi 2 2 (-1)), .labelled (.bgtz 2 0) "loop"] =
      [(0x1010, [0x01, 0x01, 0x02, 0x01, 0, 0, 0, 0]), (0x1018, [0x05, 0x02, 0x02, 0, 0xFF, 0xFF, 0xFF, 0xFF]),
        (0x1020, [0x63, 0x02, 0, 0, 0xE8, 0xFF, 0xFF, 0xFF])] := by decide +kernel

/-- JAL to a label takes its address (R143), and `.align` and `.word` lay out data (R141). -/
theorem test_assembly_data :
    layout [("f", 0x1100)] 0x1004 [.align 8, .labelled (.jal 0) "f", .word 0x12345678] =
      [(0x1004, []), (0x1008, [0x71, 0, 0, 0, 0x00, 0x11, 0, 0]), (0x1010, [0x78, 0x56, 0x34, 0x12])] := by decide +kernel

/-- After reset the hidden saved mode is kernel (R332). -/
theorem test_reset_savedMode : State.reset.savedMode = true := by decide +kernel

/-- `.space` puts no byte (log 43), and an `.equ` constant as the operand of a branch is a label (log 43). -/
theorem test_assembly_space_equ :
    layout (definedNames 0x1000 [.equ "k" 0x1000]) 0x1000 [.space 8, .labelled (.beq 0 0 0) "k"] =
      [(0x1000, []), (0x1008, [0x60, 0, 0, 0, 0xF0, 0xFF, 0xFF, 0xFF])] := by
  decide +kernel

end Sys2Proof.Tests
end

section
/-! PROOFS. The size of memory and the parameters of R8 are configuration: each part of a step keeps `sameMachine`, so the
step does. -/

namespace Sys2Proof.Machine

theorem sameMachine_trans {s t u : State} (hst : sameMachine s t) (htu : sameMachine t u) : sameMachine s u := by
  obtain ⟨hsize, hcfg⟩ := hst
  obtain ⟨hsize', hcfg'⟩ := htu
  exact ⟨hsize'.trans hsize, hcfg'.trans hcfg⟩

theorem sameMachine_endStep (s : State) : sameMachine s s.endStep :=
  ⟨s.memorySize_endStep, s.cfg_endStep⟩

theorem sameMachine_stopFetch (s : State) (r : StopReason) : sameMachine s (s.stopFetch r) := by
  cases r <;> exact ⟨rfl, rfl⟩

theorem sameMachine_of_dispatch {s t : State} {n : IntNum} (h : s.dispatch n = some t) : sameMachine s t := by
  obtain ⟨-, -, -, -, hsize, -, -, -, -, -, -, -, -, -, -, hcfg, -⟩ := State.dispatch_eq_some h
  exact ⟨hsize, hcfg⟩

/-- The interrupt check keeps the configuration whether or not it dispatches (R40 step 1, R320). -/
theorem sameMachine_of_interruptCheck {s t : State} (h : s.interruptCheck = some t) : sameMachine s t := by
  obtain ⟨-, rfl⟩ | ⟨n, -, hd⟩ := State.interruptCheck_eq_some h
  · exact sameMachine_refl t
  · exact sameMachine_of_dispatch hd

/-- No effect an instruction can have reaches the configuration. -/
theorem sameMachine_of_execEffect {i : Instr} {s t : State} (h : ExecEffect i s t) : sameMachine s t := by
  cases h with
  | unchanged => exact sameMachine_refl s
  | wroteReg | jumped | linked => exact ⟨rfl, rfl⟩
  | faulted n => exact ⟨s.memorySize_raiseFault n, s.cfg_raiseFault n⟩
  | stored | halted | raised => exact ⟨rfl, rfl⟩
  | setIntEnabled | setPaging | setPtbr | enteredUser => exact ⟨rfl, rfl⟩
  | returned => exact ⟨s.memorySize_returnFromInterrupt, s.cfg_returnFromInterrupt⟩

/-- Every way a step ends keeps the configuration (R40). -/
theorem sameMachine_of_stepEffect {s t : State} (h : StepEffect s t) : sameMachine s t := by
  cases h with
  | dispatchFailed => exact ⟨rfl, rfl⟩
  | fetchStopped s1 r hc => exact sameMachine_trans (sameMachine_of_interruptCheck hc) (sameMachine_stopFetch s1 r)
  | illegal s1 _ hc =>
    have hraise : sameMachine s1 ((s1.setPc (s1.pc + 8#32)).raiseFault intIllegalOp) := ⟨rfl, rfl⟩
    exact sameMachine_trans (sameMachine_of_interruptCheck hc) (sameMachine_trans hraise (sameMachine_endStep _))
  | executed s1 _ _ u hc _ _ he =>
    have hpc : sameMachine s1 (s1.setPc (s1.pc + 8#32)) := ⟨rfl, rfl⟩
    have hexec : sameMachine s1 u := sameMachine_trans hpc (sameMachine_of_execEffect (exec_effect he))
    exact sameMachine_trans (sameMachine_of_interruptCheck hc) (sameMachine_trans hexec (sameMachine_endStep u))

/-- Settles O50: forgetting the last step's outcome leaves the configuration, and so does everything the step then does. -/
theorem configurationFixed : Obligations.ConfigurationFixed := by
  unfold Obligations.ConfigurationFixed
  intro s t h
  have hforget : sameMachine s { s with stopReason := none } := ⟨rfl, rfl⟩
  exact sameMachine_trans hforget (sameMachine_of_stepEffect (step_effect h))

end Sys2Proof.Machine
end

section
/-! PROOFS. What every part of a step keeps, the step keeps: the one passage through R40 that the invariant, the mode, the
saved registers and the pending bits share. -/

namespace Sys2Proof.Machine

/-- A relation that composes and that each part of a step after the interrupt check keeps (R40 steps 2 to 8). -/
structure KeptAfterCheck (R : State → State → Prop) : Prop where
  trans : ∀ {s t u : State}, R s t → R t u → R s u
  stopFetch : ∀ (s : State) (r : StopReason), R s (s.stopFetch r)
  setPc : ∀ (s : State) (v : Word), R s (s.setPc v)
  raiseFault : ∀ (s : State) (n : IntNum), R s (s.raiseFault n)
  effect : ∀ {i : Instr} {s t : State}, ExecEffect i s t → R s t
  endStep : ∀ s : State, R s s.endStep

/-- A step whose interrupt check fails dispatches nothing (R322). -/
theorem not_dispatches_of_interruptCheck_eq_none {s : State}
    (h : ({ s with stopReason := none } : State).interruptCheck = none) (n : IntNum) : ¬dispatches s n := by
  rintro ⟨hsel, hcan⟩
  unfold State.interruptCheck at h
  rw [show ({ s with stopReason := none } : State).selectInterrupt = some n from hsel] at h
  have hnone : ({ s with stopReason := none } : State).dispatch n = none := h
  have hfail := State.dispatch_eq_none.1 hnone
  exact Bool.false_ne_true (hfail.symm.trans hcan)

/-- A step that selects no interrupt dispatches nothing. -/
theorem not_dispatches_of_selectInterrupt_eq_none {s : State} (h : s.selectInterrupt = none) (n : IntNum) :
    ¬dispatches s n :=
  fun ⟨hsel, _⟩ => nomatch h.symm.trans hsel

/-- What a step is to a relation kept after the check: a failed dispatch, or the relation from the state the check leaves,
which is the state it started with or the one its dispatch gives (R40). -/
theorem KeptAfterCheck.step_cases {R : State → State → Prop} (hR : KeptAfterCheck R) {s t : State}
    (h : step s = .next t) :
    ((∀ n, ¬dispatches s n) ∧ t = { s with stopReason := some .dispatchFailed }) ∨
      ((∀ n, ¬dispatches s n) ∧ R { s with stopReason := none } t) ∨
        ∃ n s1, dispatches s n ∧ ({ s with stopReason := none } : State).dispatch n = some s1 ∧ R s1 t := by
  obtain ⟨hc, rfl⟩ | ⟨s1, hc, hrest⟩ := Machine.step_cases h
  · exact .inl ⟨not_dispatches_of_interruptCheck_eq_none hc, rfl⟩
  · have hkept : R s1 t := by
      obtain ⟨r, -, rfl⟩ | ⟨f, -, -, rfl⟩ | ⟨i, u, -, he, rfl⟩ := hrest
      · exact hR.stopFetch s1 r
      · exact hR.trans (hR.setPc s1 _) (hR.trans (hR.raiseFault _ _) (hR.endStep _))
      · exact hR.trans (hR.setPc s1 _) (hR.trans (hR.effect (exec_effect he)) (hR.endStep u))
    obtain ⟨hsel, rfl⟩ | ⟨n, hd, hdispatch⟩ := interruptCheck_cases hc
    · exact .inr (.inl ⟨not_dispatches_of_selectInterrupt_eq_none hsel, hkept⟩)
    · exact .inr (.inr ⟨n, s1, hd, hdispatch, hkept⟩)

end Sys2Proof.Machine
end

section
/-! PROOFS. The invariant: memory canonical and inside its bounds, R0's slot 0 (R21, R62). -/

namespace Sys2Proof.Machine

/-- The invariant speaks of memory, its size and R0's slot only. -/
theorem State.WF.congr {s t : State} (hs : s.WF) (hmem : t.mem = s.mem) (hsize : t.memorySize = s.memorySize)
    (hslot : t.regs[0] = s.regs[0]) : t.WF := by
  obtain ⟨hwf, hbelow, hzero⟩ := hs
  exact ⟨hmem ▸ hwf, by rw [hmem, hsize]; exact hbelow, hslot.trans hzero⟩

theorem State.WF.stopFetch {s : State} (hs : s.WF) (r : StopReason) : (s.stopFetch r).WF := by
  cases r <;> exact hs

theorem State.WF.endStep {s : State} (hs : s.WF) : s.endStep.WF := by
  unfold State.endStep
  split
  · obtain ⟨hwf, hbelow, -⟩ := hs
    exact ⟨hwf, hbelow, s.slot0_zeroR0⟩
  · exact hs

/-- A store inside memory keeps the invariant (R62, R71). -/
theorem State.WF.writeLE {s : State} (hs : s.WF) {a n : Nat} (hb : a + n ≤ s.memorySize.toNat) (v : Word) :
    ({ s with mem := s.mem.writeLE a n v } : State).WF := by
  obtain ⟨hwf, hbelow, hzero⟩ := hs
  exact ⟨Memory.wf_writeLE hwf a n v, Memory.below_writeLE hbelow a n hb v, hzero⟩

/-- A dispatch writes its frame inside memory and leaves R0's slot, so it keeps the invariant (R320). -/
theorem State.WF.dispatch {s t : State} {n : IntNum} (hs : s.WF) (h : s.dispatch n = some t) : t.WF := by
  obtain ⟨hcan, hregs, -, hmem, hsize, -⟩ := State.dispatch_eq_some h
  obtain ⟨hframe, -, -⟩ := (s.canDispatch_iff n).1 hcan
  obtain ⟨hwf, hbelow, hzero⟩ := hs
  have hframe' : s.frameAddr.toNat + 4 * s.frameWords.length ≤ s.memorySize.toNat := by
    rw [State.length_frameWords]; exact hframe
  refine ⟨hmem ▸ Memory.wf_writeWords hwf _ _, ?_, ?_⟩
  · rw [hmem, hsize]; exact Memory.below_writeWords hbelow _ _ hframe'
  · simpa [hregs] using hzero

/-- Of the effects of an instruction a store alone touches memory, and none touches R0's slot. -/
theorem State.WF.effect {i : Instr} {s t : State} (hs : s.WF) (h : ExecEffect i s t) : t.WF := by
  cases h with
  | stored va pa v sz _ _ _ hb => exact hs.writeLE hb v
  | wroteReg r v | linked r v => exact hs.congr rfl rfl (s.slot0_setReg r v)
  | returned =>
    exact hs.congr s.mem_returnFromInterrupt s.memorySize_returnFromInterrupt s.slot0_returnFromInterrupt
  | unchanged | jumped | faulted | halted | raised => exact hs.congr rfl rfl rfl
  | setIntEnabled | setPaging | setPtbr | enteredUser => exact hs.congr rfl rfl rfl

theorem keptAfterCheck_wf : KeptAfterCheck fun s t => s.WF → t.WF where
  trans hst htu hs := htu (hst hs)
  stopFetch _ r hs := hs.stopFetch r
  setPc _ _ hs := hs.congr rfl rfl rfl
  raiseFault _ _ hs := hs.congr rfl rfl rfl
  effect he hs := hs.effect he
  endStep _ hs := hs.endStep

/-- Settles O46: the dispatch keeps the invariant, and so does every part of the step after it. -/
theorem stepKeepsInvariant : Obligations.StepKeepsInvariant := by
  unfold Obligations.StepKeepsInvariant
  intro s t hs h
  have hforget : ({ s with stopReason := none } : State).WF := hs
  obtain ⟨-, rfl⟩ | ⟨-, hkept⟩ | ⟨n, s1, -, hd, hkept⟩ := keptAfterCheck_wf.step_cases h
  · exact hs
  · exact hkept hforget
  · exact hkept (hforget.dispatch hd)

/-- Settles O47: after reset memory lists nothing and every register is 0. -/
theorem resetHasInvariant : Obligations.ResetHasInvariant := by
  unfold Obligations.ResetHasInvariant
  have hslot : State.reset.regs[0] = 0 := by simp [State.reset, State.init]
  exact ⟨Memory.wf_reset, nofun, hslot⟩

end Sys2Proof.Machine
end

section
/-! PROOFS. The mode changes only by a dispatch, ENTER_USER or a restoring IRET (R29, R263, R274, R330, R332). -/

namespace Sys2Proof.Machine

@[simp] theorem State.kernelMode_stopFetch (s : State) (r : StopReason) : (s.stopFetch r).kernelMode = s.kernelMode := by
  cases r <;> rfl

/-! The mode an IRET leaves under the two values of IRET_MODE (R263, D4). -/

theorem State.kernelMode_returnFromInterrupt_unchanged (s : State) (h : s.cfg.iretMode = .unchanged) :
    s.returnFromInterrupt.kernelMode = s.kernelMode := by simp only [State.returnFromInterrupt, h]

theorem State.kernelMode_returnFromInterrupt_restoreSaved (s : State) (h : s.cfg.iretMode = .restoreSaved) :
    s.returnFromInterrupt.kernelMode = s.savedMode := by simp only [State.returnFromInterrupt, h]

/-- No instruction leaves user mode: those that set the mode are privileged (R260, R330). -/
theorem ExecEffect.keeps_userMode {i : Instr} {s t : State} (h : ExecEffect i s t) (hu : s.kernelMode = false) :
    t.kernelMode = false := by
  cases h with
  | returned _ hk => exact nomatch hu.symm.trans hk
  | enteredUser => rfl
  | unchanged | wroteReg | jumped | linked | faulted | stored | halted | raised => exact hu
  | setIntEnabled | setPaging | setPtbr => exact hu

/-- An instruction that leaves kernel mode is ENTER_USER, or IRET that restores a saved user mode (R263, R274). -/
theorem ExecEffect.leaves_kernelMode {i : Instr} {s t : State} (h : ExecEffect i s t) (hk : s.kernelMode = true)
    (hu : t.kernelMode = false) :
    i = .enterUser ∨ (i = .iret ∧ s.cfg.iretMode = .restoreSaved ∧ s.savedMode = false) := by
  cases h with
  | enteredUser hi => exact .inl hi
  | returned hi =>
    cases hmode : s.cfg.iretMode with
    | unchanged =>
      have hsame := s.kernelMode_returnFromInterrupt_unchanged hmode
      exact nomatch hu.symm.trans (hsame.trans hk)
    | restoreSaved => exact .inr ⟨hi, rfl, (s.kernelMode_returnFromInterrupt_restoreSaved hmode).symm.trans hu⟩
  | unchanged | wroteReg | jumped | linked | faulted | stored | halted | raised =>
    exact nomatch hu.symm.trans hk
  | setIntEnabled | setPaging | setPtbr => exact nomatch hu.symm.trans hk

theorem keptAfterCheck_userMode : KeptAfterCheck fun s t => s.kernelMode = false → t.kernelMode = false where
  trans hst htu hs := htu (hst hs)
  stopFetch s r hs := (s.kernelMode_stopFetch r).trans hs
  setPc _ _ hs := hs
  raiseFault _ _ hs := hs
  effect he hs := he.keeps_userMode hs
  endStep s hs := s.kernelMode_endStep.trans hs

/-- The interrupt check never leaves kernel mode: a dispatch enters it (R320). -/
theorem State.kernelMode_of_interruptCheck {s t : State} (h : s.interruptCheck = some t) (hk : s.kernelMode = true) :
    t.kernelMode = true := by
  obtain ⟨-, rfl⟩ | ⟨n, -, hd⟩ := State.interruptCheck_eq_some h
  · exact hk
  · obtain ⟨-, -, -, -, -, -, hmode, -⟩ := State.dispatch_eq_some hd
    exact hmode

/-- Settles O51: user mode is left by the dispatch or not at all, kernel mode only by what the step executes. -/
theorem modeChangesOnlyAsListed : Obligations.ModeChangesOnlyAsListed := by
  unfold Obligations.ModeChangesOnlyAsListed
  intro s t h
  constructor
  · intro hu hk
    obtain ⟨-, rfl⟩ | ⟨-, hkept⟩ | ⟨n, -, hd, -⟩ := keptAfterCheck_userMode.step_cases h
    · exact nomatch hu.symm.trans hk
    · exact nomatch (hkept hu).symm.trans hk
    · exact ⟨n, hd⟩
  · intro hk hu
    obtain ⟨-, rfl⟩ | ⟨s1, hc, hrest⟩ := step_cases h
    · exact nomatch hu.symm.trans hk
    · have hk1 : s1.kernelMode = true := State.kernelMode_of_interruptCheck hc hk
      obtain ⟨-, hcfg⟩ := sameMachine_of_interruptCheck hc
      obtain ⟨r, -, rfl⟩ | ⟨f, -, -, rfl⟩ | ⟨i, u, hex, he, rfl⟩ := hrest
      · exact nomatch hu.symm.trans ((s1.kernelMode_stopFetch r).trans hk1)
      · exact nomatch hu.symm.trans ((State.kernelMode_endStep _).trans hk1)
      · refine ⟨i, _, hex, ?_⟩
        have huser : u.kernelMode = false := u.kernelMode_endStep.symm.trans hu
        obtain hi | ⟨hi, hmode, hsaved⟩ := (exec_effect he).leaves_kernelMode hk1 huser
        · exact .inl hi
        · exact .inr ⟨hi, (congrArg Config.iretMode hcfg).symm.trans hmode, hsaved⟩

end Sys2Proof.Machine
end

section
/-! PROOFS. The decoder calls an opcode illegal only when the opcode map has no row for it (R135, R137). -/

namespace Sys2Proof

/-! A form's decoder is reached by an assigned opcode alone: it never calls the opcode illegal. -/

theorem decodeR3_ne_illegalOpcode (op : Reg → Reg → Reg → Instr) (f : Fields) :
    decodeR3 op f ≠ .error .illegalOpcode := by unfold decodeR3; split <;> simp
theorem decodeI_ne_illegalOpcode (op : Reg → Reg → Word → Instr) (f : Fields) :
    decodeI op f ≠ .error .illegalOpcode := by unfold decodeI; split <;> simp
theorem decodeM_ne_illegalOpcode (op : Reg → Reg → Word → Instr) (f : Fields) :
    decodeM op f ≠ .error .illegalOpcode := by unfold decodeM; split <;> simp
theorem decodeLui_ne_illegalOpcode (op : Reg → Word → Instr) (f : Fields) :
    decodeLui op f ≠ .error .illegalOpcode := by unfold decodeLui; split <;> simp
theorem decodeShi_ne_illegalOpcode (op : Reg → Reg → Word → Instr) (f : Fields) :
    decodeShi op f ≠ .error .illegalOpcode := by unfold decodeShi; split <;> simp
theorem decodeShv_ne_illegalOpcode (op : Reg → Reg → Reg → Instr) (f : Fields) :
    decodeShv op f ≠ .error .illegalOpcode := by unfold decodeShv; split <;> simp
theorem decodeB2_ne_illegalOpcode (op : Reg → Reg → Word → Instr) (f : Fields) :
    decodeB2 op f ≠ .error .illegalOpcode := by unfold decodeB2; split <;> simp
theorem decodeB1_ne_illegalOpcode (op : Reg → Word → Instr) (f : Fields) :
    decodeB1 op f ≠ .error .illegalOpcode := by unfold decodeB1; split <;> simp
theorem decodeJr_ne_illegalOpcode (op : Reg → Instr) (f : Fields) :
    decodeJr op f ≠ .error .illegalOpcode := by unfold decodeJr; split <;> simp
theorem decodeJalr_ne_illegalOpcode (op : Reg → Reg → Instr) (f : Fields) :
    decodeJalr op f ≠ .error .illegalOpcode := by unfold decodeJalr; split <;> simp
theorem decodeRd_ne_illegalOpcode (op : Reg → Instr) (f : Fields) :
    decodeRd op f ≠ .error .illegalOpcode := by unfold decodeRd; split <;> simp
theorem decodePtbr_ne_illegalOpcode (op : Reg → Reg → Instr) (f : Fields) :
    decodePtbr op f ≠ .error .illegalOpcode := by unfold decodePtbr; split <;> simp

/-- No row of the opcode map is decoded as illegal: each row goes to its form's decoder, or to an instruction without
operands. -/
theorem decodeFields_row_ne_illegalOpcode :
    ∀ row ∈ opcodeForms, ∀ (rs rt rd : Byte) (imm : Word),
      decodeFields ⟨BitVec.ofNat 8 row.1, rs, rt, rd, imm⟩ ≠ .error .illegalOpcode := by
  simp [opcodeForms, arithmeticForms, logicalForms, shiftForms, compareForms, multiplyForms, loadStoreForms, branchForms,
    jumpForms, systemForms, decodeR3_ne_illegalOpcode, decodeI_ne_illegalOpcode, decodeM_ne_illegalOpcode,
    decodeLui_ne_illegalOpcode, decodeShi_ne_illegalOpcode, decodeShv_ne_illegalOpcode, decodeB2_ne_illegalOpcode,
    decodeB1_ne_illegalOpcode, decodeJr_ne_illegalOpcode, decodeJalr_ne_illegalOpcode, decodeRd_ne_illegalOpcode,
    decodePtbr_ne_illegalOpcode]

/-- An opcode decoded as illegal is unassigned (R137). -/
theorem formOf_eq_none_of_illegalOpcode {f : Fields} (h : decode f.bytes = .error .illegalOpcode) :
    formOf f.opcode = none := by
  obtain ⟨op, rs, rt, rd, imm⟩ := f
  rw [decode_bytes] at h
  cases hform : formOf op with
  | none => rfl
  | some form =>
    have hrow := decodeFields_row_ne_illegalOpcode _ (formOf_mem hform) rs rt rd imm
    rw [BitVec.ofNat_toNat, BitVec.setWidth_eq] at hrow
    exact absurd h hrow

end Sys2Proof
end

section
/-! PROOFS. Which bits a step makes pending, and which it clears (R34, R301, R303, R320). -/

namespace Sys2Proof.Machine

/-- A dispatch clears the bit of its own interrupt and no other (R320, D3). -/
theorem State.getLsbD_pending_of_dispatch {s t : State} {n : IntNum} (h : s.dispatch n = some t) (k : Nat) :
    t.pending.getLsbD k = (s.pending.getLsbD k && decide (k ≠ n.toNat)) := by
  obtain ⟨-, -, -, -, -, -, -, -, -, -, -, hpending, -⟩ := State.dispatch_eq_some h
  rw [hpending, getLsbD_clearPending, decide_not]

/-- The interrupt check makes no bit pending (R40 step 1). -/
theorem State.not_pending_of_interruptCheck {s t : State} (h : s.interruptCheck = some t) {k : Nat}
    (hk : s.pending.getLsbD k = false) : t.pending.getLsbD k = false := by
  obtain ⟨-, rfl⟩ | ⟨n, -, hd⟩ := State.interruptCheck_eq_some h
  · exact hk
  · rw [State.getLsbD_pending_of_dispatch hd, hk, Bool.false_and]

/-- A bit that became pending by raising one interrupt is the bit of that interrupt (R34). -/
theorem eq_of_newly_raised {p : BitVec 256} {n : IntNum} {k : Nat} (hk : p.getLsbD k = false)
    (hk' : (p ||| (1#256 <<< n.toNat)).getLsbD k = true) : k = n.toNat := by
  rw [getLsbD_setPending, hk, Bool.false_or] at hk'
  exact of_decide_eq_true hk'

/-- A bit stays pending when another interrupt is raised (R34). -/
theorem getLsbD_raised_of_getLsbD {p : BitVec 256} (n : IntNum) {k : Nat} (hk : p.getLsbD k = true) :
    (p ||| (1#256 <<< n.toNat)).getLsbD k = true := by
  rw [getLsbD_setPending, hk, Bool.true_or]

/-- The rows of R303 for the execution of `i` in `u`: the causes by which it makes bit `k` pending. -/
def ExecRaises (i : Instr) (u : State) (k : Nat) : Prop :=
  (k = 4 ∧ i = .syscall) ∨ (k = 5 ∧ i = .brk) ∨ (∃ imm, i = .raise imm ∧ k = imm.toNat % 256) ∨
    (k = 7 ∧ u.kernelMode = false ∧ IsPrivileged i) ∨
    (k = 2 ∧ i = .iret ∧ u.kernelMode = true ∧ u.memorySize.toNat < u.savedRegsAddr.toNat + 128) ∨
    (∃ ea sz kind, accesses u i ea sz kind ∧
      ((k = 8 ∧ u.translate ea kind = none) ∨
        (k = 2 ∧ ∃ pa, u.translate ea kind = some pa ∧ u.memorySize.toNat < pa.toNat + sz.bytes)))

/-- An instruction makes a bit pending by a row of R303 only. -/
theorem ExecEffect.raises {i : Instr} {u t : State} (h : ExecEffect i u t) {k : Nat} (hk : u.pending.getLsbD k = false)
    (hk' : t.pending.getLsbD k = true) : ExecRaises i u k := by
  cases h with
  | faulted n hcause =>
    obtain rfl := eq_of_newly_raised hk hk'
    obtain ⟨rfl, hu, hi⟩ | ⟨rfl, hi, hkernel, hframe⟩ | ⟨ea, sz, kind, hacc, hfail⟩ := hcause
    · exact .inr (.inr (.inr (.inl ⟨rfl, hu, hi⟩)))
    · exact .inr (.inr (.inr (.inr (.inl ⟨rfl, hi, hkernel, hframe⟩))))
    · refine .inr (.inr (.inr (.inr (.inr ⟨ea, sz, kind, hacc, ?_⟩))))
      obtain ⟨rfl, htr⟩ | ⟨rfl, hbounds⟩ := hfail
      · exact .inl ⟨rfl, htr⟩
      · exact .inr ⟨rfl, hbounds⟩
  | halted n r hcause =>
    obtain rfl := eq_of_newly_raised hk hk'
    obtain ⟨hi, rfl, -⟩ | ⟨hi, rfl, -⟩ := hcause
    · exact .inl ⟨rfl, hi⟩
    · exact .inr (.inl ⟨rfl, hi⟩)
  | raised imm hi =>
    obtain rfl := eq_of_newly_raised hk hk'
    exact .inr (.inr (.inl ⟨imm, hi, imm.toNat_setWidth 8⟩))
  | returned => exact absurd (hk.symm.trans (u.pending_returnFromInterrupt ▸ hk')) Bool.false_ne_true
  | unchanged | wroteReg | jumped | linked | stored => exact absurd (hk.symm.trans hk') Bool.false_ne_true
  | setIntEnabled | setPaging | setPtbr | enteredUser => exact absurd (hk.symm.trans hk') Bool.false_ne_true

/-- A fetch that stops the step makes bit 2 pending for a misaligned pc, bit 8 for one that does not translate, and no
other (R40 steps 2 to 4). -/
theorem State.stopFetch_raises {s : State} {r : StopReason} (hf : s.fetchAddr = .error r) {k : Nat}
    (hk : s.pending.getLsbD k = false) (hk' : (s.stopFetch r).pending.getLsbD k = true) :
    (k = 2 ∧ s.pc.toNat % 8 ≠ 0) ∨ (k = 8 ∧ s.pc.toNat % 8 = 0 ∧ s.translate s.pc .exec = none) := by
  obtain ⟨rfl, hpc⟩ | ⟨rfl, hpc, htr⟩ | ⟨rfl, -⟩ := State.fetchAddr_eq_error hf
  · exact .inl ⟨eq_of_newly_raised hk hk', hpc⟩
  · exact .inr ⟨eq_of_newly_raised hk hk', hpc, htr⟩
  · exact absurd (hk.symm.trans hk') Bool.false_ne_true

/-- Settles O56: the fetch, an unassigned opcode and the instruction executed each raise only what R303 lists. -/
theorem pendingSetOnlyAsListed : Obligations.PendingSetOnlyAsListed := by
  unfold Obligations.PendingSetOnlyAsListed
  intro s t k h hk hk'
  obtain ⟨-, rfl⟩ | ⟨s1, hc, hrest⟩ := step_cases h
  · exact absurd (hk.symm.trans hk') Bool.false_ne_true
  · have hk1 : s1.pending.getLsbD k = false := State.not_pending_of_interruptCheck hc hk
    obtain ⟨r, hf, rfl⟩ | ⟨f, hfetch, hdec, rfl⟩ | ⟨i, u, hex, he, rfl⟩ := hrest
    · exact .inl ⟨s1, hc, State.stopFetch_raises hf hk1 hk'⟩
    · rw [State.pending_endStep] at hk'
      exact .inr (.inl ⟨eq_of_newly_raised hk1 hk', s1, f, hfetch, formOf_eq_none_of_illegalOpcode hdec⟩)
    · rw [State.pending_endStep] at hk'
      exact .inr (.inr ⟨i, _, hex, (exec_effect he).raises hk1 hk'⟩)

/-- No instruction clears a pending bit (R34). -/
theorem ExecEffect.keeps_pending {i : Instr} {s t : State} (h : ExecEffect i s t) {k : Nat}
    (hk : s.pending.getLsbD k = true) : t.pending.getLsbD k = true := by
  cases h with
  | faulted n | halted n | raised => exact getLsbD_raised_of_getLsbD _ hk
  | returned => exact s.pending_returnFromInterrupt.symm ▸ hk
  | unchanged | wroteReg | jumped | linked | stored => exact hk
  | setIntEnabled | setPaging | setPtbr | enteredUser => exact hk

/-- After the interrupt check no part of a step clears a pending bit (R34, D3). -/
theorem keptAfterCheck_pending (k : Nat) :
    KeptAfterCheck fun s t => s.pending.getLsbD k = true → t.pending.getLsbD k = true where
  trans hst htu hs := htu (hst hs)
  stopFetch s r hs := by
    cases r with
    | misalignedPc | fetchPageFault => exact getLsbD_raised_of_getLsbD _ hs
    | haltSyscall | haltBreak | fetchOutOfBounds | dispatchFailed | execFault => exact hs
  setPc _ _ hs := hs
  raiseFault _ n hs := getLsbD_raised_of_getLsbD n hs
  effect he hs := he.keeps_pending hs
  endStep s hs := s.pending_endStep.symm ▸ hs

/-- Settles O55: what is cleared in a step was cleared by its dispatch, which clears its own bit only. -/
theorem pendingClearedOnlyByDispatch : Obligations.PendingClearedOnlyByDispatch := by
  unfold Obligations.PendingClearedOnlyByDispatch
  constructor
  · intro s t k h hk hk'
    obtain ⟨-, rfl⟩ | ⟨-, hkept⟩ | ⟨n, s1, hn, hd, hkept⟩ := (keptAfterCheck_pending k).step_cases h
    · exact absurd (hk'.symm.trans hk) Bool.false_ne_true
    · exact absurd (hk'.symm.trans (hkept hk)) Bool.false_ne_true
    · have hcleared : s1.pending.getLsbD k = false :=
        Bool.eq_false_iff.2 fun hset => Bool.false_ne_true (hk'.symm.trans (hkept hset))
      have hown : k = n.toNat := by
        simpa [State.getLsbD_pending_of_dispatch hd, hk] using hcleared
      exact ⟨n, hn, hown.symm⟩
  · intro s t n hd
    simp [State.getLsbD_pending_of_dispatch hd]

end Sys2Proof.Machine
end

section
/-! PROOFS. The saved pc and the frame address are written by a dispatch alone (R35, R36). -/

namespace Sys2Proof.Machine

/-- No instruction writes what an interrupt saves (R35, R36, R332). -/
theorem ExecEffect.sameSaved {i : Instr} {s t : State} (h : ExecEffect i s t) : sameSaved s t := by
  cases h with
  | returned =>
    exact ⟨s.savedPc_returnFromInterrupt, s.savedRegsAddr_returnFromInterrupt, s.savedMode_returnFromInterrupt⟩
  | unchanged | wroteReg | jumped | linked | faulted | stored | halted | raised => exact ⟨rfl, rfl, rfl⟩
  | setIntEnabled | setPaging | setPtbr | enteredUser => exact ⟨rfl, rfl, rfl⟩

theorem keptAfterCheck_sameSaved : KeptAfterCheck sameSaved where
  trans := by
    rintro s t u ⟨hpc, haddr, hmode⟩ ⟨hpc', haddr', hmode'⟩
    exact ⟨hpc'.trans hpc, haddr'.trans haddr, hmode'.trans hmode⟩
  stopFetch _ r := by cases r <;> exact ⟨rfl, rfl, rfl⟩
  setPc _ _ := ⟨rfl, rfl, rfl⟩
  raiseFault _ _ := ⟨rfl, rfl, rfl⟩
  effect he := he.sameSaved
  endStep s := ⟨s.savedPc_endStep, s.savedRegsAddr_endStep, s.savedMode_endStep⟩

/-- Settles O54: a dispatch writes both, and everything after the interrupt check keeps both. -/
theorem savedRegistersOnlyByDispatch : Obligations.SavedRegistersOnlyByDispatch := by
  unfold Obligations.SavedRegistersOnlyByDispatch
  intro s t h
  obtain ⟨hno, rfl⟩ | ⟨hno, hpc, haddr, -⟩ | ⟨n, s1, hn, hd, hpc, haddr, -⟩ := keptAfterCheck_sameSaved.step_cases h
  · exact ⟨fun n hn => absurd hn (hno n), fun _ => ⟨rfl, rfl⟩⟩
  · exact ⟨fun n hn => absurd hn (hno n), fun _ => ⟨hpc, haddr⟩⟩
  · obtain ⟨-, -, -, -, -, -, -, -, -, -, -, -, hpc1, haddr1, -⟩ := State.dispatch_eq_some hd
    exact ⟨fun _ _ => ⟨hpc.trans hpc1, haddr.trans haddr1⟩, fun hno => absurd hn (hno n)⟩

end Sys2Proof.Machine
end

section
/-! PROOFS. The end of a step: R0's slot and status 0 (R43), the stops of the fetch (R40 steps 2 to 4), and the step of a
decoded instruction. -/

namespace Sys2Proof.Machine

@[simp] theorem State.statusOk_endStep (s : State) : s.endStep.statusOk = s.statusOk := by
  unfold State.statusOk; rw [State.stopReason_endStep]

/-- Step 8 of R40 zeroes R0's slot after status 0 and leaves it after status -1 (R43). -/
theorem State.slot0_endStep (s : State) :
    (s.statusOk = true → s.endStep.regs[0] = 0) ∧ (s.statusOk = false → s.endStep.regs[0] = s.regs[0]) := by
  unfold State.endStep
  constructor <;> intro hstatus <;> simp [hstatus]

/-- No instruction writes R0's slot (R21). -/
theorem ExecEffect.slot0 {i : Instr} {s t : State} (h : ExecEffect i s t) : t.regs[0] = s.regs[0] := by
  cases h with
  | wroteReg r v | linked r v => exact s.slot0_setReg r v
  | returned => exact s.slot0_returnFromInterrupt
  | unchanged | jumped | faulted | stored | halted | raised => rfl
  | setIntEnabled | setPaging | setPtbr | enteredUser => rfl

/-- A dispatch writes R4 and R29, not R0's slot (R320). -/
theorem State.slot0_of_dispatch {s t : State} {n : IntNum} (h : s.dispatch n = some t) : t.regs[0] = s.regs[0] := by
  obtain ⟨-, hregs, -⟩ := State.dispatch_eq_some h
  rw [hregs, State.slot0_setReg, State.slot0_setReg]

theorem State.slot0_of_interruptCheck {s t : State} (h : s.interruptCheck = some t) : t.regs[0] = s.regs[0] := by
  obtain ⟨-, rfl⟩ | ⟨n, -, hd⟩ := State.interruptCheck_eq_some h
  · rfl
  · exact State.slot0_of_dispatch hd

/-- A step that the fetch stops ends with status -1 (R40 steps 2 to 4). -/
theorem State.statusOk_stopFetch {s : State} {r : StopReason} (h : s.fetchAddr = .error r) :
    (s.stopFetch r).statusOk = false := by
  obtain ⟨rfl, -⟩ | ⟨rfl, -⟩ | ⟨rfl, -⟩ := State.fetchAddr_eq_error h <;> rfl

theorem State.regs_stopFetch (s : State) (r : StopReason) : (s.stopFetch r).regs = s.regs := by
  cases r <;> rfl

/-- Settles O45: only step 8 writes the slot, and it runs exactly after status 0. -/
theorem r0ZeroedByStatusZeroSteps : Obligations.R0ZeroedByStatusZeroSteps := by
  unfold Obligations.R0ZeroedByStatusZeroSteps
  refine ⟨fun s t h => ?_, fun s t n hd => State.slot0_of_dispatch hd⟩
  obtain ⟨-, rfl⟩ | ⟨s1, hc, hrest⟩ := step_cases h
  · exact ⟨nofun, fun _ => rfl⟩
  · have hslot1 := State.slot0_of_interruptCheck hc
    obtain ⟨r, hf, rfl⟩ | ⟨f, -, -, rfl⟩ | ⟨i, u, -, he, rfl⟩ := hrest
    · have hstatus := State.statusOk_stopFetch hf
      exact ⟨fun hok => absurd (hstatus.symm.trans hok) Bool.false_ne_true,
        fun _ => (congrArg (·[0]) (s1.regs_stopFetch r)).trans hslot1⟩
    · rw [State.statusOk_endStep]
      obtain ⟨hzero, hkept⟩ := State.slot0_endStep ((s1.setPc (s1.pc + 8#32)).raiseFault intIllegalOp)
      exact ⟨hzero, fun hfail => (hkept hfail).trans hslot1⟩
    · rw [State.statusOk_endStep]
      obtain ⟨hzero, hkept⟩ := u.slot0_endStep
      exact ⟨hzero, fun hfail => (hkept hfail).trans ((exec_effect he).slot0.trans hslot1)⟩

/-- A step that dispatches nothing and whose fetch fails is the stop of that fetch (R40 steps 2 to 4). -/
theorem step_of_fetchAddr_error {s : State} {r : StopReason} (hsel : s.selectInterrupt = none)
    (hf : s.fetchAddr = .error r) : step s = .next (({ s with stopReason := none } : State).stopFetch r) := by
  have hf' : ({ s with stopReason := none } : State).fetchAddr = .error r := hf
  show vmStep s = _
  unfold vmStep
  rw [interruptCheck_of_none hsel]
  show fetchAndExecute _ = _
  unfold fetchAndExecute
  rw [hf']

/-! The three ways a fetch fails (R40 steps 2 to 4). -/

theorem State.fetchAddr_misaligned {s : State} (ha : s.pc.toNat % 8 ≠ 0) : s.fetchAddr = .error .misalignedPc := by
  simp [State.fetchAddr, ha]

theorem State.fetchAddr_pageFault {s : State} (ha : s.pc.toNat % 8 = 0) (ht : s.translate s.pc .exec = none) :
    s.fetchAddr = .error .fetchPageFault := by
  simp [State.fetchAddr, ha, ht]

theorem State.fetchAddr_outOfBounds {s : State} {ppc : Word} (ha : s.pc.toNat % 8 = 0)
    (ht : s.translate s.pc .exec = some ppc) (hb : s.memorySize.toNat < ppc.toNat + 8) :
    s.fetchAddr = .error .fetchOutOfBounds := by
  simp [State.fetchAddr, State.inBounds, ha, ht, hb]

theorem sameWhenStopped_stopFetch (s : State) (r : StopReason) :
    sameWhenStopped s (({ s with stopReason := none } : State).stopFetch r) := by
  cases r <;> exact ⟨rfl, rfl, rfl, rfl, ⟨rfl, rfl, rfl⟩, rfl, ⟨rfl, rfl, rfl⟩, rfl, rfl⟩

/-- Settles O42: each failing fetch is its own stop, and a stop leaves the registers, the pc and memory. -/
theorem fetchStops : Obligations.FetchStops := by
  unfold Obligations.FetchStops
  intro s hsel
  refine ⟨fun ha => ?_, fun ha ht => ?_, fun ha ppc ht hb => ?_⟩
  · exact ⟨_, step_of_fetchAddr_error hsel (State.fetchAddr_misaligned ha), rfl, rfl,
      raisedBit_of_pending (n := intMemFault) rfl, rfl, sameWhenStopped_stopFetch s _⟩
  · exact ⟨_, step_of_fetchAddr_error hsel (State.fetchAddr_pageFault ha ht), rfl, rfl,
      raisedBit_of_pending (n := intPageFault) rfl, rfl, sameWhenStopped_stopFetch s _⟩
  · exact ⟨_, step_of_fetchAddr_error hsel (State.fetchAddr_outOfBounds ha ht hb), rfl, rfl, rfl, rfl,
      sameWhenStopped_stopFetch s _⟩

/-- Steps 5 to 8 of R40 for bytes that decode to an instruction. -/
theorem execBytes_of_decode {bytes : List Byte} {i : Instr} (h : decode bytes = .ok i) (s : State) :
    execBytes bytes s = endStepOf (exec i (s.setPc (s.pc + 8#32))) := by
  unfold execBytes; rw [h]

/-- Settles O41: the step executes the bytes it fetched, and step 8 of R40 follows. -/
theorem stepRunsDecodedInstruction : Obligations.StepRunsDecodedInstruction := by
  unfold Obligations.StepRunsDecodedInstruction
  intro s s1 bytes i hfetch hdec
  rw [step_of_fetches hfetch, execBytes_of_decode hdec]
  cases exec i (s1.setPc (s1.pc + 8#32)) <;> rfl

end Sys2Proof.Machine
end

section
/-! PROOFS. The stop reason of a step with the state that goes with it (R41, R42), for one step, a resume and a run. -/

namespace Sys2Proof.Machine

/-- The stop reason of `t` agrees with its state, after a step that started in `s`: `running` is cleared by SYSCALL, BREAK
and a fetch beyond memory and left alone otherwise, the pending bit R42 names is set, and execFault is for
EXEC_FAULT_STATUS = stop. -/
def StopAgrees (s t : State) : Prop :=
  match t.stopReason with
  | none | some .dispatchFailed => t.running = s.running
  | some .haltSyscall => t.running = false ∧ t.pending.getLsbD 4 = true
  | some .haltBreak => t.running = false ∧ t.pending.getLsbD 5 = true
  | some .fetchOutOfBounds => t.running = false
  | some .misalignedPc => t.running = s.running ∧ t.pending.getLsbD 2 = true
  | some .fetchPageFault => t.running = s.running ∧ t.pending.getLsbD 8 = true
  | some .execFault => t.running = s.running ∧ s.cfg.execFaultStatus = .stop

/-- While no stop reason is given `running` must be as before, and that is enough. -/
theorem StopAgrees.of_none {s t : State} (hr : t.stopReason = none) (hrun : t.running = s.running) : StopAgrees s t := by
  unfold StopAgrees; rw [hr]; exact hrun

/-- An interrupt raised is pending (R34). -/
theorem getLsbD_raised_self (p : BitVec 256) (n : IntNum) : (p ||| (1#256 <<< n.toNat)).getLsbD n.toNat = true := by
  rw [getLsbD_setPending, decide_eq_true rfl, Bool.or_true]

/-- An execute-phase exception stops the step under EXEC_FAULT_STATUS = stop only (R310). -/
theorem stopAgrees_raiseFault {s : State} (hs : s.stopReason = none) (n : IntNum) : StopAgrees s (s.raiseFault n) := by
  cases hstatus : s.cfg.execFaultStatus with
  | continue_ => exact .of_none ((s.stopReason_raiseFault_continue n hstatus).trans hs) rfl
  | stop =>
    unfold StopAgrees
    rw [s.stopReason_raiseFault_stop n hstatus]
    exact ⟨rfl, hstatus⟩

theorem ExecEffect.stopAgrees {i : Instr} {s t : State} (h : ExecEffect i s t) (hs : s.stopReason = none) :
    StopAgrees s t := by
  cases h with
  | faulted n => exact stopAgrees_raiseFault hs n
  | halted n r hcause =>
    obtain ⟨-, rfl, rfl⟩ | ⟨-, rfl, rfl⟩ := hcause
    · exact ⟨rfl, getLsbD_raised_self s.pending intSyscall⟩
    · exact ⟨rfl, getLsbD_raised_self s.pending intBreak⟩
  | returned => exact .of_none (s.stopReason_returnFromInterrupt.trans hs) s.running_returnFromInterrupt
  | unchanged | wroteReg | jumped | linked | stored | raised => exact .of_none hs rfl
  | setIntEnabled | setPaging | setPtbr | enteredUser => exact .of_none hs rfl

theorem stopAgrees_stopFetch {s : State} {r : StopReason} (h : s.fetchAddr = .error r) :
    StopAgrees s (s.stopFetch r) := by
  obtain ⟨rfl, -⟩ | ⟨rfl, -⟩ | ⟨rfl, -⟩ := State.fetchAddr_eq_error h
  · exact ⟨rfl, getLsbD_raised_self s.pending intMemFault⟩
  · exact ⟨rfl, getLsbD_raised_self s.pending intPageFault⟩
  · exact rfl

/-- Agreement speaks of `running` and the parameters at the start, and of `running`, the pending bits and the stop reason at
the end. -/
theorem StopAgrees.congr {s s' t t' : State} (h : StopAgrees s t) (hrun : s.running = s'.running) (hcfg : s.cfg = s'.cfg)
    (hrun' : t'.running = t.running) (hpending : t'.pending = t.pending) (hreason : t'.stopReason = t.stopReason) :
    StopAgrees s' t' := by
  unfold StopAgrees at h ⊢
  rw [hreason, hrun', hpending, ← hrun, ← hcfg]
  exact h

/-- The interrupt check leaves `running` and the step's outcome alone (R40 step 1, R320). -/
theorem State.outcome_of_interruptCheck {s t : State} (h : s.interruptCheck = some t) :
    t.running = s.running ∧ t.stopReason = s.stopReason := by
  obtain ⟨-, rfl⟩ | ⟨n, -, hd⟩ := State.interruptCheck_eq_some h
  · exact ⟨rfl, rfl⟩
  · obtain ⟨-, -, -, -, -, hrun, -, -, -, -, -, -, -, -, hreason, -⟩ := State.dispatch_eq_some hd
    exact ⟨hrun, hreason⟩

/-- Every step ends with a stop reason that agrees with its state (R40, R42). -/
theorem step_stopAgrees {s t : State} (h : step s = .next t) : StopAgrees s t := by
  obtain ⟨-, rfl⟩ | ⟨s1, hc, hrest⟩ := step_cases h
  · exact rfl
  · obtain ⟨hrun, hreason⟩ := State.outcome_of_interruptCheck hc
    obtain ⟨-, hcfg⟩ := sameMachine_of_interruptCheck hc
    obtain ⟨r, hf, rfl⟩ | ⟨f, -, -, rfl⟩ | ⟨i, u, -, he, rfl⟩ := hrest
    · exact (stopAgrees_stopFetch hf).congr hrun hcfg rfl rfl rfl
    · exact (stopAgrees_raiseFault hreason _).congr hrun hcfg (State.running_endStep _) (State.pending_endStep _)
        (State.stopReason_endStep _)
    · exact ((exec_effect he).stopAgrees hreason).congr hrun hcfg u.running_endStep u.pending_endStep
        u.stopReason_endStep

/-- After a step of a running machine `running` is 0 exactly after the three stops that clear it. -/
theorem StopAgrees.running_eq_false_iff {s t : State} (h : StopAgrees s t) (hs : s.running = true) :
    t.running = false ↔ t.stopReason = some .haltSyscall ∨ t.stopReason = some .haltBreak ∨
      t.stopReason = some .fetchOutOfBounds := by
  unfold StopAgrees at h
  split at h <;> simp_all

/-- A step leaves `running` alone or clears it (R37). -/
theorem StopAgrees.running_eq_or {s t : State} (h : StopAgrees s t) : t.running = s.running ∨ t.running = false := by
  unfold StopAgrees at h
  split at h <;> simp_all

/-- The three stops clear `running` whatever it was. -/
theorem StopAgrees.running_eq_false {s t : State} (h : StopAgrees s t)
    (hr : t.stopReason = some .haltSyscall ∨ t.stopReason = some .haltBreak ∨ t.stopReason = some .fetchOutOfBounds) :
    t.running = false := by
  unfold StopAgrees at h
  obtain hr | hr | hr := hr <;> rw [hr] at h
  · exact h.1
  · exact h.1
  · exact h

/-- Settles O57: the stop reason of every step agrees with its `running`; a resume is the step of a running machine. -/
theorem runningClearedOnlyAsListed : Obligations.RunningClearedOnlyAsListed := by
  unfold Obligations.RunningClearedOnlyAsListed
  constructor
  · intro s t h
    have hagree := step_stopAgrees h
    exact ⟨hagree.running_eq_or, hagree.running_eq_false, fun hs => (hagree.running_eq_false_iff hs).1⟩
  · intro s t h
    exact (step_stopAgrees h).running_eq_false_iff rfl

/-- What holds before each step of a run: the machine is running, with the parameters it started with. -/
def RunsWith (cfg : Config) (u : State) : Prop := u.running = true ∧ u.cfg = cfg

/-- A run that leaves ends with a step of the running machine that cleared `running` or ended with status -1 (R41). -/
theorem vmRun_eq_stopped {arrivals : List (BitVec 256)} {s t : State} (h : vmRun arrivals s = .stopped t) :
    ∃ u, RunsWith s.cfg u ∧ step u = .next t ∧ (t.running && t.statusOk) = false := by
  have hstart : RunsWith s.cfg { s with running := true } := ⟨rfl, rfl⟩
  refine runLoop_eq_stopped (P := RunsWith s.cfg) (fun _ _ hu => hu) ?_ hstart h
  rintro u v ⟨-, hcfg⟩ hstep hrun -
  obtain ⟨-, hcfg'⟩ := configurationFixed u v hstep
  exact ⟨hrun, hcfg'.trans hcfg⟩

/-- A step of a running machine after which the run loop leaves has a stop reason (R41, R42). -/
theorem StopAgrees.exists_stopReason {s t : State} (h : StopAgrees s t) (hs : s.running = true)
    (hleave : (t.running && t.statusOk) = false) : ∃ r, t.stopReason = some r := by
  cases hr : t.stopReason with
  | some r => exact ⟨r, rfl⟩
  | none =>
    unfold StopAgrees at h
    rw [hr] at h
    have hrun : t.running = true := h.trans hs
    have hok : t.statusOk = true := by unfold State.statusOk; rw [hr]
    rw [hrun, hok] at hleave
    exact absurd hleave.symm Bool.false_ne_true

/-- Settles O58: the step after which the run leaves has a stop reason, and it agrees with the state. -/
theorem runStopsForAListedReason : Obligations.RunStopsForAListedReason := by
  unfold Obligations.RunStopsForAListedReason
  intro arrivals s t h
  obtain ⟨u, ⟨hrun, hcfg⟩, hstep, hleave⟩ := vmRun_eq_stopped h
  have hagree := step_stopAgrees hstep
  obtain ⟨r, hr⟩ := hagree.exists_stopReason hrun hleave
  have hiff := hagree.running_eq_false_iff hrun
  unfold StopAgrees at hagree
  rw [hr] at hagree hiff
  refine ⟨r, hr, by simpa using hiff, ?_, ?_, ?_, ?_, ?_⟩
  · rintro rfl
    rw [← hcfg]
    exact hagree.2
  all_goals
    rintro rfl
    exact hagree.2

end Sys2Proof.Machine
end

section
/-! PROOFS. A dispatch to a handler that is a lone IRET gives the interrupted program back what the frame saved (R263, R320,
R324). -/

namespace Sys2Proof.Machine

/-- IRET in kernel mode with its frame inside memory returns (R263, D12). -/
theorem exec_iret_of_kernel {s : State} (hk : s.kernelMode = true)
    (hf : s.savedRegsAddr.toNat + 128 ≤ s.memorySize.toNat) : exec .iret s = .next s.returnFromInterrupt := by
  show execIret s = _
  simp [execIret, privileged, State.frameInBounds, hk, hf]

/-- A step that fetches the bytes of an IRET that returns is that return and step 8 of R40. -/
theorem step_of_fetches_iret {s s1 : State} {bytes : List Byte} (hfetch : fetches s s1 bytes)
    (hdec : decode bytes = .ok .iret) (hk : s1.kernelMode = true)
    (hf : s1.savedRegsAddr.toNat + 128 ≤ s1.memorySize.toNat) :
    step s = .next (s1.setPc (s1.pc + 8#32)).returnFromInterrupt.endStep := by
  have hexec : exec .iret (s1.setPc (s1.pc + 8#32)) = _ := exec_iret_of_kernel hk hf
  rw [step_of_fetches hfetch, execBytes_of_decode hdec, hexec]
  rfl

/-- After a dispatch the frame IRET would read holds the registers before it, word 29 as FRAME_SP_IMAGE says (R320, D5). -/
theorem State.frameWord_of_dispatch {s t : State} {n : IntNum} (h : s.dispatch n = some t) (r : Reg) :
    t.frameWord r =
      if r = 29 then (match s.cfg.frameSpImage with | .pre => s.readReg 29 | .post => s.frameAddr) else s.readReg r := by
  obtain ⟨-, -, -, hmem, -, -, -, -, -, -, -, -, -, haddr, -⟩ := State.dispatch_eq_some h
  rw [State.frameWord, hmem, haddr]
  exact s.readLE_frameMem r

/-- After a dispatch the frame IRET would read is inside memory (R322 (a)). -/
theorem State.frame_inside_of_dispatch {s t : State} {n : IntNum} (h : s.dispatch n = some t) :
    t.savedRegsAddr.toNat + 128 ≤ t.memorySize.toNat := by
  obtain ⟨hcan, -, -, -, hsize, -, -, -, -, -, -, -, -, haddr, -⟩ := State.dispatch_eq_some h
  obtain ⟨hframe, -, -⟩ := (s.canDispatch_iff n).1 hcan
  rw [haddr, hsize]
  exact hframe

/-- Dispatch and return together: every register but R29 as it was, R29 as the frame's word 29 says (R320, R324, D5). -/
theorem readReg_return_of_dispatch {s s1 : State} {n : IntNum} (hd : s.dispatch n = some s1) (v : Word) (r : Reg) :
    (s1.setPc v).returnFromInterrupt.readReg r =
      if r = 29 then (match s.cfg.frameSpImage with | .pre => s.readReg 29 | .post => s.frameAddr) else s.readReg r := by
  have hword : (s1.setPc v).frameWord r = _ := State.frameWord_of_dispatch hd r
  rw [State.readReg_returnFromInterrupt, hword]
  by_cases hr : r = 0
  · subst hr; rfl
  · rw [if_neg hr]

/-- The mode after dispatch and return: kernel, or under IRET_MODE = restore_saved as it was (R332, D4). -/
theorem kernelMode_return_of_dispatch {s s1 : State} {n : IntNum} (hd : s.dispatch n = some s1) (v : Word) :
    (s1.setPc v).returnFromInterrupt.kernelMode =
      (match s.cfg.iretMode with | .unchanged => true | .restoreSaved => s.kernelMode) := by
  obtain ⟨-, -, -, -, -, -, hk, -, -, -, -, -, -, -, -, hcfg, -, hrestore⟩ := State.dispatch_eq_some hd
  have hmode : (s1.setPc v).cfg.iretMode = s.cfg.iretMode := congrArg Config.iretMode hcfg
  cases hiret : s.cfg.iretMode with
  | unchanged => exact (State.kernelMode_returnFromInterrupt_unchanged _ (hmode.trans hiret)).trans hk
  | restoreSaved =>
    exact (State.kernelMode_returnFromInterrupt_restoreSaved _ (hmode.trans hiret)).trans (hrestore hiret)

/-- An interrupt is selected only with interrupts enabled (R40 step 1). -/
theorem State.intEnabled_of_selectInterrupt {s : State} {n : IntNum} (h : s.selectInterrupt = some n) :
    s.intEnabled = true := by
  cases he : s.intEnabled with
  | true => rfl
  | false => exact nomatch (s.selectInterrupt_of_disabled he).symm.trans h

/-- Settles O40: what the dispatch saved the IRET of the same step reads back. -/
theorem dispatchThenIretReturns : Obligations.DispatchThenIretReturns := by
  unfold Obligations.DispatchThenIretReturns
  intro s s1 n bytes hsel hcan hfetch hdec
  obtain ⟨m, ⟨hselm, -⟩, hd⟩ : ∃ m, dispatches s m ∧ ({ s with stopReason := none } : State).dispatch m = some s1 := by
    obtain ⟨hnone, -⟩ | hdispatch := interruptCheck_cases (fetches_iff.1 hfetch).1
    · exact nomatch hnone.symm.trans hsel
    · exact hdispatch
  obtain rfl : m = n := Option.some.inj (hselm.symm.trans hsel)
  have hregs := readReg_return_of_dispatch hd (s1.pc + 8#32)
  obtain ⟨-, -, -, hmem, -, hrun, hk, hpaging, hbase, hpages, -, -, hpc, haddr, hreason, -⟩ := State.dispatch_eq_some hd
  refine ⟨_, step_of_fetches_iret hfetch hdec hk (State.frame_inside_of_dispatch hd), ?_, ?_, ?_, ?_, ?_, ?_, ?_, ?_, ?_,
    ⟨?_, ?_, ?_⟩, ?_, ?_⟩
  · intro r hr
    rw [State.readReg_endStep, hregs, if_neg (by simpa using hr)]
    rfl
  · rw [State.readReg_endStep, hregs]
    rfl
  · simpa using hpc
  · simp [State.intEnabled_of_selectInterrupt hsel]
  · rw [State.kernelMode_endStep]
    exact kernelMode_return_of_dispatch hd _
  · simpa using State.getLsbD_pending_of_dispatch hd
  · simpa using hpc
  · rw [State.savedRegsAddr_endStep, State.savedRegsAddr_returnFromInterrupt]
    exact haddr
  · intro a ha
    rw [State.mem_endStep, State.mem_returnFromInterrupt, State.mem_setPc, hmem]
    exact s.read_frameMem_of_outside a ha
  · simpa using hpaging
  · simpa using hbase
  · simpa using hpages
  · simpa using hrun
  · simpa using hreason

end Sys2Proof.Machine
end

section
/-! PROOFS. Reset (R44), and the instruction the host places for the next step (log 6). -/

namespace Sys2Proof.Machine

/-- After `c32_vm_init` every register slot is 0 (R44). -/
theorem State.regs_init (cfg : Config) (mem : Memory) (size : Word) (r : Reg) :
    (State.init cfg mem size).regs[r] = 0 := by
  simp [State.init]

/-- After `c32_vm_init` every register reads 0 (R44). -/
theorem State.readReg_init (cfg : Config) (mem : Memory) (size : Word) (r : Reg) :
    (State.init cfg mem size).readReg r = 0 := by
  unfold State.readReg
  rw [State.regs_init, ite_self]

/-- Settles O49: `c32_vm_init` is `State.init` on the machine's own memory. -/
theorem resetValues : Obligations.ResetValues := by
  unfold Obligations.ResetValues
  refine ⟨fun s => ⟨State.init s.cfg s.mem s.memorySize, rfl, fun r => ⟨State.readReg_init .., State.regs_init ..⟩, ?_⟩, rfl⟩
  exact ⟨rfl, rfl, rfl, rfl, rfl, rfl, rfl, rfl, rfl, rfl, rfl, rfl, rfl, rfl, rfl⟩

/-- The bytes of an instruction's fields decode to it (R121, R124). -/
theorem decode_bytes_fields (i : Instr) : decode i.fields.bytes = .ok i := by
  rw [decode_bytes]
  cases i with
  | add | addu | sub | subu | and | or | xor | nor => simp [Instr.fields, decodeR3]
  | slt | sltu | mul | mulh | mulhu | div | divu | rem | remu => simp [Instr.fields, decodeR3]
  | addi | addiu | andi | ori | xori | slti | sltiu => simp [Instr.fields, decodeI]
  | lui => simp [Instr.fields, decodeLui]
  | sll | srl | sra => simp [Instr.fields, decodeShi]
  | sllv | srlv | srav => simp [Instr.fields, decodeShv]
  | lw | lh | lhu | lb | lbu | sw | sh | sb => simp [Instr.fields, decodeM]
  | beq | bne => simp [Instr.fields, decodeB2]
  | blez | bgtz | bltz | bgez => simp [Instr.fields, decodeB1]
  | jr => simp [Instr.fields, decodeJr]
  | jalr => simp [Instr.fields, decodeJalr]
  | getpc | getmode => simp [Instr.fields, decodeRd]
  | setPtbr => simp [Instr.fields, decodePtbr]
  | nop | j | jal | syscall | brk | ei | di | iret | raise | enablePaging | disablePaging | enterUser =>
    simp [Instr.fields]

/-- Bytes stored are the bytes then read from the same addresses. -/
theorem Memory.map_read_writeBytes (m : Memory) (a : Nat) (bs : List Byte) :
    (List.range bs.length).map (fun k => (m.writeBytes a bs).read (a + k)) = bs := by
  refine List.ext_getElem (by simp) fun k _ hk => ?_
  simpa using m.read_writeBytes a bs k hk

/-- In kernel mode with no interrupt to dispatch the next fetch is at the pc (R40 steps 1 to 4, R90). -/
theorem State.nextFetch_of_kernel {s : State} (hk : s.kernelMode = true) (hsel : s.selectInterrupt = none)
    (ha : s.pc.toNat % 8 = 0) (hb : s.pc.toNat + 8 ≤ s.memorySize.toNat) : s.nextFetch = some s.pc.toNat := by
  have hfetch : s.fetchAddr = .ok s.pc.toNat :=
    State.fetchAddr_eq_ok.2 ⟨ha, s.pc, s.translate_kernel s.pc .exec hk, hb, rfl⟩
  unfold State.nextFetch State.interruptCheck
  simp only [hsel, hfetch]
  rfl

/-- Placing an instruction's word there stores its bytes at the pc (log 6, log 37). -/
theorem State.withFetchWord_of_kernel {s : State} (i : Instr) (hk : s.kernelMode = true)
    (hsel : s.selectInterrupt = none) (ha : s.pc.toNat % 8 = 0) (hb : s.pc.toNat + 8 ≤ s.memorySize.toNat) :
    s.withFetchWord 64 i.fields.word.toNat = { s with mem := s.mem.writeBytes s.pc.toNat i.fields.bytes } := by
  rw [State.withFetchWord, tableBytes_word, State.placeInstr, State.nextFetch_of_kernel hk hsel ha hb]

/-- Settles O60: the step fetches at the pc the bytes placed there, and they decode to the instruction. -/
theorem placedInstructionRuns : Obligations.PlacedInstructionRuns := by
  unfold Obligations.PlacedInstructionRuns
  intro s i hk hsel ha hb
  rw [State.withFetchWord_of_kernel i hk hsel ha hb]
  have hsel' : ({ s with mem := s.mem.writeBytes s.pc.toNat i.fields.bytes } : State).selectInterrupt = none := hsel
  have hbytes := Memory.map_read_writeBytes s.mem s.pc.toNat i.fields.bytes
  refine ⟨_, ⟨_, i.fields.bytes, ⟨interruptCheck_of_none hsel', ha, s.pc, State.translate_kernel _ _ _ hk, hb,
    hbytes.symm⟩, decode_bytes_fields i, rfl⟩, rfl, ?_, rfl⟩
  exact fun a hout => Memory.read_writeBytes_of_outside _ _ _ a hout

end Sys2Proof.Machine
end


section
/-! PROOFS. Translation: in numbers (R90, R92, R94), what it leaves of an address, and which bits of an entry it reads
(R91). -/

namespace Sys2Proof.Machine

/-- Steps 7 to 10 of R90, bit by bit of the entry. -/
theorem ptePermits_iff (pte : Word) (kind : AccessKind) :
    ptePermits pte kind = true ↔ pte.getLsbD 0 = true ∧ pte.getLsbD 3 = true ∧
      (kind = .write → pte.getLsbD 1 = true) ∧ (kind = .exec → pte.getLsbD 2 = true) := by
  cases kind <;> simp [ptePermits, pteValid, pteUser, pteWritable, pteExecutable, and_assoc]

/-- A physical address is the one step 11 of R90 forms exactly when it is the entry's page with the offset. -/
theorem eq_physOf_iff {pa pte va : Word} :
    pa = physOf pte va ↔ pa.toNat = pte.toNat / 4096 * 4096 + va.toNat % 4096 := by
  rw [← BitVec.toNat_inj, toNat_physOf]

/-- Settles O22: `State.translate_eq_some` read in numbers. -/
theorem translationAlgorithm : Obligations.TranslationAlgorithm := by
  unfold Obligations.TranslationAlgorithm
  intro s va kind
  refine ⟨s.translate_kernel va kind, s.translate_pagingOff va kind, fun hk hp pa => ?_⟩
  rw [State.translate_eq_some hk hp, ← wordAt_eq, ptePermits_iff, eq_physOf_iff, State.toNat_pteAddr, toNat_vpnOf]
  constructor
  · rintro ⟨hvpn, hentry, ⟨hv, hu, hw, hx⟩, hpa⟩
    exact ⟨_, _, _, rfl, rfl, hvpn, hentry, rfl, hv, hu, hw, hx, hpa⟩
  · rintro ⟨_, _, _, rfl, rfl, hvpn, hentry, rfl, hv, hu, hw, hx, hpa⟩
    exact ⟨hvpn, hentry, ⟨hv, hu, hw, hx⟩, hpa⟩

/-- Settles O23: page 3 of the table at 0x9000 has its entry at 0x900C, which permits every kind of access. -/
theorem workedTranslation : Obligations.WorkedTranslation := by
  unfold Obligations.WorkedTranslation
  intro s kind hk hp hbase hpages hsize hentry
  obtain ⟨-, -, htranslated⟩ := translationAlgorithm s 0x00003ABC kind
  refine (htranslated hk hp _).2 ⟨3, 0x900C, 0x0000A00F, rfl, ?_, ?_, hsize, hentry.symm, ?_⟩
  · rw [hbase]; rfl
  · rw [hpages]; decide
  · exact ⟨rfl, rfl, fun _ => rfl, fun _ => rfl, rfl⟩

/-- Two entries agree outside their reserved bits 11:4 (R91). -/
def AgreeOutsideReserved (p q : Word) : Prop := ∀ k, k < 32 → ¬(4 ≤ k ∧ k ≤ 11) → p.getLsbD k = q.getLsbD k

/-- The permissions are in bits 3:0 of an entry (R91). -/
theorem AgreeOutsideReserved.ptePermits_eq {p q : Word} (h : AgreeOutsideReserved p q) (kind : AccessKind) :
    ptePermits p kind = ptePermits q kind := by
  have h0 := h 0 (by omega) (by omega)
  have h1 := h 1 (by omega) (by omega)
  have h2 := h 2 (by omega) (by omega)
  have h3 := h 3 (by omega) (by omega)
  rw [Bool.eq_iff_iff, ptePermits_iff, ptePermits_iff, h0, h1, h2, h3]

/-- The page is in bits 31:12 of an entry (R91). -/
theorem AgreeOutsideReserved.physOf_eq {p q : Word} (h : AgreeOutsideReserved p q) (va : Word) :
    physOf p va = physOf q va := by
  have hmask : ∀ k, k < 32 → (0xFFFFF000 : Word).getLsbD k = decide (12 ≤ k) := by decide
  have hpage : p &&& 0xFFFFF000 = q &&& 0xFFFFF000 := by
    apply BitVec.eq_of_getLsbD_eq
    intro k hk
    rw [BitVec.getLsbD_and, BitVec.getLsbD_and, hmask k hk]
    by_cases hpage : 12 ≤ k
    · rw [h k hk (by omega)]
    · simp [hpage]
  rw [physOf, physOf, hpage]

/-- Two states with the same mode, paging fields and size of memory, whose entries for an address agree outside the
reserved bits, translate it alike: the permissions and the page are all that a translation takes from memory. -/
theorem State.translate_congr {s t : State} {va : Word} (kind : AccessKind) (hmode : t.kernelMode = s.kernelMode)
    (hpaging : samePaging s t) (hsize : t.memorySize = s.memorySize)
    (hentry : AgreeOutsideReserved (wordAt t (s.pteAddr va).toNat) (wordAt s (s.pteAddr va).toNat)) :
    t.translate va kind = s.translate va kind := by
  obtain ⟨henabled, hbase, hpages⟩ := hpaging
  cases hk : s.kernelMode with
  | true => rw [s.translate_kernel va kind hk, t.translate_kernel va kind (hmode.trans hk)]
  | false =>
    cases hp : s.pagingEnabled with
    | false => rw [s.translate_pagingOff va kind hp, t.translate_pagingOff va kind (henabled.trans hp)]
    | true =>
      have hpteAddr : t.pteAddr va = s.pteAddr va := by rw [State.pteAddr, State.pteAddr, hbase]
      apply Option.ext
      intro pa
      rw [State.translate_eq_some hk hp, State.translate_eq_some (hmode.trans hk) (henabled.trans hp), hpages, hsize,
        hpteAddr, ← wordAt_eq, ← wordAt_eq, hentry.ptePermits_eq, hentry.physOf_eq]

/-- Settles O24: the states differ in memory alone. -/
theorem reservedPteBitsIgnored : Obligations.ReservedPteBitsIgnored := by
  unfold Obligations.ReservedPteBitsIgnored
  intro s m va kind h
  exact State.translate_congr kind rfl (samePaging_refl s) rfl h

/-- In every mode a translation keeps the offset in the page (R90). -/
theorem State.offset_of_translate {s : State} {va pa : Word} {kind : AccessKind} (h : s.translate va kind = some pa) :
    pa.toNat % 4096 = va.toNat % 4096 := by
  cases hk : s.kernelMode with
  | true =>
    rw [s.translate_kernel va kind hk] at h
    rw [Option.some.inj h]
  | false =>
    cases hp : s.pagingEnabled with
    | false =>
      rw [s.translate_pagingOff va kind hp] at h
      rw [Option.some.inj h]
    | true =>
      obtain ⟨-, -, -, hpa⟩ := (State.translate_eq_some hk hp).1 h
      have hnum := eq_physOf_iff.1 hpa
      omega

end Sys2Proof.Machine
end

section
/-! PROOFS. Where a step in user mode can write: in the page its one translation gave, and a few bytes past the page's
end (R72, R90, R330). -/

namespace Sys2Proof.Machine

/-- The memory `m` is that of `s` after one store that the alignment, the translation for writing and the bounds let
through (R71). -/
def StoredInto (s : State) (m : Memory) : Prop :=
  ∃ (va pa v : Word) (sz : Size), s.refusesMisaligned va sz = false ∧ s.translate va .write = some pa ∧
    pa.toNat + sz.bytes ≤ s.memorySize.toNat ∧ m = s.mem.writeLE pa.toNat sz.bytes v

/-- An instruction leaves memory alone or makes one store. -/
theorem ExecEffect.mem_eq_or_storedInto {i : Instr} {s t : State} (h : ExecEffect i s t) :
    t.mem = s.mem ∨ StoredInto s t.mem := by
  cases h with
  | stored va pa v sz _ ha ht hb => exact .inr ⟨va, pa, v, sz, ha, ht, hb, rfl⟩
  | returned => exact .inl s.mem_returnFromInterrupt
  | unchanged | wroteReg | jumped | linked | faulted | halted | raised => exact .inl rfl
  | setIntEnabled | setPaging | setPtbr | enteredUser => exact .inl rfl

@[simp] theorem State.mem_stopFetch (s : State) (r : StopReason) : (s.stopFetch r).mem = s.mem := by cases r <;> rfl

/-- A step that dispatches nothing leaves memory alone or makes one store (R40). -/
theorem step_mem_eq_or_storedInto {s t : State} (hsel : s.selectInterrupt = none) (h : step s = .next t) :
    t.mem = s.mem ∨ StoredInto s t.mem := by
  obtain ⟨-, rfl⟩ | ⟨s1, hc, hrest⟩ := step_cases h
  · exact .inl rfl
  · obtain rfl : s1 = { s with stopReason := none } := Option.some.inj (hc.symm.trans (interruptCheck_of_none hsel))
    obtain ⟨r, -, rfl⟩ | ⟨f, -, -, rfl⟩ | ⟨i, u, -, he, rfl⟩ := hrest
    · exact .inl (State.mem_stopFetch _ r)
    · exact .inl (State.mem_endStep _)
    · rw [State.mem_endStep]
      exact (exec_effect he).mem_eq_or_storedInto

/-- A store changes only the bytes it covers, which are inside memory. -/
theorem StoredInto.exists_of_read_ne {s : State} {m : Memory} (h : StoredInto s m) {a : Nat}
    (ha : m.read a ≠ s.mem.read a) :
    ∃ (va pa : Word) (sz : Size), s.refusesMisaligned va sz = false ∧ s.translate va .write = some pa ∧
      pa.toNat ≤ a ∧ a < pa.toNat + sz.bytes ∧ a < s.memorySize.toNat := by
  obtain ⟨va, pa, v, sz, halign, htr, hb, rfl⟩ := h
  have hin : pa.toNat ≤ a ∧ a < pa.toNat + sz.bytes := by
    by_contra hout
    exact ha (Memory.read_writeLE_of_outside _ _ _ _ _ (by omega))
  obtain ⟨hlo, hhi⟩ := hin
  exact ⟨va, pa, sz, halign, htr, hlo, hhi, by omega⟩

/-- An access runs at most three bytes past the end of the page it starts in (D2). -/
theorem offset_add_bytes_le (va : Word) (sz : Size) : va.toNat % 4096 + sz.bytes ≤ 4099 := by
  cases sz <;> simp only [Size.bytes] <;> omega

/-- An aligned access ends in the page it starts in. -/
theorem offset_add_bytes_le_of_aligned {va : Word} {sz : Size} (h : va.toNat % sz.bytes = 0) :
    va.toNat % 4096 + sz.bytes ≤ 4096 := by
  cases sz <;> simp only [Size.bytes] at h ⊢ <;> omega

/-- How far past the start of its page an access may run under each value of MISALIGNED_DATA (R67, R72; D1, D2). -/
theorem State.offset_add_bytes_le_reach {s : State} {va : Word} {sz : Size} (h : s.refusesMisaligned va sz = false) :
    va.toNat % 4096 + sz.bytes ≤ (match s.cfg.misalignedData with | .bytewise => 4099 | .refuse => 4096) := by
  obtain hmode | haligned := alignmentAdmits_iff.2 h
  · rw [hmode]
    exact offset_add_bytes_le va sz
  · have hpage := offset_add_bytes_le_of_aligned haligned
    cases s.cfg.misalignedData with
    | bytewise => exact hpage.trans (by decide)
    | refuse => exact hpage

/-- Settles O53: the byte changed is one of a store's, and the store's page is the one its translation gave. -/
theorem userStoresStayInWritablePages : Obligations.UserStoresStayInWritablePages := by
  unfold Obligations.UserStoresStayInWritablePages
  rintro s t a ⟨hk, hp⟩ hsel hstep hne
  obtain hmem | hstored := step_mem_eq_or_storedInto hsel hstep
  · exact absurd (congrArg (Memory.read · a) hmem) hne
  · obtain ⟨va, pa, sz, halign, htr, hlo, hhi, hsize⟩ := hstored.exists_of_read_ne hne
    have hreach := State.offset_add_bytes_le_reach halign
    obtain ⟨-, -, htranslated⟩ := translationAlgorithm s va .write
    obtain ⟨vpn, ptea, pte, hvpn, hptea, hpages, hentry, hpte, hv, hu, hw, -, hpa⟩ := (htranslated hk hp pa).1 htr
    have hva : va.toNat < 2 ^ 32 := va.isLt
    refine ⟨vpn, ptea, pte, by omega, hpages, hptea, hentry, hpte, hv, hw rfl, hu, by omega, hsize, ?_⟩
    calc a < pte.toNat / 4096 * 4096 + (va.toNat % 4096 + sz.bytes) := by omega
      _ ≤ _ := Nat.add_le_add_left hreach _

end Sys2Proof.Machine
end

section
/-! PROOFS. Physical accesses (R65, R68), and loads and stores by the access they make (R66, R67, R70, R71, R219). -/

namespace Sys2Proof.Machine

/-- Byte `i` of a value a little-endian store put in memory (R60, R68). -/
theorem Memory.read_writeLE_of_inside (m : Memory) (a n : Nat) (v : Word) {i : Nat} (hi : i < n) :
    (m.writeLE a n v).read (a + i) = v.extractLsb' (8 * i) 8 := by
  rw [Memory.read_writeLE, if_pos (by omega), Nat.add_sub_cancel_left]
  apply BitVec.eq_of_getLsbD_eq
  intro k hk
  simp [hk]

/-- Settles O16: both accesses fail by the one bounds check, and otherwise are `Memory.readLE` and `Memory.writeLE`. -/
theorem physicalAccess : Obligations.PhysicalAccess := by
  unfold Obligations.PhysicalAccess
  intro s pa n v _
  refine ⟨fun hb => ⟨State.physRead_eq_none.2 hb, State.physWrite_eq_none.2 hb⟩, fun hb => ⟨?_, ?_⟩⟩
  · exact ⟨_, State.physRead_eq_some.2 ⟨hb, rfl⟩, s.mem.getLsbD_readLE pa n⟩
  · exact ⟨_, State.physWrite_eq_some.2 ⟨hb, rfl⟩, fun i hi => s.mem.read_writeLE_of_inside pa n v hi,
      fun a ha => s.mem.read_writeLE_of_outside pa n v a ha, rfl⟩

/-- A load or store of R211-R218 is one of the two shared shapes at its effective address (R64, R210). -/
theorem exec_of_accesses {s : State} {i : Instr} {ea : Word} {sz : Size} {kind : AccessKind}
    (h : accesses s i ea sz kind) :
    ∃ rt rs imm, ea = s.effectiveAddr rs imm ∧
      ((kind = .read ∧ ∃ ext, exec i s = load sz ext rt rs imm s) ∨
        (kind = .write ∧ exec i s = store sz rt rs imm s)) := by
  obtain ⟨rt, rs, imm, hea, hrow⟩ := h
  refine ⟨rt, rs, imm, hea, ?_⟩
  simp only [List.mem_cons, Prod.mk.injEq, List.not_mem_nil, or_false] at hrow
  obtain ⟨rfl, rfl, rfl⟩ | ⟨rfl, rfl, rfl⟩ | ⟨rfl, rfl, rfl⟩ | ⟨rfl, rfl, rfl⟩ | ⟨rfl, rfl, rfl⟩ | ⟨rfl, rfl, rfl⟩ |
    ⟨rfl, rfl, rfl⟩ | ⟨rfl, rfl, rfl⟩ := hrow
  · exact .inl ⟨rfl, id, rfl⟩
  · exact .inl ⟨rfl, signExtendHalf, rfl⟩
  · exact .inl ⟨rfl, id, rfl⟩
  · exact .inl ⟨rfl, signExtendByte, rfl⟩
  · exact .inl ⟨rfl, id, rfl⟩
  · exact .inr ⟨rfl, rfl⟩
  · exact .inr ⟨rfl, rfl⟩
  · exact .inr ⟨rfl, rfl⟩

/-- A load or store is refused exactly when the model refuses its alignment (R67). -/
theorem exec_eq_refused_of_accesses {s : State} {i : Instr} {ea : Word} {sz : Size} {kind : AccessKind}
    (h : accesses s i ea sz kind) {r : Refusal} :
    exec i s = .refused r ↔ r = .misalignedData ∧ s.refusesMisaligned ea sz = true := by
  obtain ⟨rt, rs, imm, rfl, ⟨-, ext, he⟩ | ⟨-, he⟩⟩ := exec_of_accesses h
  · rw [he, load_eq_refused]
  · rw [he, store_eq_refused]

/-- A load or store whose translation fails raises PAGE_FAULT and does nothing else (R66, R219). -/
theorem exec_pageFault_of_accesses {s : State} {i : Instr} {ea : Word} {sz : Size} {kind : AccessKind}
    (h : accesses s i ea sz kind) (ha : s.refusesMisaligned ea sz = false) (ht : s.translate ea kind = none) :
    exec i s = .next (s.raiseFault intPageFault) := by
  obtain ⟨rt, rs, imm, rfl, ⟨rfl, ext, he⟩ | ⟨rfl, he⟩⟩ := exec_of_accesses h
  · rw [he, load, State.memRead_pageFault ha ht]
  · rw [he, store, State.memWrite_pageFault ha ht]

/-- A load or store that translates and reaches beyond memory raises MEM_FAULT and does nothing else (R65, R66,
R219). -/
theorem exec_memFault_of_accesses {s : State} {i : Instr} {ea pa : Word} {sz : Size} {kind : AccessKind}
    (h : accesses s i ea sz kind) (ha : s.refusesMisaligned ea sz = false) (ht : s.translate ea kind = some pa)
    (hb : s.memorySize.toNat < pa.toNat + sz.bytes) : exec i s = .next (s.raiseFault intMemFault) := by
  obtain ⟨rt, rs, imm, rfl, ⟨rfl, ext, he⟩ | ⟨rfl, he⟩⟩ := exec_of_accesses h
  · rw [he, load, State.memRead_memFault ha ht hb]
  · rw [he, store, State.memWrite_memFault ha ht hb]

/-- Settles O19: the access decides the fault, and the fault is R310's exception alone. -/
theorem loadStoreFaults : Obligations.LoadStoreFaults := by
  unfold Obligations.LoadStoreFaults
  intro rt rs imm s i sz kind hform halign
  have hacc : accesses s i (s.readReg rs + imm) sz kind := ⟨rt, rs, imm, rfl, by simpa using hform⟩
  have ha := alignmentAdmits_iff.1 halign
  exact ⟨fun ht => ⟨_, exec_pageFault_of_accesses hacc ha ht, onlyRaises_raiseFault s intPageFault⟩,
    fun pa ht hb => ⟨_, exec_memFault_of_accesses hacc ha ht hb, onlyRaises_raiseFault s intMemFault⟩⟩

/-- A misaligned load or store is refused exactly under MISALIGNED_DATA = refuse (R67, D1). -/
theorem exec_eq_misalignedData_iff {s : State} {i : Instr} {ea : Word} {sz : Size} {kind : AccessKind}
    (h : accesses s i ea sz kind) (hmis : ea.toNat % sz.bytes ≠ 0) :
    exec i s = .refused .misalignedData ↔ s.cfg.misalignedData = .refuse := by
  rw [exec_eq_refused_of_accesses h, State.refusesMisaligned_eq_true]
  exact ⟨fun ⟨_, hcfg, _⟩ => hcfg, fun hcfg => ⟨rfl, hcfg, hmis⟩⟩

/-- A load or store whose alignment the model does not refuse answers with a next state. -/
theorem exec_eq_next_of_accesses {s : State} {i : Instr} {ea : Word} {sz : Size} {kind : AccessKind}
    (h : accesses s i ea sz kind) (ha : s.refusesMisaligned ea sz = false) : ∃ t, exec i s = .next t := by
  cases he : exec i s with
  | next t => exact ⟨t, rfl⟩
  | fault f => exact nomatch f
  | refused r =>
    obtain ⟨-, hmis⟩ := (exec_eq_refused_of_accesses h).1 he
    exact absurd (ha.symm.trans hmis) Bool.false_ne_true

/-- Settles O20: each form's access is misaligned by its own width; a byte access never is. -/
theorem misalignedAccessRefused : Obligations.MisalignedAccessRefused := by
  unfold Obligations.MisalignedAccessRefused
  intro rt rs imm s
  refine ⟨fun hmis i hi => ?_, fun hmis i hi => ?_, fun i hi => ?_⟩
  · obtain rfl | rfl := hi
    · exact exec_eq_misalignedData_iff (sz := .word) (kind := .read) ⟨rt, rs, imm, rfl, by simp⟩ hmis
    · exact exec_eq_misalignedData_iff (sz := .word) (kind := .write) ⟨rt, rs, imm, rfl, by simp⟩ hmis
  · obtain rfl | rfl | rfl := hi
    · exact exec_eq_misalignedData_iff (sz := .half) (kind := .read) ⟨rt, rs, imm, rfl, by simp⟩ hmis
    · exact exec_eq_misalignedData_iff (sz := .half) (kind := .read) ⟨rt, rs, imm, rfl, by simp⟩ hmis
    · exact exec_eq_misalignedData_iff (sz := .half) (kind := .write) ⟨rt, rs, imm, rfl, by simp⟩ hmis
  · obtain rfl | rfl | rfl := hi
    · exact exec_eq_next_of_accesses (kind := .read) ⟨rt, rs, imm, rfl, by simp⟩ (s.refusesMisaligned_byte _)
    · exact exec_eq_next_of_accesses (kind := .read) ⟨rt, rs, imm, rfl, by simp⟩ (s.refusesMisaligned_byte _)
    · exact exec_eq_next_of_accesses (kind := .write) ⟨rt, rs, imm, rfl, by simp⟩ (s.refusesMisaligned_byte _)

end Sys2Proof.Machine
end

section
/-! PROOFS. A load after a store at the same physical bytes (R60, R101). -/

namespace Sys2Proof.Machine

/-- A load whose checks pass writes the extended value of its bytes (R210). -/
theorem load_of_checks {sz : Size} {ext : Word → Word} {rt rs : Reg} {imm pa : Word} {s : State}
    (ha : s.refusesMisaligned (s.effectiveAddr rs imm) sz = false)
    (ht : s.translate (s.effectiveAddr rs imm) .read = some pa) (hb : pa.toNat + sz.bytes ≤ s.memorySize.toNat) :
    load sz ext rt rs imm s = .next (s.setReg rt (ext (s.mem.readLE pa.toNat sz.bytes))) := by
  rw [load, State.memRead_ok ha ht hb]

/-- A store that goes on, translates and is inside memory wrote its bytes: it raised nothing (R219). -/
theorem store_eq_next_of_inside {sz : Size} {rt rs : Reg} {imm pa : Word} {s t : State}
    (h : store sz rt rs imm s = .next t) (ht : s.translate (s.effectiveAddr rs imm) .write = some pa)
    (hb : pa.toNat + sz.bytes ≤ s.memorySize.toNat) :
    s.refusesMisaligned (s.effectiveAddr rs imm) sz = false ∧
      t = { s with mem := s.mem.writeLE pa.toNat sz.bytes (s.readReg rt) } := by
  obtain ⟨pa', ha, ht', -, rfl⟩ | ⟨n, ⟨-, hnone⟩ | ⟨-, pa', ht', hb'⟩, -⟩ := store_eq_next h
  · obtain rfl := Option.some.inj (ht.symm.trans ht')
    exact ⟨ha, rfl⟩
  · exact nomatch hnone.symm.trans ht
  · obtain rfl := Option.some.inj (ht.symm.trans ht')
    omega

/-- A page is a whole number of accesses of every width. -/
theorem Size.bytes_dvd_page (sz : Size) : sz.bytes ∣ 4096 := by
  cases sz <;> decide

/-- Addresses with the same offset in their pages are aligned alike. -/
theorem State.refusesMisaligned_eq_of_offset {s t : State} {ea fa : Word} (hcfg : t.cfg = s.cfg)
    (hoff : fa.toNat % 4096 = ea.toNat % 4096) (sz : Size) :
    t.refusesMisaligned fa sz = s.refusesMisaligned ea sz := by
  have hmod : fa.toNat % sz.bytes = ea.toNat % sz.bytes := by
    rw [← Nat.mod_mod_of_dvd fa.toNat sz.bytes_dvd_page, hoff, Nat.mod_mod_of_dvd _ sz.bytes_dvd_page]
  rw [State.refusesMisaligned, State.refusesMisaligned, hcfg, hmod]

/-- The low `n` bytes of a value stored and read back: its low `8 * n` bits, zero-extended (R60). -/
theorem Memory.readLE_writeLE (m : Memory) (a n : Nat) (v : Word) :
    (m.writeLE a n v).readLE a n = (v.setWidth (8 * n)).setWidth 32 := by
  apply BitVec.eq_of_getLsbD_eq
  intro k hk
  rw [Memory.getLsbD_readLE_writeLE _ _ _ _ _ hk]
  by_cases hlow : k < 8 * n <;> simp [hk, hlow]

/-- After a store the load of the same width from the same physical bytes writes the extension of the stored value's low
bits. The load is aligned because the store was: a translation keeps the offset in the page. -/
theorem load_of_store {sz : Size} {ext : Word → Word} {v : Word} {rt rs rd qs : Reg} {imm jmm pa : Word} {s t : State}
    (h : store sz rt rs imm s = .next t) (hw : s.translate (s.effectiveAddr rs imm) .write = some pa)
    (hr : t.translate (t.effectiveAddr qs jmm) .read = some pa) (hb : pa.toNat + sz.bytes ≤ s.memorySize.toNat)
    (hext : ext (((s.readReg rt).setWidth (8 * sz.bytes)).setWidth 32) = v) :
    ∃ u, load sz ext rd qs jmm t = .next u ∧ u.readReg rd = written rd v := by
  obtain ⟨ha, ht⟩ := store_eq_next_of_inside h hw hb
  have hoff := (State.offset_of_translate hr).symm.trans (State.offset_of_translate hw)
  have hcfg : t.cfg = s.cfg := by rw [ht]
  have hsize : t.memorySize = s.memorySize := by rw [ht]
  have hmem : t.mem = s.mem.writeLE pa.toNat sz.bytes (s.readReg rt) := by rw [ht]
  have halign := (State.refusesMisaligned_eq_of_offset hcfg hoff sz).trans ha
  refine ⟨_, load_of_checks halign hr (hsize ▸ hb), ?_⟩
  rw [readReg_setReg_self, hmem, Memory.readLE_writeLE, hext]

/-- LH extends the halfword it read (R212). -/
theorem signExtendHalf_setWidth (v : BitVec 16) : signExtendHalf (v.setWidth 32) = v.signExtend 32 := by
  simp [signExtendHalf]

/-- LB extends the byte it read (R214). -/
theorem signExtendByte_setWidth (v : Byte) : signExtendByte (v.setWidth 32) = v.signExtend 32 := by
  simp [signExtendByte]

/-- Settles O21: `load_of_store` for each width, with each form's extension. -/
theorem loadAfterStore : Obligations.LoadAfterStore := by
  unfold Obligations.LoadAfterStore
  intro rt rd rs qs imm jmm pa s t hw hr
  refine ⟨fun hb h => ?_, fun hb h => ⟨?_, ?_⟩, fun hb h => ⟨?_, ?_⟩⟩
  · have hword : ((s.readReg rt).setWidth 32).setWidth 32 = s.readReg rt := by simp
    exact load_of_store (sz := .word) (ext := id) h hw hr hb hword
  · exact load_of_store (sz := .half) (ext := id) h hw hr hb rfl
  · exact load_of_store (sz := .half) h hw hr hb (signExtendHalf_setWidth _)
  · exact load_of_store (sz := .byte) (ext := id) h hw hr hb rfl
  · exact load_of_store (sz := .byte) h hw hr hb (signExtendByte_setWidth _)

end Sys2Proof.Machine
end

section
/-! PROOFS. The dispatch to a handler the host installed (R80, R320, R340). -/

namespace Sys2Proof.Machine

/-- A vector word outside the frame is read as it stood before the context save (R320 step 8). -/
theorem State.handlerWord_of_disjoint {s : State} {n : IntNum}
    (h : s.frameAddr.toNat + 128 ≤ 8 * n.toNat ∨ 8 * n.toNat + 4 ≤ s.frameAddr.toNat) :
    s.handlerWord n = s.mem.readLE (8 * n.toNat) 4 :=
  Memory.readLE_congr fun _ _ => s.read_frameMem_of_outside _ (by omega)

/-- A dispatch that can go through goes to the handler word (R320). -/
theorem State.dispatch_of_canDispatch {s : State} {n : IntNum} (h : s.canDispatch n = true) :
    ∃ t, s.dispatch n = some t ∧ t.pc = s.handlerWord n := by
  cases hd : s.dispatch n with
  | none => exact absurd ((State.dispatch_eq_none.1 hd).symm.trans h) Bool.false_ne_true
  | some t =>
    obtain ⟨-, -, hpc, -⟩ := State.dispatch_eq_some hd
    exact ⟨t, rfl, hpc⟩

/-- Installing a handler writes the vector word and nothing else (R80, R340). -/
theorem hostSetHandler_eq_some {s t : State} {n : IntNum} {addr : Word} :
    hostSetHandler n addr s = some t ↔
      8 * n.toNat + 4 ≤ s.memorySize.toNat ∧ t = { s with mem := s.mem.writeLE (8 * n.toNat) 4 addr } :=
  State.physWrite_eq_some

/-- The installed handler is the handler word, where the frame does not cover it. -/
theorem State.handlerWord_of_hostSetHandler {s t : State} {n : IntNum} {addr : Word}
    (h : hostSetHandler n addr s = some t)
    (hdisjoint : t.frameAddr.toNat + 128 ≤ 8 * n.toNat ∨ 8 * n.toNat + 4 ≤ t.frameAddr.toNat) :
    t.handlerWord n = addr := by
  obtain ⟨-, ht⟩ := hostSetHandler_eq_some.1 h
  have hmem : t.mem = s.mem.writeLE (8 * n.toNat) 4 addr := by rw [ht]
  rw [State.handlerWord_of_disjoint hdisjoint, hmem, Memory.readLE_writeLE_four]

/-- Settles O39: the word the host writes is the handler word, and it is not 0. -/
theorem installedHandlerRuns : Obligations.InstalledHandlerRuns := by
  unfold Obligations.InstalledHandlerRuns
  intro s n addr haddr hvector hframe hdisjoint
  obtain ⟨t, ht⟩ : ∃ t, t = { s with mem := s.mem.writeLE (8 * n.toNat) 4 addr } := ⟨_, rfl⟩
  have hset : hostSetHandler n addr s = some t := hostSetHandler_eq_some.2 ⟨hvector, ht⟩
  have hframeAddr : t.frameAddr = s.frameAddr := by rw [ht]; rfl
  have hsize : t.memorySize = s.memorySize := by rw [ht]
  have hword : t.handlerWord n = addr := State.handlerWord_of_hostSetHandler hset (hframeAddr ▸ hdisjoint)
  have hcan : t.canDispatch n = true := by
    rw [State.canDispatch_iff, hframeAddr, hsize, hword]
    exact ⟨hframe, hvector, haddr⟩
  obtain ⟨u, hd, hpc⟩ := State.dispatch_of_canDispatch hcan
  exact ⟨t, u, hset, by rw [ht], hd, hpc.trans hword⟩

end Sys2Proof.Machine
end

section
/-! PROOFS. Decoding, said once for every row of the opcode map (R135): an opcode with a row is decoded from the fields its
form uses, or refused for a register field above 31 (R126); an opcode without a row is illegal (R137). -/

namespace Sys2Proof

open Sys2Proof.Machine (usesImm agreeWhereUsed)

/-! ### The fields a form uses -/

/-- The fields with 0 in every field the form does not use, as the encoder writes them (R124, R125). -/
def Fields.used (f : Fields) (form : Form) : Fields where
  opcode := f.opcode
  rs := if form.usesRs then f.rs else 0
  rt := if form.usesRt then f.rt else 0
  rd := if form.usesRd then f.rd else 0
  imm := if usesImm form then f.imm else 0

/-- Every register field the form uses names a register (R126). -/
def Fields.named (f : Fields) (form : Form) : Prop :=
  (form.usesRs = true → ∃ r, regField f.rs = some r) ∧ (form.usesRt = true → ∃ r, regField f.rt = some r) ∧
    (form.usesRd = true → ∃ r, regField f.rd = some r)

theorem namesRegister_iff {b : Byte} : namesRegister b = true ↔ ∃ r, regField b = some r := by
  rw [namesRegister_eq, Option.isSome_iff_exists]

/-- Well-formed fields are those of an assigned opcode whose used register fields name registers. -/
theorem wellFormed_iff_named {f : Fields} {form : Form} (h : formOf f.opcode = some form) :
    f.wellFormed = true ↔ f.named form := by
  simp only [wellFormed_iff h, namesRegister_iff, Fields.named]

theorem agreeWhereUsed_used (f : Fields) (form : Form) : agreeWhereUsed (f.used form) f form :=
  ⟨rfl, fun h => if_pos h, fun h => if_pos h, fun h => if_pos h, fun h _ => if_pos h, fun h => by subst h; rfl⟩

/-- Fields that agree wherever the form uses them are the same used fields, but for the shift amount of SHI. -/
theorem used_eq_of_agreeWhereUsed {f g : Fields} {form : Form} (h : agreeWhereUsed f g form) (hshi : form ≠ .shi) :
    f.used form = g.used form := by
  obtain ⟨hop, hrs, hrt, hrd, himm, -⟩ := h
  rw [Fields.used, Fields.used, hop, ite_congr rfl hrs fun _ => rfl, ite_congr rfl hrt fun _ => rfl,
    ite_congr rfl hrd fun _ => rfl, ite_congr rfl (fun hi => himm hi hshi) fun _ => rfl]

theorem named_used_iff (f : Fields) (form : Form) : (f.used form).named form ↔ f.named form := by
  unfold Fields.named Fields.used
  refine and_congr ?_ (and_congr ?_ ?_) <;> exact forall_congr' fun h => by rw [if_pos h]

/-! ### What each form's decoder answers -/

/-- What decoding fields `f` as the form `form` comes to: the instruction whose own fields are the used ones of `f`, or the
refusal of a used register field above 31. -/
inductive DecodesAs (form : Form) (f : Fields) : Except DecodeReject Instr → Prop where
  | ok (i : Instr) (hn : f.named form) (hi : i.fields = f.used form) : DecodesAs form f (.ok i)
  | refused (hn : ¬f.named form) : DecodesAs form f (.error .registerField)

theorem decodesAs_ok_iff {form : Form} {f : Fields} {i : Instr} :
    DecodesAs form f (.ok i) ↔ f.named form ∧ i.fields = f.used form :=
  ⟨fun | .ok _ hn hi => ⟨hn, hi⟩, fun ⟨hn, hi⟩ => .ok i hn hi⟩

theorem decodesAs_refused_iff {form : Form} {f : Fields} :
    DecodesAs form f (.error .registerField) ↔ ¬f.named form :=
  ⟨fun | .refused hn => hn, .refused⟩

theorem eq_regByte_of_regField {b : Byte} {r : Reg} (h : regField b = some r) : b = regByte r := regField_eq_some.1 h

/-! A form's decoder answers so exactly when the instructions it builds are encoded as R124 says. Either every field it looks
at names a register, and the answer is that instruction; or one names none, and the answer is the refusal. -/

theorem decodesAs_decodeR3_iff {op : Reg → Reg → Reg → Instr} {f : Fields} :
    DecodesAs .r3 f (decodeR3 op f) ↔ ∀ rd rs rt, regField f.rd = some rd → regField f.rs = some rs →
      regField f.rt = some rt → (op rd rs rt).fields = ⟨f.opcode, regByte rs, regByte rt, regByte rd, 0⟩ := by
  unfold decodeR3
  split <;> grind [decodesAs_ok_iff, decodesAs_refused_iff, Fields.named, Fields.used, Form.usesRs, Form.usesRt,
    Form.usesRd, usesImm, eq_regByte_of_regField]

theorem decodesAs_decodeI_iff {op : Reg → Reg → Word → Instr} {f : Fields} :
    DecodesAs .i f (decodeI op f) ↔ ∀ rt rs, regField f.rt = some rt → regField f.rs = some rs →
      (op rt rs f.imm).fields = ⟨f.opcode, regByte rs, regByte rt, 0, f.imm⟩ := by
  unfold decodeI
  split <;> grind [decodesAs_ok_iff, decodesAs_refused_iff, Fields.named, Fields.used, Form.usesRs, Form.usesRt,
    Form.usesRd, usesImm, eq_regByte_of_regField]

theorem decodesAs_decodeM_iff {op : Reg → Reg → Word → Instr} {f : Fields} :
    DecodesAs .m f (decodeM op f) ↔ ∀ rt rs, regField f.rt = some rt → regField f.rs = some rs →
      (op rt rs f.imm).fields = ⟨f.opcode, regByte rs, regByte rt, 0, f.imm⟩ := by
  unfold decodeM
  split <;> grind [decodesAs_ok_iff, decodesAs_refused_iff, Fields.named, Fields.used, Form.usesRs, Form.usesRt,
    Form.usesRd, usesImm, eq_regByte_of_regField]

theorem decodesAs_decodeLui_iff {op : Reg → Word → Instr} {f : Fields} :
    DecodesAs .lui f (decodeLui op f) ↔ ∀ rt, regField f.rt = some rt →
      (op rt f.imm).fields = ⟨f.opcode, 0, regByte rt, 0, f.imm⟩ := by
  unfold decodeLui
  split <;> grind [decodesAs_ok_iff, decodesAs_refused_iff, Fields.named, Fields.used, Form.usesRs, Form.usesRt,
    Form.usesRd, usesImm, eq_regByte_of_regField]

theorem decodesAs_decodeShi_iff {op : Reg → Reg → Word → Instr} {f : Fields} :
    DecodesAs .shi f (decodeShi op f) ↔ ∀ rd rt, regField f.rd = some rd → regField f.rt = some rt →
      (op rd rt f.imm).fields = ⟨f.opcode, 0, regByte rt, regByte rd, f.imm⟩ := by
  unfold decodeShi
  split <;> grind [decodesAs_ok_iff, decodesAs_refused_iff, Fields.named, Fields.used, Form.usesRs, Form.usesRt,
    Form.usesRd, usesImm, eq_regByte_of_regField]

theorem decodesAs_decodeShv_iff {op : Reg → Reg → Reg → Instr} {f : Fields} :
    DecodesAs .shv f (decodeShv op f) ↔ ∀ rd rt rs, regField f.rd = some rd → regField f.rt = some rt →
      regField f.rs = some rs → (op rd rt rs).fields = ⟨f.opcode, regByte rs, regByte rt, regByte rd, 0⟩ := by
  unfold decodeShv
  split <;> grind [decodesAs_ok_iff, decodesAs_refused_iff, Fields.named, Fields.used, Form.usesRs, Form.usesRt,
    Form.usesRd, usesImm, eq_regByte_of_regField]

theorem decodesAs_decodeB2_iff {op : Reg → Reg → Word → Instr} {f : Fields} :
    DecodesAs .b2 f (decodeB2 op f) ↔ ∀ rs rt, regField f.rs = some rs → regField f.rt = some rt →
      (op rs rt f.imm).fields = ⟨f.opcode, regByte rs, regByte rt, 0, f.imm⟩ := by
  unfold decodeB2
  split <;> grind [decodesAs_ok_iff, decodesAs_refused_iff, Fields.named, Fields.used, Form.usesRs, Form.usesRt,
    Form.usesRd, usesImm, eq_regByte_of_regField]

theorem decodesAs_decodeB1_iff {op : Reg → Word → Instr} {f : Fields} :
    DecodesAs .b1 f (decodeB1 op f) ↔ ∀ rs, regField f.rs = some rs →
      (op rs f.imm).fields = ⟨f.opcode, regByte rs, 0, 0, f.imm⟩ := by
  unfold decodeB1
  split <;> grind [decodesAs_ok_iff, decodesAs_refused_iff, Fields.named, Fields.used, Form.usesRs, Form.usesRt,
    Form.usesRd, usesImm, eq_regByte_of_regField]

theorem decodesAs_decodeJr_iff {op : Reg → Instr} {f : Fields} :
    DecodesAs .jr f (decodeJr op f) ↔ ∀ rs, regField f.rs = some rs →
      (op rs).fields = ⟨f.opcode, regByte rs, 0, 0, 0⟩ := by
  unfold decodeJr
  split <;> grind [decodesAs_ok_iff, decodesAs_refused_iff, Fields.named, Fields.used, Form.usesRs, Form.usesRt,
    Form.usesRd, usesImm, eq_regByte_of_regField]

theorem decodesAs_decodeJalr_iff {op : Reg → Reg → Instr} {f : Fields} :
    DecodesAs .jalr f (decodeJalr op f) ↔ ∀ rd rs, regField f.rd = some rd → regField f.rs = some rs →
      (op rd rs).fields = ⟨f.opcode, regByte rs, 0, regByte rd, 0⟩ := by
  unfold decodeJalr
  split <;> grind [decodesAs_ok_iff, decodesAs_refused_iff, Fields.named, Fields.used, Form.usesRs, Form.usesRt,
    Form.usesRd, usesImm, eq_regByte_of_regField]

theorem decodesAs_decodeRd_iff {op : Reg → Instr} {f : Fields} :
    DecodesAs .rd f (decodeRd op f) ↔ ∀ rd, regField f.rd = some rd →
      (op rd).fields = ⟨f.opcode, 0, 0, regByte rd, 0⟩ := by
  unfold decodeRd
  split <;> grind [decodesAs_ok_iff, decodesAs_refused_iff, Fields.named, Fields.used, Form.usesRs, Form.usesRt,
    Form.usesRd, usesImm, eq_regByte_of_regField]

theorem decodesAs_decodePtbr_iff {op : Reg → Reg → Instr} {f : Fields} :
    DecodesAs .ptbr f (decodePtbr op f) ↔ ∀ rd rt, regField f.rd = some rd → regField f.rt = some rt →
      (op rd rt).fields = ⟨f.opcode, 0, regByte rt, regByte rd, 0⟩ := by
  unfold decodePtbr
  split <;> grind [decodesAs_ok_iff, decodesAs_refused_iff, Fields.named, Fields.used, Form.usesRs, Form.usesRt,
    Form.usesRd, usesImm, eq_regByte_of_regField]

/-- Every row of the opcode map is decoded as its form says (R135). -/
theorem decodeFields_row_decodesAs :
    ∀ row ∈ opcodeForms, ∀ (rs rt rd : Byte) (imm : Word),
      DecodesAs row.2 ⟨BitVec.ofNat 8 row.1, rs, rt, rd, imm⟩
        (decodeFields ⟨BitVec.ofNat 8 row.1, rs, rt, rd, imm⟩) := by
  simp [opcodeForms, arithmeticForms, logicalForms, shiftForms, compareForms, multiplyForms, loadStoreForms, branchForms,
    jumpForms, systemForms, decodesAs_decodeR3_iff, decodesAs_decodeI_iff, decodesAs_decodeM_iff,
    decodesAs_decodeLui_iff, decodesAs_decodeShi_iff, decodesAs_decodeShv_iff, decodesAs_decodeB2_iff,
    decodesAs_decodeB1_iff, decodesAs_decodeJr_iff, decodesAs_decodeJalr_iff, decodesAs_decodeRd_iff,
    decodesAs_decodePtbr_iff, decodesAs_ok_iff, Instr.fields, Fields.named, Fields.used, Form.usesRs, Form.usesRt,
    Form.usesRd, usesImm]

/-- Fields of an assigned opcode are decoded as its form says (R124, R126, R136). -/
theorem decodeFields_decodesAs {f : Fields} {form : Form} (h : formOf f.opcode = some form) :
    DecodesAs form f (decodeFields f) := by
  obtain ⟨op, rs, rt, rd, imm⟩ := f
  have hrow := decodeFields_row_decodesAs _ (formOf_mem h) rs rt rd imm
  rwa [BitVec.ofNat_toNat, BitVec.setWidth_eq] at hrow

/-- An unassigned opcode is illegal (R137): its family, the high digit, has no row for its low digit. -/
theorem decodeFields_of_unassigned {f : Fields} (h : formOf f.opcode = none) :
    decodeFields f = .error .illegalOpcode := by
  rw [formOf, ← Nat.div_add_mod f.opcode.toNat 16] at h
  simp only [opcodeForms, List.lookup_append, Option.or_eq_none_iff, and_assoc] at h
  obtain ⟨harith, hlogic, hshift, hcompare, hmul, hmem, hbranch, hjump, hsystem⟩ := h
  unfold decodeFields
  generalize f.opcode.toNat / 16 = high at *
  generalize f.opcode.toNat % 16 = low at *
  split
  · unfold decodeArithmetic; split <;> simp [arithmeticForms] at harith ⊢
  · unfold decodeLogical; split <;> simp [logicalForms] at hlogic ⊢
  · unfold decodeShift; split <;> simp [shiftForms] at hshift ⊢
  · unfold decodeCompare; split <;> simp [compareForms] at hcompare ⊢
  · unfold decodeMultiply; split <;> simp [multiplyForms] at hmul ⊢
  · unfold decodeLoadStore; split <;> simp [loadStoreForms] at hmem ⊢
  · unfold decodeBranch; split <;> simp [branchForms] at hbranch ⊢
  · unfold decodeJump; split <;> simp [jumpForms] at hjump ⊢
  · unfold decodeSystem; split <;> simp [systemForms] at hsystem ⊢
  · rfl

/-- A decoded instruction's opcode is assigned, and it was read from the used fields of that form. -/
theorem exists_form_of_decodeFields {f : Fields} {i : Instr} (h : decodeFields f = .ok i) :
    ∃ form, formOf f.opcode = some form ∧ f.named form ∧ i.fields = f.used form := by
  cases hform : formOf f.opcode with
  | none => rw [decodeFields_of_unassigned hform] at h; cases h
  | some form => exact ⟨form, rfl, decodesAs_ok_iff.1 (h ▸ decodeFields_decodesAs hform)⟩

/-- Eight bytes are never too few (R120). -/
theorem decode_bytes_ne_truncated (f : Fields) : decode f.bytes ≠ .error .truncated := by
  rw [decode_bytes]
  intro h
  cases hform : formOf f.opcode with
  | none => rw [decodeFields_of_unassigned hform] at h; cases h
  | some form => cases h ▸ decodeFields_decodesAs hform

/-- Two instructions with the same fields are the same: both decode from them. -/
theorem Instr.fields_injective : Function.Injective Instr.fields := fun i j h =>
  Except.ok.inj ((Machine.decode_bytes_fields i).symm.trans (h ▸ Machine.decode_bytes_fields j))

/-- What the decoder answers depends on the used fields alone (R125). -/
theorem DecodesAs.congr {form : Form} {f g : Fields} {d e : Except DecodeReject Instr} (hd : DecodesAs form f d)
    (he : DecodesAs form g e) (h : f.used form = g.used form) : d = e := by
  have hnamed : f.named form ↔ g.named form := by rw [← named_used_iff f, h, named_used_iff]
  cases hd with
  | ok i hn hi =>
    cases he with
    | ok j _ hj => rw [Instr.fields_injective (hi.trans (h.trans hj.symm))]
    | refused hn' => exact absurd (hnamed.1 hn) hn'
  | refused hn =>
    cases he with
    | ok j hn' _ => exact absurd (hnamed.2 hn') hn
    | refused => rfl

end Sys2Proof
end

section
/-! PROOFS. The round trips of the encoding (R121, R122, R128), the decoder on every eight bytes (R126, R137), and that unused
fields never matter (R125). -/

namespace Sys2Proof.Machine

/-- Settles O1: the encoding of an instruction is the bytes of its fields. -/
theorem decodeEncodeRoundTrip : Obligations.DecodeEncodeRoundTrip := decode_bytes_fields

/-- Settles O6: the table's bytes of W are the bytes of the fields, which decode to the instruction. -/
theorem tableWordRoundTrip : Obligations.TableWordRoundTrip := by
  unfold Obligations.TableWordRoundTrip
  intro i
  rw [decodeTableWord, tableBytes_word, decode_bytes_fields]
  rfl

/-- Settles O5: each worked encoding is the encoding of its instruction. -/
theorem decodesWorkedEncodings : Obligations.DecodesWorkedEncodings :=
  ⟨decode_bytes_fields (.add 5 10 12), decode_bytes_fields (.addi 3 17 42), decode_bytes_fields (.lw 8 2 100),
    decode_bytes_fields (.beq 5 6 0x100), decode_bytes_fields (.jal 0x1000), decode_bytes_fields .nop⟩

/-- Settles O2: the fields of the instruction are the used ones of those it was decoded from. -/
theorem decodeReadsItsFields : Obligations.DecodeReadsItsFields := by
  unfold Obligations.DecodeReadsItsFields
  intro f i h
  rw [decode_bytes] at h
  obtain ⟨form, hform, -, hi⟩ := exists_form_of_decodeFields h
  rw [hi]
  exact ⟨form, hform, agreeWhereUsed_used f form, fun himm => if_pos himm⟩

/-- Settles O4: an opcode without a row is illegal, and a row's form accepts or refuses. -/
theorem decodeTotalOnFields : Obligations.DecodeTotalOnFields := by
  unfold Obligations.DecodeTotalOnFields
  intro f
  rw [decode_bytes]
  cases hform : formOf f.opcode with
  | none =>
    have hwf : f.wellFormed = false := by rw [Fields.wellFormed, hform]
    simp [decodeFields_of_unassigned hform, hwf]
  | some form =>
    have hwf := wellFormed_iff_named hform
    have hd := decodeFields_decodesAs hform
    generalize decodeFields f = d at hd ⊢
    cases hd with
    | ok i hn => simp [hwf.2 hn]
    | refused hn => simp [mt hwf.1 hn]

/-- Fields whose opcode has the form SHI are decoded as one of the three immediate shifts (R135). -/
theorem exists_shift_of_shi {o : Byte} (h : formOf o = some .shi) :
    ∃ op, (op = Instr.sll ∨ op = .srl ∨ op = .sra) ∧ ∀ f : Fields, f.opcode = o → decodeFields f = decodeShi op f := by
  have hrow : o.toNat = 0x20 ∨ o.toNat = 0x21 ∨ o.toNat = 0x22 := by
    simpa [opcodeForms, arithmeticForms, logicalForms, shiftForms, compareForms, multiplyForms, loadStoreForms,
      branchForms, jumpForms, systemForms] using formOf_mem h
  obtain hop | hop | hop := hrow
  · obtain rfl := BitVec.eq_of_toNat_eq (y := 0x20#8) hop
    exact ⟨.sll, .inl rfl, fun | ⟨_, rs, rt, rd, imm⟩, rfl => decodeFields_20 rs rt rd imm⟩
  · obtain rfl := BitVec.eq_of_toNat_eq (y := 0x21#8) hop
    exact ⟨.srl, .inr (.inl rfl), fun | ⟨_, rs, rt, rd, imm⟩, rfl => decodeFields_21 rs rt rd imm⟩
  · obtain rfl := BitVec.eq_of_toNat_eq (y := 0x22#8) hop
    exact ⟨.sra, .inr (.inr rfl), fun | ⟨_, rs, rt, rd, imm⟩, rfl => decodeFields_22 rs rt rd imm⟩

/-- The shift amount is the value of bits 4:0 (R190). -/
theorem shiftAmount_eq (v : Word) : shiftAmount v = (v.setWidth 5).toNat := by
  simpa [shiftAmount] using Nat.and_two_pow_sub_one_eq_mod v.toNat 5

/-- An immediate shift looks at bits 4:0 of its immediate alone (R125, R190). -/
theorem exec_shift_congr {op : Reg → Reg → Word → Instr} (hshift : op = .sll ∨ op = .srl ∨ op = .sra) {v w : Word}
    (h : v.setWidth 5 = w.setWidth 5) (rd rt : Reg) (s : State) : exec (op rd rt v) s = exec (op rd rt w) s := by
  have hamount : shiftAmount v = shiftAmount w := by rw [shiftAmount_eq, shiftAmount_eq, h]
  obtain rfl | rfl | rfl := hshift
  · simp only [exec, execSll, shiftImmediate, hamount]
  · simp only [exec, execSrl, shiftImmediate, hamount]
  · simp only [exec, execSra, shiftImmediate, hamount]

/-- Bytes that decode alike behave alike. -/
theorem execBytes_congr {bs cs : List Byte} (h : decode bs = decode cs) (s : State) :
    execBytes bs s = execBytes cs s := by
  unfold execBytes; rw [h]

/-- An immediate shift behaves alike whatever its rs field and bits 31:5 of its immediate hold (R125, R190). -/
theorem execBytes_shi_congr {f g : Fields} (hform : formOf f.opcode = some .shi) (h : agreeWhereUsed f g .shi)
    (s : State) : execBytes f.bytes s = execBytes g.bytes s := by
  obtain ⟨hop, -, hrt, hrd, -, himm⟩ := h
  obtain ⟨op, hshift, hdec⟩ := exists_shift_of_shi hform
  unfold execBytes
  rw [decode_bytes, decode_bytes, hdec f rfl, hdec g hop.symm, decodeShi, decodeShi, hrd rfl, hrt rfl]
  cases regField g.rd with
  | none => rfl
  | some rd =>
    cases regField g.rt with
    | none => rfl
    | some rt => exact congrArg endStepOf (exec_shift_congr hshift (himm rfl) rd rt _)

/-- Settles O3: the decoder's answer depends on the used fields alone; the shift itself masks SHI's immediate. -/
theorem unusedFieldsIgnored : Obligations.UnusedFieldsIgnored := by
  unfold Obligations.UnusedFieldsIgnored
  intro f g form s hform hagree
  by_cases hshi : form = .shi
  · subst hshi
    exact execBytes_shi_congr hform hagree s
  · have hformg : formOf g.opcode = some form := hagree.1 ▸ hform
    have hdec := (decodeFields_decodesAs hform).congr (decodeFields_decodesAs hformg)
      (used_eq_of_agreeWhereUsed hagree hshi)
    exact execBytes_congr (by rw [decode_bytes, decode_bytes, hdec]) s

end Sys2Proof.Machine
end

section
/-! PROOFS. The step of an unassigned opcode (R137), and what a step refuses (R67, R126, R244). -/

namespace Sys2Proof.Machine

/-- An unassigned opcode raises ILLEGAL_OP, the pc already advanced (R137). -/
theorem execBytes_of_unassigned {f : Fields} (h : formOf f.opcode = none) (s : State) :
    execBytes f.bytes s = .next ((s.setPc (s.pc + 8#32)).raiseFault intIllegalOp).endStep := by
  unfold execBytes
  rw [decode_bytes, decodeFields_of_unassigned h]

/-- Settles O43: the step raises ILLEGAL_OP as R310 says and ends. -/
theorem unassignedOpcodeRaises : Obligations.UnassignedOpcodeRaises := by
  unfold Obligations.UnassignedOpcodeRaises
  intro s s1 f hfetch hform
  exact ⟨_, (step_of_fetches hfetch).trans (execBytes_of_unassigned hform s1),
    onlyRaises_endStep (onlyRaises_raiseFault _ intIllegalOp)⟩

/-- A refused step has fetched the bytes it refuses (R40). -/
theorem exists_fetches_of_step_eq_refused {s : State} {r : Refusal} (h : step s = .refused r) :
    ∃ s1, ∃ f : Fields, fetches s s1 f.bytes ∧ execBytes f.bytes s1 = .refused r := by
  change vmStep s = .refused r at h
  unfold vmStep at h
  split at h
  · cases h
  · next s1 hcheck =>
    unfold fetchAndExecute at h
    split at h
    · cases h
    · next ppc haddr =>
      have hfetch : fetches s s1 (s1.fetchBytes ppc) := fetches_iff.2 ⟨hcheck, ppc, haddr, rfl⟩
      obtain ⟨f, hbytes⟩ := exists_fields (length_of_fetches hfetch)
      rw [hbytes] at hfetch h
      exact ⟨s1, f, hfetch, h⟩

/-- The end of a step refuses nothing of its own. -/
theorem endStepOf_eq_refused {u : Result} {r : Refusal} (h : endStepOf u = .refused r) : u = .refused r := by
  cases u with
  | next => cases h
  | fault f => exact nomatch f
  | refused => exact h

/-- Eight bytes are refused for a register field, or because their instruction is (R126). -/
theorem execBytes_eq_refused {f : Fields} {s : State} {r : Refusal} (h : execBytes f.bytes s = .refused r) :
    (decode f.bytes = .error .registerField ∧ r = .registerField) ∨
      ∃ i, exec i (s.setPc (s.pc + 8#32)) = .refused r := by
  unfold execBytes at h
  split at h
  · next i hdec => exact .inr ⟨i, endStepOf_eq_refused h⟩
  · cases h
  · next hdec => cases h; exact .inl ⟨hdec, rfl⟩
  · next hdec => exact absurd hdec (decode_bytes_ne_truncated f)

/-- The refusals an instruction can answer with, each under its parameter (R67, D1; R244, D16). -/
def RefusedByParameter (cfg : Config) (r : Refusal) : Prop :=
  (r = .misalignedData ∧ cfg.misalignedData = .refuse) ∨ (r = .jalrSameRegister ∧ cfg.jalrSameReg = .refuse)

theorem refusedByParameter_of_load {sz : Size} {ext : Word → Word} {rt rs : Reg} {imm : Word} {s : State} {r : Refusal}
    (h : load sz ext rt rs imm s = .refused r) : RefusedByParameter s.cfg r := by
  obtain ⟨hr, hmis⟩ := load_eq_refused.1 h
  exact .inl ⟨hr, (State.refusesMisaligned_eq_true.1 hmis).1⟩

theorem refusedByParameter_of_store {sz : Size} {rt rs : Reg} {imm : Word} {s : State} {r : Refusal}
    (h : store sz rt rs imm s = .refused r) : RefusedByParameter s.cfg r := by
  obtain ⟨hr, hmis⟩ := store_eq_refused.1 h
  exact .inl ⟨hr, (State.refusesMisaligned_eq_true.1 hmis).1⟩

theorem refusedByParameter_of_execJalr {rd rs : Reg} {s : State} {r : Refusal} (h : execJalr rd rs s = .refused r) :
    RefusedByParameter s.cfg r := by
  unfold execJalr at h
  split at h
  · split at h
    · cases h
    · next hcfg => cases h; exact .inr ⟨rfl, hcfg⟩
  · cases h

/-- A privileged instruction is refused by its effect alone (R260). -/
theorem privileged_eq_refused {effect : State → Result} {s : State} {r : Refusal}
    (h : privileged effect s = .refused r) : effect s = .refused r := by
  unfold privileged at h
  split at h
  · exact h
  · cases h

theorem execIret_ne_refused (s : State) (r : Refusal) : execIret s ≠ .refused r := by
  intro h
  have heffect := privileged_eq_refused h
  split at heffect <;> cases heffect

/-- An instruction is refused under a refuse parameter only: loads and stores, and JALR. -/
theorem refusedByParameter_of_exec {i : Instr} {s : State} {r : Refusal} (h : exec i s = .refused r) :
    RefusedByParameter s.cfg r := by
  cases i with
  | lw | lh | lhu | lb | lbu => exact refusedByParameter_of_load h
  | sw | sh | sb => exact refusedByParameter_of_store h
  | jalr => exact refusedByParameter_of_execJalr h
  | ei | di => cases privileged_eq_refused (effect := fun s => .next { s with intEnabled := _ }) h
  | enablePaging | disablePaging =>
    cases privileged_eq_refused (effect := fun s => .next { s with pagingEnabled := _ }) h
  | setPtbr => cases privileged_eq_refused (effect := fun s => .next { s with pageTableBase := _, numPages := _ }) h
  | enterUser => cases privileged_eq_refused (effect := fun s => .next { s with kernelMode := _ }) h
  | iret => exact absurd h (execIret_ne_refused s r)
  | nop | add | addu | sub | subu | and | or | xor | nor => cases h
  | slt | sltu | mul | mulh | mulhu | div | divu | rem | remu => cases h
  | addi | addiu | andi | ori | xori | slti | sltiu | lui | sll | srl | sra | sllv | srlv | srav => cases h
  | beq | bne | blez | bgtz | bltz | bgez | j | jal | jr | syscall | brk | raise | getpc | getmode => cases h

/-- Settles O44: a refusal comes from the decoder or from the instruction, and the step has no other. -/
theorem stepRefusesOnlyByName : Obligations.StepRefusesOnlyByName := by
  unfold Obligations.StepRefusesOnlyByName
  intro s
  refine ⟨fun s1 f hfetch hdec => ?_, fun f => (nomatch f), fun r h => ?_⟩
  · rw [step_of_fetches hfetch, execBytes, hdec]
  · obtain ⟨s1, f, hfetch, hexec⟩ := exists_fetches_of_step_eq_refused h
    obtain ⟨hdec, hr⟩ | ⟨i, hi⟩ := execBytes_eq_refused hexec
    · exact .inl ⟨hr, s1, f, hfetch, hdec⟩
    · have hcfg : s1.cfg = s.cfg := (sameMachine_of_interruptCheck hfetch.1).2
      have hr := refusedByParameter_of_exec hi
      rw [State.cfg_setPc, hcfg] at hr
      exact .inr hr

end Sys2Proof.Machine
end

section
/-! PROOFS. Arithmetic (R160-R174): the operations on words as the library's, which carry the facts about products and about
truncating division; the instructions are those operations on register values. -/

namespace Sys2Proof.Machine

/-! ### How a form is encoded, from its row of the decoder (R124, R135) -/

theorem encodedR3_of_row {op : Byte} {i : Reg → Reg → Reg → Instr}
    (h : ∀ rs rt rd imm, decodeFields ⟨op, rs, rt, rd, imm⟩ = decodeR3 i ⟨op, rs, rt, rd, imm⟩) : encodedR3 op i := by
  intro rd rs rt imm
  simp only [decode_bytes, h, decodeR3, regField_regByte]

theorem encodedI_of_row {op : Byte} {i : Reg → Reg → Word → Instr}
    (h : ∀ rs rt rd imm, decodeFields ⟨op, rs, rt, rd, imm⟩ = decodeI i ⟨op, rs, rt, rd, imm⟩) : encodedI op i := by
  intro rt rs rd imm
  simp only [decode_bytes, h, decodeI, regField_regByte]

/-! ### What the forms R3 and I write, with the value in any spelling -/

theorem writesOnly_of_binaryOp {i : Instr} {f : Word → Word → Word} {rd rs rt : Reg} {s : State} {v : Word}
    (hi : exec i s = binaryOp f rd rs rt s) (hv : f (s.readReg rs) (s.readReg rt) = v) : writesOnly i s rd v :=
  hv ▸ writesOnly_of_setReg hi

theorem writesOnly_of_immediateOp {i : Instr} {f : Word → Word → Word} {rt rs : Reg} {imm : Word} {s : State} {v : Word}
    (hi : exec i s = immediateOp f rt rs imm s) (hv : f (s.readReg rs) imm = v) : writesOnly i s rt v :=
  hv ▸ writesOnly_of_setReg hi

/-! ### Sums and products of words -/

theorem sub_eq_ofInt (a b : Word) : a - b = BitVec.ofInt 32 ((a.toNat : Int) - b.toNat) := by
  rw [Int.sub_eq_add_neg, BitVec.ofInt_add, BitVec.ofInt_neg, BitVec.ofInt_natCast, BitVec.ofInt_natCast,
    BitVec.ofNat_toNat, BitVec.ofNat_toNat, BitVec.setWidth_eq, BitVec.setWidth_eq, BitVec.sub_eq_add_neg]

theorem mulLow_eq_mul (a b : Word) : mulLow a b = a * b := rfl

/-- The low word of the product does not depend on the operands' signs (R167). -/
theorem mulLow_eq_ofInt (a b : Word) : mulLow a b = BitVec.ofInt 32 (a.toInt * b.toInt) := by
  rw [BitVec.ofInt_mul, BitVec.ofInt_toInt, BitVec.ofInt_toInt, mulLow_eq_mul]

theorem extractLsb'_low_ofNat (p : Nat) : (BitVec.ofNat 64 p).extractLsb' 0 32 = BitVec.ofNat 32 p := by
  apply BitVec.eq_of_toNat_eq
  simp

/-- Bits 63:32 of an integer are those of its quotient by 2^32, rounded down. -/
theorem extractLsb'_high_ofInt (p : Int) : (BitVec.ofInt 64 p).extractLsb' 32 32 = BitVec.ofInt 32 (p / 2 ^ 32) := by
  apply BitVec.eq_of_toNat_eq
  simp only [BitVec.extractLsb'_toNat, BitVec.toNat_ofInt, Nat.shiftRight_eq_div_pow]
  omega

theorem mulHighSigned_eq_ofInt (a b : Word) : mulHighSigned a b = BitVec.ofInt 32 (a.toInt * b.toInt / 2 ^ 32) :=
  extractLsb'_high_ofInt _

theorem mulHighUnsigned_eq_ofNat (a b : Word) :
    mulHighUnsigned a b = BitVec.ofNat 32 (a.toNat * b.toNat / 2 ^ 32) := by
  rw [mulHighUnsigned, ← BitVec.ofInt_natCast, extractLsb'_high_ofInt, ← BitVec.ofInt_natCast]
  rfl

/-! ### Division -/

theorem divUnsigned_zero (a : Word) : divUnsigned a 0 = 0 := if_pos rfl

/-- R171's division is the library's, which is 0 for a zero divisor too. -/
theorem divUnsigned_eq_udiv (a b : Word) : divUnsigned a b = a / b := by
  by_cases hb : b = 0
  · rw [hb, divUnsigned_zero, BitVec.ofNat_eq_ofNat, BitVec.udiv_zero]
  · rw [divUnsigned, if_neg hb, BitVec.udiv_def]

theorem remUnsigned_zero (a : Word) : remUnsigned a 0 = 0 := if_pos rfl

theorem remUnsigned_eq_umod {a b : Word} (hb : b ≠ 0) : remUnsigned a b = a % b := by
  rw [remUnsigned, if_neg hb, BitVec.umod_def]

/-- The library's quotient is that of the integers, truncated toward zero, modulo 2^32. -/
theorem sdiv_eq_ofInt_tdiv (a b : Word) : a.sdiv b = BitVec.ofInt 32 (a.toInt.tdiv b.toInt) := by
  rw [← BitVec.toInt_inj, BitVec.toInt_sdiv, BitVec.toInt_ofInt]

theorem divSigned_zero (a : Word) : divSigned a 0 = 0 := if_pos rfl

/-- The overflow pair (R170). -/
theorem divSigned_overflow : divSigned 0x80000000 0xFFFFFFFF = 0x80000000 := by decide

/-- R170's division is the library's, in both corners too (D32). -/
theorem divSigned_eq_sdiv (a b : Word) : divSigned a b = a.sdiv b := by
  by_cases hb : b = 0
  · rw [hb, divSigned_zero, BitVec.ofNat_eq_ofNat, BitVec.sdiv_zero]
  by_cases hab : a = 0x80000000 ∧ b = 0xFFFFFFFF
  · obtain ⟨rfl, rfl⟩ := hab
    decide
  · rw [divSigned, if_neg hb, if_neg hab, sdiv_eq_ofInt_tdiv]

theorem remSigned_zero (a : Word) : remSigned a 0 = 0 := if_pos rfl

/-- The overflow pair (D15). -/
theorem remSigned_overflow : remSigned 0x80000000 0xFFFFFFFF = 0 := by decide

/-- For a divisor other than zero R172's remainder is the library's, the overflow pair included (D15). -/
theorem remSigned_eq_srem {a b : Word} (hb : b ≠ 0) : remSigned a b = a.srem b := by
  by_cases hab : a = 0x80000000 ∧ b = 0xFFFFFFFF
  · obtain ⟨rfl, rfl⟩ := hab
    decide
  · rw [remSigned, if_neg hb, if_neg hab, Int.mul_comm, ← Int.tmod_def, ← BitVec.toInt_srem, BitVec.ofInt_toInt]

/-- The division identity of words is that of the integers modulo 2^32. -/
theorem sdiv_mul_add_srem (a b : Word) : a.sdiv b * b + a.srem b = a :=
  calc a.sdiv b * b + a.srem b
    _ = BitVec.ofInt 32 (a.toInt.tdiv b.toInt) * BitVec.ofInt 32 b.toInt + BitVec.ofInt 32 (a.toInt.tmod b.toInt) := by
        rw [sdiv_eq_ofInt_tdiv, BitVec.ofInt_toInt, ← BitVec.toInt_srem, BitVec.ofInt_toInt]
    _ = BitVec.ofInt 32 (a.toInt.tdiv b.toInt * b.toInt + a.toInt.tmod b.toInt) := by
        rw [BitVec.ofInt_add, BitVec.ofInt_mul]
    _ = a := by rw [Int.tdiv_mul_add_tmod, BitVec.ofInt_toInt]

theorem natAbs_toInt_srem_lt (a : Word) {b : Word} (hb : b ≠ 0) : (a.srem b).toInt.natAbs < b.toInt.natAbs := by
  have hpos : 0 < b.toInt.natAbs := Int.natAbs_pos.2 fun h => hb (BitVec.toInt_inj.1 h)
  rw [BitVec.toInt_srem, Int.natAbs_tmod]
  exact Nat.mod_lt _ hpos

theorem srem_eq_zero_or_toInt_neg_iff (a b : Word) : a.srem b = 0 ∨ ((a.srem b).toInt < 0 ↔ a.toInt < 0) := by
  by_cases hdvd : b.toInt ∣ a.toInt
  · exact .inl (BitVec.srem_zero_of_dvd hdvd)
  · right
    rw [← Int.sign_eq_neg_one_iff_neg, ← Int.sign_eq_neg_one_iff_neg, BitVec.toInt_srem, Int.sign_tmod, if_neg hdvd]

/-! ### The instructions -/

/-- Settles O7: the operations are the word operations, whose sums and differences are modulo 2^32. -/
theorem addSubResults : Obligations.AddSubResults := by
  unfold Obligations.AddSubResults
  refine ⟨⟨encodedR3_of_row decodeFields_01, encodedR3_of_row decodeFields_02, encodedR3_of_row decodeFields_03,
    encodedR3_of_row decodeFields_04, encodedI_of_row decodeFields_05, encodedI_of_row decodeFields_06⟩,
    fun rd rs rt imm s => ⟨?add, ?addu, ?addi, ?addiu, ?sub, ?subu⟩⟩
  case add | addu => exact writesOnly_of_binaryOp rfl (BitVec.add_def _ _)
  case addi | addiu => exact writesOnly_of_immediateOp rfl (BitVec.add_def _ _)
  case sub | subu => exact writesOnly_of_binaryOp rfl (sub_eq_ofInt _ _)

/-- Settles O8: a high word is the product's quotient by 2^32, rounded down. -/
theorem multiplyResults : Obligations.MultiplyResults := by
  unfold Obligations.MultiplyResults
  refine ⟨⟨encodedR3_of_row decodeFields_40, encodedR3_of_row decodeFields_41, encodedR3_of_row decodeFields_42⟩,
    fun rd rs rt s => ⟨?mul, ?mulOfSigned, ?mulh, ?mulhu⟩⟩
  case mul => exact writesOnly_of_binaryOp rfl (extractLsb'_low_ofNat _).symm
  case mulOfSigned => exact writesOnly_of_binaryOp rfl (mulLow_eq_ofInt _ _)
  case mulh => exact writesOnly_of_binaryOp rfl (mulHighSigned_eq_ofInt _ _)
  case mulhu => exact writesOnly_of_binaryOp rfl (mulHighUnsigned_eq_ofNat _ _)

/-- Settles O9: outside the overflow pair the library's quotient is exact, and its remainder always is. -/
theorem signedDivisionResults : Obligations.SignedDivisionResults := by
  unfold Obligations.SignedDivisionResults
  refine ⟨⟨encodedR3_of_row decodeFields_43, encodedR3_of_row decodeFields_45⟩, fun rd rs rt s =>
    ⟨_, _, writesOnly_of_binaryOp rfl rfl, writesOnly_of_binaryOp rfl rfl, ?zero, ?overflow, ?exact⟩⟩
  case zero =>
    intro hb
    rw [hb]
    exact ⟨divSigned_zero _, remSigned_zero _⟩
  case overflow =>
    intro ha hb
    rw [ha, hb]
    exact ⟨divSigned_overflow, remSigned_overflow⟩
  case exact =>
    intro hb hab
    rw [divSigned_eq_sdiv, remSigned_eq_srem hb, BitVec.toInt_srem, Int.tmod_def, Int.mul_comm]
    exact ⟨BitVec.toInt_sdiv_of_ne_or_ne _ _ (not_and_or.1 hab), rfl⟩

/-- Settles O10: R1 reads the words written, whose identity, bound and sign are the library's. -/
theorem divisionIdentity : Obligations.DivisionIdentity := by
  unfold Obligations.DivisionIdentity
  intro rs rt s hb
  refine ⟨_, _, (s.readReg rs).sdiv (s.readReg rt), (s.readReg rs).srem (s.readReg rt), rfl, rfl, ?_, ?_,
    (sdiv_mul_add_srem _ _).symm, natAbs_toInt_srem_lt _ hb, srem_eq_zero_or_toInt_neg_iff _ _⟩
  · rw [readReg_setReg_self, divSigned_eq_sdiv]; rfl
  · rw [readReg_setReg_self, remSigned_eq_srem hb]; rfl

/-- Settles O11: the words written are the library's quotient and remainder. -/
theorem unsignedDivisionResults : Obligations.UnsignedDivisionResults := by
  unfold Obligations.UnsignedDivisionResults
  refine ⟨⟨encodedR3_of_row decodeFields_44, encodedR3_of_row decodeFields_46⟩, fun rd rs rt s =>
    ⟨_, _, writesOnly_of_binaryOp rfl rfl, writesOnly_of_binaryOp rfl rfl, ?zero, ?nonzero⟩⟩
  case zero =>
    intro hb
    rw [hb]
    exact ⟨divUnsigned_zero _, remUnsigned_zero _⟩
  case nonzero =>
    intro hb
    rw [divUnsigned_eq_udiv, remUnsigned_eq_umod hb]
    exact ⟨BitVec.toNat_udiv, BitVec.toNat_umod⟩

end Sys2Proof.Machine
end

section
/-! PROOFS. Logic (R180-R188): the words written are the library's bitwise operations, known by their bits, and LUI's word is the
library's shift, which is a product and a concatenation. -/

namespace Sys2Proof.Machine

/-! ### R3 and I: bit by bit -/

/-- The complement reaches all 32 bits of the word (R184). -/
theorem getLsbD_norWord (a b : Word) {k : Nat} (hk : k < 32) :
    (norWord a b).getLsbD k = !(a.getLsbD k || b.getLsbD k) := by
  rw [norWord, BitVec.getLsbD_not, BitVec.getLsbD_or, decide_eq_true hk, Bool.true_and]

/-- Settles O12: a bit of each word written is the operation on that bit of the operands. -/
theorem logicalResults : Obligations.LogicalResults := by
  unfold Obligations.LogicalResults
  refine ⟨⟨encodedR3_of_row decodeFields_10, encodedR3_of_row decodeFields_11, encodedR3_of_row decodeFields_12,
    encodedR3_of_row decodeFields_13, encodedI_of_row decodeFields_14, encodedI_of_row decodeFields_15,
    encodedI_of_row decodeFields_16⟩, fun rd rs rt imm s =>
    ⟨s.readReg rs &&& s.readReg rt, s.readReg rs ||| s.readReg rt, s.readReg rs ^^^ s.readReg rt,
      norWord (s.readReg rs) (s.readReg rt), s.readReg rs &&& imm, s.readReg rs ||| imm, s.readReg rs ^^^ imm,
      writesOnly_of_binaryOp rfl rfl, writesOnly_of_binaryOp rfl rfl, writesOnly_of_binaryOp rfl rfl,
      writesOnly_of_binaryOp rfl rfl, writesOnly_of_immediateOp rfl rfl, writesOnly_of_immediateOp rfl rfl,
      writesOnly_of_immediateOp rfl rfl, fun k hk => ⟨?and, ?or, ?xor, ?nor, ?andi, ?ori, ?xori⟩⟩⟩
  case and | andi => exact BitVec.getLsbD_and
  case or | ori => exact BitVec.getLsbD_or
  case xor | xori => exact BitVec.getLsbD_xor
  case nor => exact getLsbD_norWord _ _ hk

/-! ### LUI -/

theorem encodedLui_of_row {op : Byte} {i : Reg → Word → Instr}
    (h : ∀ rs rt rd imm, decodeFields ⟨op, rs, rt, rd, imm⟩ = decodeLui i ⟨op, rs, rt, rd, imm⟩) : encodedLui op i := by
  intro rt rs rd imm
  simp only [decode_bytes, h, decodeLui, regField_regByte]

/-- The bits shifted out at the top are those the product loses modulo 2^32. -/
theorem shiftLeft_eq_ofNat_mul (v : Word) (n : Nat) : v <<< n = BitVec.ofNat 32 (v.toNat * 2 ^ n) := by
  apply BitVec.eq_of_toNat_eq
  rw [BitVec.toNat_shiftLeft, Nat.shiftLeft_eq, BitVec.toNat_ofNat]

theorem shiftLeft_sixteen_eq_append (v : Word) : v <<< 16 = v.extractLsb' 0 16 ++ 0#16 :=
  BitVec.shiftLeft_eq_concat_of_lt (by decide)

theorem writesOnly_lui (rt : Reg) (imm : Word) (s : State) : writesOnly (.lui rt imm) s rt (imm <<< 16) :=
  writesOnly_of_setReg rfl

/-- Settles O13: the immediate shifted up by 16, in both of R188's spellings. -/
theorem luiResult : Obligations.LuiResult := by
  unfold Obligations.LuiResult
  refine ⟨encodedLui_of_row decodeFields_17, fun rt imm s => ⟨?product, ?concatenation⟩⟩
  case product => exact shiftLeft_eq_ofNat_mul imm 16 ▸ writesOnly_lui rt imm s
  case concatenation => exact shiftLeft_sixteen_eq_append imm ▸ writesOnly_lui rt imm s

end Sys2Proof.Machine
end

section
/-! PROOFS. Shifts (R190-R196): the amount is a remainder modulo 32, and the library's shifts are the product and the two
quotients by a power of two, at every amount. -/

namespace Sys2Proof.Machine

/-! ### How the forms SHI and SHV are encoded, from their rows of the decoder (R124, R135) -/

theorem encodedShi_of_row {op : Byte} {i : Reg → Reg → Word → Instr}
    (h : ∀ rs rt rd imm, decodeFields ⟨op, rs, rt, rd, imm⟩ = decodeShi i ⟨op, rs, rt, rd, imm⟩) : encodedShi op i := by
  intro rd rt rs imm
  simp only [decode_bytes, h, decodeShi, regField_regByte]

theorem encodedShv_of_row {op : Byte} {i : Reg → Reg → Reg → Instr}
    (h : ∀ rs rt rd imm, decodeFields ⟨op, rs, rt, rd, imm⟩ = decodeShv i ⟨op, rs, rt, rd, imm⟩) : encodedShv op i := by
  intro rd rt rs imm
  simp only [decode_bytes, h, decodeShv, regField_regByte]

/-! ### What the forms SHI and SHV write, with the value in any spelling -/

theorem shiftAmount_eq_mod (v : Word) : shiftAmount v = v.toNat % 32 := by
  rw [shiftAmount_eq, BitVec.toNat_setWidth]

theorem writesOnly_of_shiftImmediate {i : Instr} {f : Word → Nat → Word} {rd rt : Reg} {imm : Word} {s : State} {v : Word}
    (hi : exec i s = shiftImmediate f rd rt imm s) (hv : f (s.readReg rt) (imm.toNat % 32) = v) : writesOnly i s rd v := by
  rw [← hv, ← shiftAmount_eq_mod]
  exact writesOnly_of_setReg hi

theorem writesOnly_of_shiftVariable {i : Instr} {f : Word → Nat → Word} {rd rt rs : Reg} {s : State} {v : Word}
    (hi : exec i s = shiftVariable f rd rt rs s) (hv : f (s.readReg rt) ((s.readReg rs).toNat % 32) = v) :
    writesOnly i s rd v := by
  rw [← hv, ← shiftAmount_eq_mod]
  exact writesOnly_of_setReg hi

/-! ### The right shifts as quotients, rounded down -/

theorem shiftRightLogical_eq_ofNat_div (v : Word) (n : Nat) :
    shiftRightLogical v n = BitVec.ofNat 32 (v.toNat / 2 ^ n) := by
  rw [shiftRightLogical, ← Nat.shiftRight_eq_div_pow, ← BitVec.toNat_ushiftRight, BitVec.ofNat_toNat, BitVec.setWidth_eq]

/-- The copies of bit 31 that enter make the quotient that of the signed value (R193). -/
theorem shiftRightArith_eq_ofInt_div (v : Word) (n : Nat) :
    shiftRightArith v n = BitVec.ofInt 32 (v.toInt / 2 ^ n) := by
  rw [shiftRightArith, BitVec.sshiftRight, Int.shiftRight_eq_div_pow, Int.natCast_pow, Nat.cast_ofNat]

/-- Settles O14: an amount in the immediate or in a register is taken modulo 32, and each shift by it is the product or the
quotient by that power of two. -/
theorem shiftResults : Obligations.ShiftResults := by
  unfold Obligations.ShiftResults
  refine ⟨⟨encodedShi_of_row decodeFields_20, encodedShi_of_row decodeFields_21, encodedShi_of_row decodeFields_22,
    encodedShv_of_row decodeFields_23, encodedShv_of_row decodeFields_24, encodedShv_of_row decodeFields_25⟩,
    fun rd rt rs imm s => ⟨?sll, ?srl, ?sra, ?sllv, ?srlv, ?srav⟩⟩
  case sll => exact writesOnly_of_shiftImmediate rfl (shiftLeft_eq_ofNat_mul _ _)
  case srl => exact writesOnly_of_shiftImmediate rfl (shiftRightLogical_eq_ofNat_div _ _)
  case sra => exact writesOnly_of_shiftImmediate rfl (shiftRightArith_eq_ofInt_div _ _)
  case sllv => exact writesOnly_of_shiftVariable rfl (shiftLeft_eq_ofNat_mul _ _)
  case srlv => exact writesOnly_of_shiftVariable rfl (shiftRightLogical_eq_ofNat_div _ _)
  case srav => exact writesOnly_of_shiftVariable rfl (shiftRightArith_eq_ofInt_div _ _)

end Sys2Proof.Machine
end

section
/-! PROOFS. Comparisons (R200-R204): the word written is 1 or 0 as the two integers, signed or unsigned, compare. -/

namespace Sys2Proof.Machine

/-! ### A comparison's word, by the order of the integers -/

/-- R200's word for a condition of the machine is the same choice made on the proposition it decides. -/
theorem boolWord_decide (p : Prop) [Decidable p] : boolWord (decide p) = if p then 1 else 0 :=
  if_congr decide_eq_true_iff rfl rfl

theorem boolWord_signedLess (a b : Word) : boolWord (signedLess a b) = if a.toInt < b.toInt then 1 else 0 :=
  boolWord_decide _

theorem boolWord_unsignedLess (a b : Word) : boolWord (unsignedLess a b) = if a.toNat < b.toNat then 1 else 0 :=
  boolWord_decide _

/-! ### What each instruction executes: form R3 or I with its comparison -/

theorem exec_slt_eq_binaryOp (rd rs rt : Reg) (s : State) :
    exec (.slt rd rs rt) s = binaryOp (fun a b => boolWord (signedLess a b)) rd rs rt s := rfl

theorem exec_sltu_eq_binaryOp (rd rs rt : Reg) (s : State) :
    exec (.sltu rd rs rt) s = binaryOp (fun a b => boolWord (unsignedLess a b)) rd rs rt s := rfl

theorem exec_slti_eq_immediateOp (rt rs : Reg) (imm : Word) (s : State) :
    exec (.slti rt rs imm) s = immediateOp (fun a b => boolWord (signedLess a b)) rt rs imm s := rfl

theorem exec_sltiu_eq_immediateOp (rt rs : Reg) (imm : Word) (s : State) :
    exec (.sltiu rt rs imm) s = immediateOp (fun a b => boolWord (unsignedLess a b)) rt rs imm s := rfl

/-- Settles O15: the forms R3 and I write the word of one comparison, with a register or the whole immediate on its right. -/
theorem comparisonResults : Obligations.ComparisonResults := by
  unfold Obligations.ComparisonResults
  refine ⟨⟨encodedR3_of_row decodeFields_30, encodedR3_of_row decodeFields_31, encodedI_of_row decodeFields_32,
    encodedI_of_row decodeFields_33⟩, fun rd rs rt imm s => ⟨?slt, ?sltu, ?slti, ?sltiu⟩⟩
  case slt => exact writesOnly_of_binaryOp (exec_slt_eq_binaryOp rd rs rt s) (boolWord_signedLess _ _)
  case sltu => exact writesOnly_of_binaryOp (exec_sltu_eq_binaryOp rd rs rt s) (boolWord_unsignedLess _ _)
  case slti => exact writesOnly_of_immediateOp (exec_slti_eq_immediateOp rt rs imm s) (boolWord_signedLess _ _)
  case sltiu => exact writesOnly_of_immediateOp (exec_sltiu_eq_immediateOp rt rs imm s) (boolWord_unsignedLess _ _)

end Sys2Proof.Machine
end

section
/-! PROOFS. Loads and stores whose checks pass (R210-R218): the register or the bytes they write, and nothing else. -/

namespace Sys2Proof.Machine

/-! ### How form M is encoded, from its row of the decoder (R124, R135) -/

/-- Form M holds its operands in the fields of form I (R124). -/
theorem decodeM_eq_decodeI (op : Reg → Reg → Word → Instr) (f : Fields) : decodeM op f = decodeI op f := rfl

theorem encodedI_of_rowM {op : Byte} {i : Reg → Reg → Word → Instr}
    (h : ∀ rs rt rd imm, decodeFields ⟨op, rs, rt, rd, imm⟩ = decodeM i ⟨op, rs, rt, rd, imm⟩) : encodedI op i :=
  encodedI_of_row fun rs rt rd imm => (h rs rt rd imm).trans (decodeM_eq_decodeI i _)

/-! ### The value a load writes, from the bytes it reads -/

/-- A zero-extended halfword in numbers (R60, R213). -/
theorem setWidth_append_eq_ofNat (b1 b0 : Byte) :
    (b1 ++ b0).setWidth 32 = BitVec.ofNat 32 (b0.toNat + 256 * b1.toNat) := by
  have hnum : (b1 ++ b0).toNat = b0.toNat + 256 * b1.toNat := by
    rw [BitVec.toNat_append, ← Nat.shiftLeft_add_eq_or_of_lt b0.isLt, Nat.shiftLeft_eq]
    omega
  rw [← hnum, BitVec.ofNat_toNat]

/-- Copying the sign bit keeps the signed value (R212, R214). -/
theorem signExtend_eq_ofInt_toInt {n : Nat} (v : BitVec n) : v.signExtend 32 = BitVec.ofInt 32 v.toInt := rfl

theorem signExtendHalf_readLE (m : Memory) (a : Nat) :
    signExtendHalf (m.readLE a 2) = BitVec.ofInt 32 (m.read (a + 1) ++ m.read a).toInt := by
  rw [Memory.readLE_two, signExtendHalf_setWidth, signExtend_eq_ofInt_toInt]

theorem readLE_half_eq_ofNat (m : Memory) (a : Nat) :
    m.readLE a 2 = BitVec.ofNat 32 ((m.read a).toNat + 256 * (m.read (a + 1)).toNat) := by
  rw [Memory.readLE_two, setWidth_append_eq_ofNat]

theorem signExtendByte_readLE (m : Memory) (a : Nat) :
    signExtendByte (m.readLE a 1) = BitVec.ofInt 32 (m.read a).toInt := by
  rw [Memory.readLE_one, signExtendByte_setWidth, signExtend_eq_ofInt_toInt]

theorem readLE_byte_eq_ofNat (m : Memory) (a : Nat) : m.readLE a 1 = BitVec.ofNat 32 (m.read a).toNat := by
  rw [Memory.readLE_one, BitVec.ofNat_toNat]

/-! ### What a load and a store do once their checks pass -/

/-- A load whose checks pass writes its register and nothing else, with the value in any spelling (R210). -/
theorem writesOnly_of_load {i : Instr} {sz : Size} {ext : Word → Word} {rt rs : Reg} {imm pa v : Word} {s : State}
    (hi : exec i s = load sz ext rt rs imm s) (ha : alignmentAdmits s (s.readReg rs + imm) sz)
    (ht : s.translate (s.readReg rs + imm) .read = some pa) (hb : pa.toNat + sz.bytes ≤ s.memorySize.toNat)
    (hv : ext (s.mem.readLE pa.toNat sz.bytes) = v) : writesOnly i s rt v :=
  hv ▸ writesOnly_of_setReg (hi.trans (load_of_checks (alignmentAdmits_iff.1 ha) ht hb))

/-- A store whose checks pass writes the low bytes of its register (R210). -/
theorem store_of_checks {sz : Size} {rt rs : Reg} {imm pa : Word} {s : State}
    (ha : s.refusesMisaligned (s.effectiveAddr rs imm) sz = false)
    (ht : s.translate (s.effectiveAddr rs imm) .write = some pa) (hb : pa.toNat + sz.bytes ≤ s.memorySize.toNat) :
    store sz rt rs imm s = .next { s with mem := s.mem.writeLE pa.toNat sz.bytes (s.readReg rt) } := by
  rw [store, State.memWrite_ok ha ht hb]

/-- Every byte access is one the parameters admit (R67). -/
theorem alignmentAdmits_byte (s : State) (ea : Word) : alignmentAdmits s ea .byte :=
  alignmentAdmits_iff.2 (s.refusesMisaligned_byte ea)

/-! ### The instructions -/

/-- Settles O17: each load is the shared shape at its width, and its extension of the bytes read is the number named. -/
theorem loadResults : Obligations.LoadResults := by
  unfold Obligations.LoadResults
  refine ⟨⟨encodedI_of_rowM decodeFields_50, encodedI_of_rowM decodeFields_51, encodedI_of_rowM decodeFields_52,
    encodedI_of_rowM decodeFields_53, encodedI_of_rowM decodeFields_54⟩, fun rt rs imm pa s ht =>
    ⟨fun ha hb => ?lw, fun ha hb => ⟨?lh, ?lhu⟩, fun hb => ⟨?lb, ?lbu⟩⟩⟩
  case lw => exact writesOnly_of_load (ext := id) rfl ha ht hb (wordAt_eq s pa.toNat).symm
  case lh => exact writesOnly_of_load rfl ha ht hb (signExtendHalf_readLE s.mem pa.toNat)
  case lhu => exact writesOnly_of_load (ext := id) rfl ha ht hb (readLE_half_eq_ofNat s.mem pa.toNat)
  case lb => exact writesOnly_of_load rfl (alignmentAdmits_byte s _) ht hb (signExtendByte_readLE s.mem pa.toNat)
  case lbu =>
    exact writesOnly_of_load (ext := id) rfl (alignmentAdmits_byte s _) ht hb (readLE_byte_eq_ofNat s.mem pa.toNat)

/-- Settles O18: the three stores are one shape at three widths, which writes its bytes and leaves the rest of the state. -/
theorem storeResults : Obligations.StoreResults := by
  unfold Obligations.StoreResults
  refine ⟨⟨encodedI_of_rowM decodeFields_58, encodedI_of_rowM decodeFields_59, encodedI_of_rowM decodeFields_5a⟩, ?_⟩
  intro rt rs imm pa s ht i sz hform halign hb
  have hexec : exec i s = store sz rt rs imm s := by
    obtain ⟨rfl, rfl⟩ | ⟨rfl, rfl⟩ | ⟨rfl, rfl⟩ := hform <;> rfl
  refine ⟨_, hexec.trans (store_of_checks (alignmentAdmits_iff.1 halign) ht hb), ?bytes, ?outside,
    sameRegsExcept_refl s [], rfl, sameControl_refl s⟩
  case bytes => exact fun k hk => s.mem.read_writeLE_of_inside pa.toNat sz.bytes (s.readReg rt) hk
  case outside => exact fun a hout => s.mem.read_writeLE_of_outside pa.toNat sz.bytes (s.readReg rt) a hout

end Sys2Proof.Machine
end

section
/-! PROOFS. Branches (R230-R236): one shape for all six, taken on a condition whose spelling varies; the sign bit alone decides
BLTZ and BGEZ. -/

namespace Sys2Proof.Machine

/-! ### How the forms B2 and B1 are encoded, from their rows of the decoder (R124, R135) -/

theorem encodedB2_of_row {op : Byte} {i : Reg → Reg → Word → Instr}
    (h : ∀ rs rt rd imm, decodeFields ⟨op, rs, rt, rd, imm⟩ = decodeB2 i ⟨op, rs, rt, rd, imm⟩) : encodedB2 op i := by
  intro rs rt rd imm
  simp only [decode_bytes, h, decodeB2, regField_regByte]

theorem encodedB1_of_row {op : Byte} {i : Reg → Word → Instr}
    (h : ∀ rs rt rd imm, decodeFields ⟨op, rs, rt, rd, imm⟩ = decodeB1 i ⟨op, rs, rt, rd, imm⟩) : encodedB1 op i := by
  intro rs rt rd imm
  simp only [decode_bytes, h, decodeB1, regField_regByte]

/-! ### The shared shape: where the pc goes, the condition in any spelling -/

/-- A branch taken exactly when `p` sets the pc to the target then, leaves it otherwise, and does nothing else (R230, D14). -/
theorem jumpsOnly_of_branch {i : Instr} {taken : Bool} {imm : Word} {s : State} {p : Prop} [Decidable p]
    (hi : exec i s = branch taken imm s) (hp : taken = true ↔ p) :
    jumpsOnly i s (if p then BitVec.ofNat 32 (s.pc.toNat + imm.toNat) else s.pc) := by
  rw [← if_congr hp rfl rfl, ← BitVec.add_def]
  cases taken with
  | true => exact jumpsOnly_of_setPc hi
  | false => exact jumpsOnly_of_unchanged hi

theorem jumpsOnly_of_branch_unless {i : Instr} {taken : Bool} {imm : Word} {s : State} {p : Prop} [Decidable p]
    (hi : exec i s = branch taken imm s) (hp : taken = true ↔ ¬p) :
    jumpsOnly i s (if p then s.pc else BitVec.ofNat 32 (s.pc.toNat + imm.toNat)) := by
  rw [← ite_not]
  exact jumpsOnly_of_branch hi hp

/-! ### The conditions on a signed value (R233-R236) -/

theorem signedLeZero_iff {a : Word} : signedLeZero a = true ↔ a.toInt ≤ 0 := decide_eq_true_iff

theorem signedGtZero_iff {a : Word} : signedGtZero a = true ↔ 0 < a.toInt := decide_eq_true_iff

/-- A word is negative exactly when its top bit is set (R235). -/
theorem signedLtZero_iff {a : Word} : signedLtZero a = true ↔ a.getLsbD 31 = true := by
  rw [signedLtZero, ← BitVec.msb_eq_toInt, BitVec.msb_eq_getLsbD_last]

theorem signedGeZero_eq_not (a : Word) : signedGeZero a = !signedLtZero a := by
  rw [signedGeZero, signedLtZero, ← decide_not, decide_eq_decide, Int.not_lt]

theorem signedGeZero_iff {a : Word} : signedGeZero a = true ↔ ¬a.getLsbD 31 = true := by
  rw [signedGeZero_eq_not, Bool.not_eq_true', ← Bool.not_eq_true, signedLtZero_iff]

/-- Settles O25: each branch is the shared shape with its own condition; BNE and BGEZ are stated by when they fall through. -/
theorem branchTargets : Obligations.BranchTargets := by
  unfold Obligations.BranchTargets
  refine ⟨⟨encodedB2_of_row decodeFields_60, encodedB2_of_row decodeFields_61, encodedB1_of_row decodeFields_62,
    encodedB1_of_row decodeFields_63, encodedB1_of_row decodeFields_64, encodedB1_of_row decodeFields_65⟩,
    fun rs rt imm s => ⟨?beq, ?bne, ?blez, ?bgtz, ?bltz, ?bgez⟩⟩
  case beq => exact jumpsOnly_of_branch rfl beq_iff_eq
  case bne => exact jumpsOnly_of_branch_unless rfl bne_iff_ne
  case blez => exact jumpsOnly_of_branch rfl signedLeZero_iff
  case bgtz => exact jumpsOnly_of_branch rfl signedGtZero_iff
  case bltz => exact jumpsOnly_of_branch rfl signedLtZero_iff
  case bgez => exact jumpsOnly_of_branch_unless rfl signedGeZero_iff

end Sys2Proof.Machine
end

section
/-! PROOFS. Jumps (R240-R244): J and JR write the pc alone; JAL and JALR write the link and then the pc, one shape for both. -/

namespace Sys2Proof.Machine

/-! ### How the forms J, JR and JALR are encoded, from their rows of the decoder (R124, R135) -/

theorem encodedJ_of_row {op : Byte} {i : Word → Instr}
    (h : ∀ rs rt rd imm, decodeFields ⟨op, rs, rt, rd, imm⟩ = .ok (i imm)) : encodedJ op i :=
  fun rs rt rd imm => (decode_bytes _).trans (h rs rt rd imm)

theorem encodedJr_of_row {op : Byte} {i : Reg → Instr}
    (h : ∀ rs rt rd imm, decodeFields ⟨op, rs, rt, rd, imm⟩ = decodeJr i ⟨op, rs, rt, rd, imm⟩) : encodedJr op i := by
  intro rs rt rd imm
  simp only [decode_bytes, h, decodeJr, regField_regByte]

theorem encodedJalr_of_row {op : Byte} {i : Reg → Reg → Instr}
    (h : ∀ rs rt rd imm, decodeFields ⟨op, rs, rt, rd, imm⟩ = decodeJalr i ⟨op, rs, rt, rd, imm⟩) :
    encodedJalr op i := by
  intro rd rs rt imm
  simp only [decode_bytes, h, decodeJalr, regField_regByte]

/-! ### The shared shape: a link register, then the pc -/

/-- Executing `i` in `s` links in `r` (R0 discards it), sets the pc to `w`, and changes nothing else. -/
def linksOnly (i : Instr) (s : State) (r : Reg) (w : Word) : Prop :=
  ∃ t, exec i s = .next t ∧ t.readReg r = written r s.pc ∧ t.pc = w ∧ sameRegsExcept s t [r] ∧ sameMem s t ∧
    sameControl s t

theorem linksOnly_of_setReg_setPc {i : Instr} {s : State} {r : Reg} {w : Word}
    (h : exec i s = .next ((s.setReg r s.pc).setPc w)) : linksOnly i s r w :=
  ⟨_, h, readReg_setReg_self s r s.pc, rfl, sameRegsExcept_setReg s r s.pc, sameMem_refl s, sameControl_refl s⟩

/-! ### JALR, by its registers and its parameter (R244, D16) -/

theorem exec_jalr_of_ne {rd rs : Reg} (h : rd ≠ rs) (s : State) :
    exec (.jalr rd rs) s = .next ((s.setReg rd s.pc).setPc (s.readReg rs)) := if_neg h

theorem exec_jalr_self_of_linkFirst (r : Reg) {s : State} (h : s.cfg.jalrSameReg = .linkFirst) :
    exec (.jalr r r) s = .next ((s.setReg r s.pc).setPc s.pc) := by
  change execJalr r r s = _
  rw [execJalr, if_pos rfl, h]

theorem exec_jalr_self_of_refuse (r : Reg) {s : State} (h : s.cfg.jalrSameReg = .refuse) :
    exec (.jalr r r) s = .refused .jalrSameRegister := by
  change execJalr r r s = _
  rw [execJalr, if_pos rfl, h]

theorem linksOnly_jalr {rd rs : Reg} {s : State} (h : rd ≠ rs ∨ s.cfg.jalrSameReg = .linkFirst) :
    linksOnly (.jalr rd rs) s rd (if rd = rs then s.pc else s.readReg rs) := by
  by_cases hreg : rd = rs
  · subst hreg
    rw [if_pos rfl]
    exact linksOnly_of_setReg_setPc (exec_jalr_self_of_linkFirst rd (h.resolve_left (not_not_intro rfl)))
  · rw [if_neg hreg]
    exact linksOnly_of_setReg_setPc (exec_jalr_of_ne hreg s)

/-! ### The instructions -/

/-- Settles O26: J and JR write the pc and JAL is the linking shape at R31, which R21 does not discard. -/
theorem jumpTargets : Obligations.JumpTargets := by
  unfold Obligations.JumpTargets
  refine ⟨⟨encodedJ_of_row decodeFields_70, encodedJ_of_row decodeFields_71, encodedJr_of_row decodeFields_72⟩,
    fun rs imm s => ⟨jumpsOnly_of_setPc rfl, jumpsOnly_of_setPc rfl, ?jal⟩⟩
  case jal =>
    have hlink : linksOnly (.jal imm) s 31 imm := linksOnly_of_setReg_setPc rfl
    obtain ⟨t, hexec, hr31, hpc, hframe⟩ := hlink
    have hwritten : written 31 s.pc = s.pc := if_neg (by decide)
    exact ⟨t, hexec, hpc, hr31.trans hwritten, hframe⟩

/-- Settles O27: JALR is the linking shape, the target by whether its registers differ; the same register may be refused. -/
theorem jalrTargets : Obligations.JalrTargets := by
  unfold Obligations.JalrTargets
  refine ⟨encodedJalr_of_row decodeFields_73, fun rd rs s => ⟨linksOnly_jalr, ?refuse⟩⟩
  case refuse =>
    rintro rfl hcfg
    exact exec_jalr_self_of_refuse rd hcfg

end Sys2Proof.Machine
end

section
/-! PROOFS. What a step in user mode cannot reach (R260, R330): a step that dispatches nothing keeps what every part of it
after the interrupt check keeps. -/

namespace Sys2Proof.Machine

/-- A step with no interrupt to dispatch keeps what every part of a step after the check keeps, once the last step's outcome
is forgotten (R40). -/
theorem KeptAfterCheck.of_selectInterrupt_eq_none {R : State → State → Prop} (hR : KeptAfterCheck R) {s t : State}
    (hsel : s.selectInterrupt = none) (h : step s = .next t) : R { s with stopReason := none } t := by
  have hcheck := interruptCheck_of_none hsel
  obtain ⟨hnone, -⟩ | ⟨s1, hc, hrest⟩ := Machine.step_cases h
  · exact nomatch hnone.symm.trans hcheck
  · obtain rfl : s1 = { s with stopReason := none } := Option.some.inj (hc.symm.trans hcheck)
    obtain ⟨r, -, rfl⟩ | ⟨f, -, -, rfl⟩ | ⟨i, u, -, he, rfl⟩ := hrest
    · exact hR.stopFetch _ r
    · exact hR.trans (hR.setPc _ _) (hR.trans (hR.raiseFault _ _) (hR.endStep _))
    · exact hR.trans (hR.setPc _ _) (hR.trans (hR.effect (exec_effect he)) (hR.endStep u))

theorem samePaging_trans {s t u : State} (hst : samePaging s t) (htu : samePaging t u) : samePaging s u := by
  obtain ⟨hp, hb, hn⟩ := hst
  obtain ⟨hp', hb', hn'⟩ := htu
  exact ⟨hp'.trans hp, hb'.trans hb, hn'.trans hn⟩

/-- From user mode: the mode is still user, and paging and the interrupt enable are as they were. -/
def UserControlKept (s t : State) : Prop :=
  s.kernelMode = false → t.kernelMode = false ∧ samePaging s t ∧ t.intEnabled = s.intEnabled

/-- The instructions that write the mode, paging or the interrupt enable do so in kernel mode only (R260). -/
theorem ExecEffect.userControlKept {i : Instr} {s t : State} (h : ExecEffect i s t) : UserControlKept s t := by
  intro hu
  cases h with
  | setIntEnabled _ _ hk | setPaging _ _ hk | setPtbr _ _ _ hk | enteredUser _ hk | returned _ hk =>
    exact nomatch hu.symm.trans hk
  | unchanged | wroteReg | jumped | linked | faulted | stored | halted | raised =>
    exact ⟨hu, samePaging_refl s, rfl⟩

theorem keptAfterCheck_userControl : KeptAfterCheck UserControlKept where
  trans := by
    intro s t u hst htu hu
    obtain ⟨hu', hpaging, hie⟩ := hst hu
    obtain ⟨hu'', hpaging', hie'⟩ := htu hu'
    exact ⟨hu'', samePaging_trans hpaging hpaging', hie'.trans hie⟩
  stopFetch s r hu := by cases r <;> exact ⟨hu, samePaging_refl s, rfl⟩
  setPc s _ hu := ⟨hu, samePaging_refl s, rfl⟩
  raiseFault s _ hu := ⟨hu, samePaging_refl s, rfl⟩
  effect he := he.userControlKept
  endStep s hu := ⟨s.kernelMode_endStep.trans hu,
    ⟨s.pagingEnabled_endStep, s.pageTableBase_endStep, s.numPages_endStep⟩, s.intEnabled_endStep⟩

/-- Settles O52: the control fields are kept from user mode, the saved registers and pending bits from either mode. -/
theorem userStepKeepsControl : Obligations.UserStepKeepsControl := by
  unfold Obligations.UserStepKeepsControl
  intro s t hu hsel hstep
  obtain ⟨huser, hpaging, hie⟩ := keptAfterCheck_userControl.of_selectInterrupt_eq_none hsel hstep hu
  exact ⟨huser, hpaging, hie, keptAfterCheck_sameSaved.of_selectInterrupt_eq_none hsel hstep,
    fun k => (keptAfterCheck_pending k).of_selectInterrupt_eq_none hsel hstep⟩

end Sys2Proof.Machine
end

section
/-! PROOFS. System and control instructions (R250-R253, R260-R265, R271-R275): one shape for the privileged seven, by the
mode. -/

namespace Sys2Proof.Machine

/-! ### How the forms N, RD and PTBR are encoded, from their rows of the decoder (R124, R135) -/

theorem encodedN_of_row {op : Byte} {i : Instr} (h : ∀ rs rt rd imm, decodeFields ⟨op, rs, rt, rd, imm⟩ = .ok i) :
    encodedN op i :=
  fun rs rt rd imm => (decode_bytes _).trans (h rs rt rd imm)

theorem encodedRd_of_row {op : Byte} {i : Reg → Instr}
    (h : ∀ rs rt rd imm, decodeFields ⟨op, rs, rt, rd, imm⟩ = decodeRd i ⟨op, rs, rt, rd, imm⟩) : encodedRd op i := by
  intro rd rs rt imm
  simp only [decode_bytes, h, decodeRd, regField_regByte]

theorem encodedPtbr_of_row {op : Byte} {i : Reg → Reg → Instr}
    (h : ∀ rs rt rd imm, decodeFields ⟨op, rs, rt, rd, imm⟩ = decodePtbr i ⟨op, rs, rt, rd, imm⟩) :
    encodedPtbr op i := by
  intro rd rt rs imm
  simp only [decode_bytes, h, decodePtbr, regField_regByte]

/-! ### The privilege check (R260) -/

theorem privileged_of_kernel {s : State} (hk : s.kernelMode = true) (f : State → Result) : privileged f s = f s :=
  if_pos hk

/-- In kernel mode a privileged instruction has the effect `r` it has on this state (R260). -/
theorem exec_of_kernel {i : Instr} {r : Result} {s : State} (hi : exec i s = privileged (fun _ => r) s)
    (hk : s.kernelMode = true) : exec i s = r := hi.trans (privileged_of_kernel hk fun _ => r)

theorem privileged_of_user {s : State} (hu : s.kernelMode = false) (f : State → Result) :
    privileged f s = .next (s.raiseFault intPrivilegeViolation) :=
  if_neg (Bool.eq_false_iff.1 hu)

/-- Each of the seven goes through the privilege check first. -/
theorem exec_of_isPrivileged {i : Instr} (h : IsPrivileged i) (s : State) : ∃ f, exec i s = privileged f s := by
  simp only [IsPrivileged, List.mem_cons, List.not_mem_nil, or_false] at h
  obtain ⟨rd, rt, rfl⟩ | rfl | rfl | rfl | rfl | rfl | rfl := h
  · exact ⟨fun s => .next { s with pageTableBase := s.readReg rd, numPages := s.readReg rt }, rfl⟩
  · exact ⟨fun s => .next { s with intEnabled := true }, rfl⟩
  · exact ⟨fun s => .next { s with intEnabled := false }, rfl⟩
  · exact ⟨fun s => if s.frameInBounds then .next s.returnFromInterrupt else .next (s.raiseFault intMemFault), rfl⟩
  · exact ⟨fun s => .next { s with pagingEnabled := true }, rfl⟩
  · exact ⟨fun s => .next { s with pagingEnabled := false }, rfl⟩
  · exact ⟨fun s => .next { s with kernelMode := false }, rfl⟩

/-- In user mode a privileged instruction is refused by PRIVILEGE_VIOLATION, whatever it would have done (R260). -/
theorem exec_of_isPrivileged_user {i : Instr} (h : IsPrivileged i) {s : State} (hu : s.kernelMode = false) :
    exec i s = .next (s.raiseFault intPrivilegeViolation) := by
  obtain ⟨f, hf⟩ := exec_of_isPrivileged h s
  exact hf.trans (privileged_of_user hu f)

/-- Settles O33: the privilege check answers before the instruction's effect. -/
theorem privilegeViolations : Obligations.PrivilegeViolations := by
  unfold Obligations.PrivilegeViolations
  intro rd rt i s hu hi
  have hpriv : IsPrivileged i := by
    simp only [List.mem_cons, List.not_mem_nil, or_false] at hi
    obtain rfl | rfl | rfl | rfl | rfl | rfl | rfl := hi <;> simp [IsPrivileged]
  exact ⟨_, exec_of_isPrivileged_user hpriv hu, onlyRaises_raiseFault s intPrivilegeViolation⟩

/-! ### SYSCALL, BREAK and IRET -/

/-- SYSCALL and BREAK are one shape: the bit of their interrupt, `running` and the stop reason (R252, R253). -/
theorem exec_of_halts {i : Instr} {n : Nat} {r : StopReason} (s : State)
    (h : (i = .syscall ∧ n = 4 ∧ r = .haltSyscall) ∨ (i = .brk ∧ n = 5 ∧ r = .haltBreak)) :
    ∃ m : IntNum, m.toNat = n ∧ exec i s = .next { s.raisePending m with running := false, stopReason := some r } := by
  obtain ⟨rfl, rfl, rfl⟩ | ⟨rfl, rfl, rfl⟩ := h
  · exact ⟨intSyscall, rfl, rfl⟩
  · exact ⟨intBreak, rfl, rfl⟩

/-- Settles O29: the shared shape writes three fields, and its two stop reasons are those of status 0. -/
theorem syscallAndBreakHalt : Obligations.SyscallAndBreakHalt := by
  unfold Obligations.SyscallAndBreakHalt
  refine ⟨⟨encodedN_of_row decodeFields_f0, encodedN_of_row decodeFields_f1⟩, fun s i n r h => ?_⟩
  obtain ⟨m, rfl, hexec⟩ := exec_of_halts s h
  refine ⟨_, hexec, raisedBit_of_pending rfl, rfl, rfl, ?status, sameRegsExcept_of_regs rfl [], sameMem_refl s, rfl, rfl,
    samePaging_refl s, rfl, sameSaved_refl s, sameMachine_refl s⟩
  case status => obtain ⟨-, -, rfl⟩ | ⟨-, -, rfl⟩ := h <;> rfl

/-- Settles O34: IRET returns, and each word of the frame it reads is the word written out byte by byte. -/
theorem iretRestores : Obligations.IretRestores := by
  unfold Obligations.IretRestores
  refine ⟨encodedN_of_row decodeFields_f4, fun s hk hframe => ⟨_, exec_iret_of_kernel hk hframe, ?regs, ?zero,
    s.pc_returnFromInterrupt, s.intEnabled_returnFromInterrupt, ?mode, ?mem, s.pending_returnFromInterrupt,
    ⟨s.pagingEnabled_returnFromInterrupt, s.pageTableBase_returnFromInterrupt, s.numPages_returnFromInterrupt⟩,
    ⟨s.savedPc_returnFromInterrupt, s.savedRegsAddr_returnFromInterrupt, s.savedMode_returnFromInterrupt⟩,
    s.running_returnFromInterrupt, s.stopReason_returnFromInterrupt,
    s.memorySize_returnFromInterrupt, s.cfg_returnFromInterrupt⟩⟩
  case regs =>
    intro r hr
    rw [State.readReg_returnFromInterrupt, if_neg hr, wordAt_eq, State.frameWord]
  case zero => exact State.readReg_zero _
  case mode =>
    cases hmode : s.cfg.iretMode with
    | unchanged => exact (s.kernelMode_returnFromInterrupt_unchanged hmode).trans hk
    | restoreSaved => exact s.kernelMode_returnFromInterrupt_restoreSaved hmode
  case mem => exact fun a => congrArg (Memory.read · a) s.mem_returnFromInterrupt

/-- IRET in kernel mode with its frame outside memory raises MEM_FAULT (R263, D12). -/
theorem exec_iret_of_frame_outside {s : State} (hk : s.kernelMode = true)
    (hf : s.memorySize.toNat < s.savedRegsAddr.toNat + 128) : exec .iret s = .next (s.raiseFault intMemFault) := by
  have hout : ¬s.frameInBounds = true := by rw [State.frameInBounds, State.inBounds_iff]; omega
  change execIret s = _
  rw [execIret, privileged_of_kernel hk, if_neg hout]

/-- Settles O35: the frame's bounds are checked before anything is restored. -/
theorem iretFrameFault : Obligations.IretFrameFault := by
  unfold Obligations.IretFrameFault
  intro s hk hframe
  exact ⟨_, exec_iret_of_frame_outside hk hframe, onlyRaises_raiseFault s intMemFault⟩

/-! ### The instructions that need no check of their own -/

/-- Settles O28: NOP is the opcode 0x00 alone, and the state it leaves is the state it found. -/
theorem nopResult : Obligations.NopResult := by
  unfold Obligations.NopResult
  exact ⟨encodedN_of_row decodeFields_00, fun _ => jumpsOnly_of_unchanged rfl⟩

/-- Settles O30: the low byte of the immediate is the number raised. -/
theorem raiseSetsItsBit : Obligations.RaiseSetsItsBit := by
  unfold Obligations.RaiseSetsItsBit
  refine ⟨encodedJ_of_row decodeFields_f5, fun imm s => ⟨s.raisePending (imm.setWidth 8), rfl, ?_, rfl⟩⟩
  have hnum : (imm.setWidth 8).toNat = imm.toNat % 256 := imm.toNat_setWidth 8
  exact hnum ▸ raisedBit_of_pending rfl

/-- Settles O31: GETPC and GETMODE write one register from a field, whatever the mode. -/
theorem getpcGetmodeResults : Obligations.GetpcGetmodeResults := by
  unfold Obligations.GetpcGetmodeResults
  exact ⟨⟨encodedRd_of_row decodeFields_f6, encodedRd_of_row decodeFields_fc⟩,
    fun rd s => ⟨writesOnly_of_setReg rfl, writesOnly_of_setReg rfl⟩⟩

/-- Settles O32: in kernel mode the privilege check lets each effect through. -/
theorem privilegedEffects : Obligations.PrivilegedEffects := by
  unfold Obligations.PrivilegedEffects
  refine ⟨⟨encodedN_of_row decodeFields_f2, encodedN_of_row decodeFields_f3, encodedN_of_row decodeFields_f7,
    encodedN_of_row decodeFields_f8, encodedPtbr_of_row decodeFields_f9, encodedN_of_row decodeFields_fb⟩,
    fun rd rt s hk => ⟨?ei, ?di, ?enablePaging, ?disablePaging, ?setPtbr, ?enterUser⟩⟩
  all_goals exact exec_of_kernel rfl hk

end Sys2Proof.Machine
end

section
/-! PROOFS. Which interrupt the check selects, all that its dispatch does, and the dispatch that fails (R311, R315, R320,
R322). -/

namespace Sys2Proof.Machine

/-- Settles O36: with interrupts enabled the selection is the lowest pending bit that may be dispatched. -/
theorem lowestPendingSelected : Obligations.LowestPendingSelected := by
  unfold Obligations.LowestPendingSelected
  intro s n
  cases hie : s.intEnabled with
  | false => simp [s.selectInterrupt_of_disabled hie]
  | true => simp [State.selectInterrupt, hie, firstPending_eq_some]

/-- A dispatch writes the frame address to R29, the number to R4, and no other register (R320). -/
theorem State.readReg_of_dispatch {s t : State} {n : IntNum} (h : s.dispatch n = some t) (r : Reg) :
    t.readReg r = if r = 4 then n.setWidth 32 else if r = 29 then s.frameAddr else s.readReg r := by
  obtain ⟨-, hregs, -⟩ := State.dispatch_eq_some h
  rw [State.readReg_congr hregs, State.readReg_setReg, State.readReg_setReg]
  simp

/-- Word `r` of the frame a dispatch has written, byte by byte (R320 step 5). -/
theorem wordAt_frame_of_dispatch {s t : State} {n : IntNum} (h : s.dispatch n = some t) (r : Reg) :
    wordAt t (s.frameAddr.toNat + 4 * r.val) =
      if r = 29 then (match s.cfg.frameSpImage with | .pre => s.readReg 29 | .post => s.frameAddr) else s.readReg r := by
  obtain ⟨-, -, -, hmem, -⟩ := State.dispatch_eq_some h
  rw [wordAt_eq, hmem]
  exact s.readLE_frameMem r

/-- The saved mode a dispatch leaves under the two values of IRET_MODE (R332, D4). -/
theorem State.savedMode_of_dispatch {s t : State} {n : IntNum} (h : s.dispatch n = some t) :
    t.savedMode = (match s.cfg.iretMode with | .unchanged => s.savedMode | .restoreSaved => s.kernelMode) := by
  obtain ⟨-, -, -, -, -, -, -, -, -, -, -, -, -, -, -, -, hkeep, hsave⟩ := State.dispatch_eq_some h
  cases hmode : s.cfg.iretMode with
  | unchanged => exact hkeep hmode
  | restoreSaved => exact hsave hmode

/-- Settles O37: the dispatch goes through, and its registers, its frame and its fields are those of R320. -/
theorem dispatchEffect : Obligations.DispatchEffect := by
  unfold Obligations.DispatchEffect
  intro s n hcan
  obtain ⟨t, hd, hpc⟩ := State.dispatch_of_canDispatch hcan
  have hreg := State.readReg_of_dispatch hd
  have hword := wordAt_frame_of_dispatch hd
  obtain ⟨-, -, -, hmem, hsize, hrun, hk, hpaging, hbase, hpages, hie, -, hsavedPc, haddr, hreason, hcfg, -⟩ :=
    State.dispatch_eq_some hd
  refine ⟨t, hd, ?pc, hsavedPc, haddr, hreg 29, ?number, ?otherRegs, ?frame, hword 29, ?otherMem, hk, hie,
    State.getLsbD_pending_of_dispatch hd, State.savedMode_of_dispatch hd, ⟨hpaging, hbase, hpages⟩, hrun, hreason,
    hsize, hcfg⟩
  case pc => rw [wordAt_eq, hmem]; exact hpc
  case number => rw [hreg, if_pos rfl, BitVec.ofNat_toNat]
  case otherRegs =>
    intro r hr
    obtain ⟨h4, h29⟩ : r ≠ 4 ∧ r ≠ 29 := by simpa using hr
    rw [hreg, if_neg h4, if_neg h29]
  case frame => exact fun r hr => (hword r).trans (if_neg hr)
  case otherMem => exact fun a ha => hmem ▸ s.read_frameMem_of_outside a ha

/-- Whether a dispatch fails does not depend on the outcome of the last step (R322). -/
theorem State.dispatch_withStopReason_eq_none {s : State} {n : IntNum} (r : Option StopReason) :
    ({ s with stopReason := r } : State).dispatch n = none ↔ s.dispatch n = none := by
  rw [State.dispatch_eq_none, State.dispatch_eq_none]
  exact Iff.rfl

/-- A step whose selected interrupt cannot be dispatched changes its status and nothing else (R322). -/
theorem step_of_dispatch_eq_none {s : State} {n : IntNum} (hsel : s.selectInterrupt = some n)
    (hd : s.dispatch n = none) : step s = .next { s with stopReason := some .dispatchFailed } := by
  have hsel' : ({ s with stopReason := none } : State).selectInterrupt = some n := hsel
  have hcheck : ({ s with stopReason := none } : State).interruptCheck = none := by
    rw [State.interruptCheck, hsel']
    exact (State.dispatch_withStopReason_eq_none none).2 hd
  show vmStep s = _
  rw [vmStep, hcheck]

/-- The three conditions of R322, negated. -/
theorem State.canDispatch_eq_false_iff (s : State) (n : IntNum) :
    s.canDispatch n = false ↔ s.memorySize.toNat < s.frameAddr.toNat + 128 ∨ s.memorySize.toNat < 8 * n.toNat + 4 ∨
      s.handlerWord n = 0 := by
  rw [← Bool.not_eq_true, State.canDispatch_iff]
  simp only [not_and_or, not_le, not_not]

/-- Settles O38: selection and dispatch do not look at the step's outcome, so the failed dispatch fails again. -/
theorem dispatchFailureStops : Obligations.DispatchFailureStops := by
  unfold Obligations.DispatchFailureStops
  intro s n hsel
  refine ⟨State.dispatch_eq_none.trans (s.canDispatch_eq_false_iff n), fun hd => ?_⟩
  have hsel' : ({ s with stopReason := some .dispatchFailed } : State).selectInterrupt = some n := hsel
  have hagain := step_of_dispatch_eq_none hsel' ((State.dispatch_withStopReason_eq_none _).2 hd)
  refine ⟨step_of_dispatch_eq_none hsel hd, hagain, fun hrun => ?_⟩
  have hresume : ({ s with stopReason := some .dispatchFailed, running := true } : State) =
      { s with stopReason := some .dispatchFailed } := by rw [← hrun]
  rw [resumeStep, hresume, hagain]

end Sys2Proof.Machine
end

section
/-! PROOFS. The host's calls keep the invariant (R44, R340), and which of them can answer none (log 40). -/

namespace Sys2Proof.Machine

/-- `c32_vm_init` keeps memory and its size and zeroes R0's slot (R44). -/
theorem State.WF.hostReset {s : State} (hs : s.WF) : (hostReset s).WF := by
  obtain ⟨hwf, hbelow, -⟩ := hs
  exact ⟨hwf, hbelow, State.regs_init s.cfg s.mem s.memorySize 0⟩

/-- A word the host writes is inside memory (R107, log 40). -/
theorem State.WF.hostWriteWord {s t : State} (hs : s.WF) {pa : Nat} {v : Word} (h : hostWriteWord pa v s = some t) :
    t.WF := by
  obtain ⟨hb, rfl⟩ := State.physWrite_eq_some.1 h
  exact hs.writeLE hb v

/-- Bytes the host loads are inside memory (R45, log 40). -/
theorem State.WF.hostLoadBytes {s t : State} (hs : s.WF) {pa : Nat} {bytes : List Byte}
    (h : hostLoadBytes pa bytes s = some t) : t.WF := by
  obtain ⟨hwf, hbelow, hzero⟩ := hs
  unfold Machine.hostLoadBytes at h
  split at h
  · rename_i hb
    cases h
    exact ⟨Memory.wf_writeBytes hwf pa bytes,
      Memory.below_writeBytes hbelow pa bytes ((s.inBounds_iff pa bytes.length).1 hb), hzero⟩
  · cases h

/-- Of the host's calls `c32_vm_init` alone sets R0's slot, and those that write memory write inside it. -/
theorem State.WF.hostCall {c : HostCall} {s t : State} (hs : s.WF) (h : hostCall c s = some t) : t.WF := by
  cases c with
  | reset => cases h; exact hs.hostReset
  | setReg r v => cases h; exact hs.congr rfl rfl (s.slot0_setReg r v)
  | setHandler n addr => exact hs.hostWriteWord (pa := 8 * n.toNat) (v := addr) h
  | writeWord pa v => exact hs.hostWriteWord h
  | loadBytes pa bytes => exact hs.hostLoadBytes h
  | setPc | setSavedPc | setSavedRegsAddr | setSavedMode => cases h; exact hs.congr rfl rfl rfl
  | setKernelMode | setPagingEnabled | setPageTableBase | setNumPages => cases h; exact hs.congr rfl rfl rfl
  | setIntEnabled | setPending | setRunning | raiseInterrupt => cases h; exact hs.congr rfl rfl rfl

/-- A call that answers none is one of the three that write memory (log 40). -/
theorem writesMemory_of_hostCall_eq_none {c : HostCall} {s : State} (h : hostCall c s = none) :
    (∃ pa v, c = .writeWord pa v) ∨ (∃ n v, c = .setHandler n v) ∨ ∃ pa bytes, c = .loadBytes pa bytes := by
  cases c with
  | writeWord pa v => exact .inl ⟨pa, v, rfl⟩
  | setHandler n addr => exact .inr (.inl ⟨n, addr, rfl⟩)
  | loadBytes pa bytes => exact .inr (.inr ⟨pa, bytes, rfl⟩)
  | reset | setPc | setReg | setSavedPc | setSavedRegsAddr | setSavedMode => cases h
  | setKernelMode | setPagingEnabled | setPageTableBase | setNumPages => cases h
  | setIntEnabled | setPending | setRunning | raiseInterrupt => cases h

/-- Settles O48: call by call for the invariant; the handler's word is a word write at its vector. -/
theorem hostCallsKeepInvariant : Obligations.HostCallsKeepInvariant := by
  unfold Obligations.HostCallsKeepInvariant
  exact ⟨fun _ _ _ hs h => hs.hostCall h, fun _ _ _ => hostWriteWord_eq_none, fun _ _ _ => hostWriteWord_eq_none,
    fun _ _ _ => hostLoadBytes_eq_none, fun _ _ => writesMemory_of_hostCall_eq_none⟩

end Sys2Proof.Machine
end

section
/-! PROOFS. A machine that a fetch stopped stays stopped: the fetch that failed fails again in the same way (R311, R341). -/

namespace Sys2Proof.Machine

/-- The three stops of the fetch (R40 steps 2 to 4). -/
def StopReason.IsFetchStop (r : StopReason) : Prop := r = .misalignedPc ∨ r = .fetchPageFault ∨ r = .fetchOutOfBounds

/-- An execute-phase exception does not end a step with a stop of the fetch (R310). -/
theorem State.not_isFetchStop_raiseFault {s : State} (hs : s.stopReason = none) (n : IntNum) {r : StopReason}
    (hr : (s.raiseFault n).stopReason = some r) : ¬r.IsFetchStop := by
  cases hstatus : s.cfg.execFaultStatus with
  | continue_ => exact nomatch ((s.stopReason_raiseFault_continue n hstatus).trans hs).symm.trans hr
  | stop =>
    obtain rfl : .execFault = r := Option.some.inj ((s.stopReason_raiseFault_stop n hstatus).symm.trans hr)
    simp [StopReason.IsFetchStop]

/-- An instruction does not end a step with a stop of the fetch (R42). -/
theorem ExecEffect.not_isFetchStop {i : Instr} {s t : State} (h : ExecEffect i s t) (hs : s.stopReason = none)
    {r : StopReason} (hr : t.stopReason = some r) : ¬r.IsFetchStop := by
  cases h with
  | faulted n => exact State.not_isFetchStop_raiseFault hs n hr
  | halted n halt hcause =>
    obtain rfl : halt = r := Option.some.inj hr
    obtain ⟨-, -, rfl⟩ | ⟨-, -, rfl⟩ := hcause <;> simp [StopReason.IsFetchStop]
  | returned => exact nomatch (s.stopReason_returnFromInterrupt.trans hs).symm.trans hr
  | unchanged | wroteReg | jumped | linked | stored | raised => exact nomatch hs.symm.trans hr
  | setIntEnabled | setPaging | setPtbr | enteredUser => exact nomatch hs.symm.trans hr

theorem State.stopReason_stopFetch (s : State) (r : StopReason) : (s.stopFetch r).stopReason = some r := by
  cases r <;> rfl

/-- A step that ends with a stop of the fetch was stopped by a fetch that failed so (R40). `s1` is the state the interrupt
check leaves. -/
theorem exists_fetchAddr_error_of_isFetchStop {s t : State} (h : step s = .next t) {r : StopReason}
    (hr : t.stopReason = some r) (hstop : r.IsFetchStop) :
    ∃ s1, ({ s with stopReason := none } : State).interruptCheck = some s1 ∧ s1.fetchAddr = .error r ∧
      t = s1.stopFetch r := by
  obtain ⟨-, rfl⟩ | ⟨s1, hc, hrest⟩ := step_cases h
  · obtain rfl : .dispatchFailed = r := Option.some.inj hr
    simp [StopReason.IsFetchStop] at hstop
  · obtain ⟨-, hnone⟩ := State.outcome_of_interruptCheck hc
    obtain ⟨r', hf, rfl⟩ | ⟨f, -, -, rfl⟩ | ⟨i, u, -, he, rfl⟩ := hrest
    · obtain rfl : r' = r := Option.some.inj ((s1.stopReason_stopFetch r').symm.trans hr)
      exact ⟨s1, hc, hf, rfl⟩
    · rw [State.stopReason_endStep] at hr
      exact absurd hstop (State.not_isFetchStop_raiseFault (s := s1.setPc (s1.pc + 8#32)) hnone intIllegalOp hr)
    · rw [State.stopReason_endStep] at hr
      exact absurd hstop ((exec_effect he).not_isFetchStop hnone hr)

/-- Where a fetch stopped, the next one fails in the same way: its pc, translation and bounds are as they were, whatever
`running` is. -/
theorem State.fetchAddr_stopFetch (s : State) (r : StopReason) (b : Bool) :
    ({ s.stopFetch r with running := b } : State).fetchAddr = s.fetchAddr := by
  cases r <;> rfl

/-- Stopping twice is stopping once: raising a pending interrupt again and clearing `running` again change nothing. `b` is
`running` as it was, or as the first stop left it. -/
theorem State.stopFetch_stopFetch {s : State} {r : StopReason} (hf : s.fetchAddr = .error r) {b : Bool}
    (hb : b = s.running ∨ b = (s.stopFetch r).running) :
    ({ s.stopFetch r with running := b, stopReason := none } : State).stopFetch r = s.stopFetch r := by
  have hraise (p bit : BitVec 256) : p ||| bit ||| bit = p ||| bit := by rw [BitVec.or_assoc, BitVec.or_self]
  obtain ⟨rfl, -⟩ | ⟨rfl, -⟩ | ⟨rfl, -⟩ := State.fetchAddr_eq_error hf
  · obtain rfl : b = s.running := hb.elim id id
    simp only [State.stopFetch, State.raisePending, hraise]
  · obtain rfl : b = s.running := hb.elim id id
    simp only [State.stopFetch, State.raisePending, hraise]
  · rfl

/-- With interrupts disabled a fetch that stopped stops again, whether or not `running` was set again (R311, R341). -/
theorem step_stopFetch_again {s : State} {r : StopReason} (hf : s.fetchAddr = .error r)
    (hie : (s.stopFetch r).intEnabled = false) {b : Bool} (hb : b = s.running ∨ b = (s.stopFetch r).running) :
    step { s.stopFetch r with running := b } = .next (s.stopFetch r) := by
  have hsel : ({ s.stopFetch r with running := b } : State).selectInterrupt = none :=
    State.selectInterrupt_of_disabled _ hie
  rw [step_of_fetchAddr_error hsel ((s.fetchAddr_stopFetch r b).trans hf), State.stopFetch_stopFetch hf hb]

/-- A run with no interrupt arriving leaves after a first step of status -1 (R41, D24). -/
theorem vmRunClosed_of_step {s t : State} (hstep : step { s with running := true } = .next t)
    (hstatus : t.statusOk = false) (fuel : Nat) : vmRunClosed (fuel + 1) s = .stopped t := by
  rw [vmRunClosed, List.replicate_succ, vmRun, runLoop, hostRaiseSet_zero, hstep]
  simp [hstatus]

/-- Settles O59: the step after the stop is the same stop, and for a running machine so is the one a resume or a run starts
with. -/
theorem fetchStopIsStuck : Obligations.FetchStopIsStuck := by
  unfold Obligations.FetchStopIsStuck
  intro s t hstep hie hreason
  obtain ⟨r, hr, hstop⟩ : ∃ r, t.stopReason = some r ∧ r.IsFetchStop := by
    obtain hr | hr | hr := hreason <;> exact ⟨_, hr, by simp [StopReason.IsFetchStop]⟩
  obtain ⟨s1, hc, hf, rfl⟩ := exists_fetchAddr_error_of_isFetchStop hstep hr hstop
  refine ⟨step_stopFetch_again hf hie (.inr rfl), fun hrun => ?_⟩
  obtain ⟨hrun1, -⟩ := State.outcome_of_interruptCheck hc
  have hresume : resumeStep (s1.stopFetch r) = .next (s1.stopFetch r) :=
    step_stopFetch_again hf hie (.inl (hrun1.trans hrun).symm)
  exact ⟨hresume, vmRunClosed_of_step hresume (State.statusOk_stopFetch hf)⟩

end Sys2Proof.Machine
end
